-- ==== Sys2Proof/Word.lean ====
section
/-! DEFINITION. The data units of the block: bytes of buffers and SPI transfers, 16-bit words of the buses (R16). -/

namespace Sys2Proof

/-- One byte of a buffer or of an SPI transfer (R57). -/
abbrev Byte := BitVec 8

/-- One word of the parallel bus, and one input word of the 9-bit emulation (R16).
On the 8-bit bus the upper eight bits are zero. -/
abbrev Word := BitVec 16

end Sys2Proof
end

