-- ==== Sys2Proof/Config.lean ====
section
/-! DEFINITION. The configuration record `CFG` (R22 to R33) with the parameters of R7, each a field of it, and the free
values: what the environment or the implementation picks and the spec leaves open. -/

namespace Sys2Proof

/-- One digital line: an opaque identifier and the flag "may this line's access block/sleep" (R33, R84). -/
structure Pin where
  id       : Nat
  maySleep : Bool
  deriving DecidableEq, Repr

/-- The pre-registered zero-copy buffer (R29): the address a request names it by, and its bus address where available.
DESIGN CHOICE (log 3): both are `AW` bits in R29 and naturals without a bound here, as D5 admits for an address. -/
structure DmaBuffer where
  cpuAddr : Nat
  busAddr : Option Nat
  deriving DecidableEq, Repr

/-- The write-skip optimisation flag (R31). -/
inductive SkipOpt where
  | enabled
  | disabled
  deriving DecidableEq, Repr

/-- The byte order of a 16-bit word in a request buffer, parameter `WORD_ORDER` (R49). -/
inductive WordOrder where
  | littleEndian
  | bigEndian
  deriving DecidableEq, Repr

/-- `SPI_MODE` (R7, R104): the level at which `SCLK` idles, `CPOL`, and whether data is sampled on the edge that
returns to it, `CPHA`. Mode 0 is both off. PRESUMED (log 16): that the two bits mean this. -/
structure SpiMode where
  cpol : Bool
  cpha : Bool
  deriving DecidableEq, Repr

/-- `SPI_BIT_ORDER` (R7, R52, R104). -/
inductive BitOrder where
  | msbFirst
  | lsbFirst
  deriving DecidableEq, Repr

/-- The configuration record of one instance, immutable (R22): the ten fields of R22, then the other parameters of R7,
which "a model takes ... as a field of its configuration". `W`, `SKIP_OPT`, `SETTLE_DELAY` and `SCRATCH_CAP` of R7 are
`dataLines`, `skipOpt`, `settleDelay` and `scratchBuffer`. A parameter to which R7 gives one value has it as its default;
what the block does at another value is the model's (DESIGN CHOICE, log 41). -/
structure Cfg where
  /-- R23: the active-low chip-select, or none. -/
  chipSelectLine   : Option Pin
  /-- R24: line `i` carries bit `i` of a word; the length is the parameter `W`. -/
  dataLines        : List Pin
  /-- R25. -/
  writeStrobeLine  : Option Pin
  /-- R26. -/
  readStrobeLine   : Option Pin
  /-- R27: `some 0x00` is distinct from `none`. -/
  startByte        : Option Byte
  /-- R28: the capacity `SCRATCH_CAP` of the scratch buffer where there is one. -/
  scratchBuffer    : Option Nat
  /-- R29. -/
  dmaCapableBuffer : Option DmaBuffer
  /-- R30: an opaque handle. -/
  busHandle        : Option Nat
  /-- R31. -/
  skipOpt          : SkipOpt
  /-- R32: the settle delay of a GPIO read, in time units. -/
  settleDelay      : Nat
  /-- `AW`: the width in bits of an address and of a length (R7, D5). -/
  aw               : Nat
  /-- `WORD_ORDER` (R49, D6). -/
  wordOrder        : WordOrder
  /-- `PRECHECK_BEFORE_CS` (R95, D8). -/
  precheckBeforeCs : Bool
  /-- `SPI_WRITE_HZ`, the bus default rate (R105, D11). -/
  spiWriteHz       : Nat
  /-- The unit of the settle delay in microseconds (R132, D31); nothing the block does depends on it. -/
  settleUnitMicros : Nat
  /-- `PREV_RESET`: the value of `PREV` after reset (R19). -/
  prevReset        : Word := 0
  /-- `STAGE_SIZE`: the staging buffer of a start-byte SPI read, in bytes (R35, R110). -/
  stageSize        : Nat := 32
  /-- `START_OR`: the constant OR-ed into the start byte (R110). -/
  startOr          : Byte := 0x03
  /-- `SPI_READ_HZ`: the clock rate of every SPI read (R106). -/
  spiReadHz        : Nat := 2000000
  /-- `GROUP_WORDS`: 16-bit words of a 9-bit packing group (R113). -/
  groupWords       : Nat := 8
  /-- `GROUP_BYTES`: output bytes of a packing group (R116). -/
  groupBytes       : Nat := 9
  /-- `STATUS_W`: the width in bits of the signed status code (R101, D14). -/
  statusW          : Nat := 32
  /-- `SPI_MODE`: mode 0 (R104, D10). -/
  spiMode          : SpiMode := ⟨false, false⟩
  /-- `SPI_BIT_ORDER`: most significant bit first (R52, R104). -/
  spiBitOrder      : BitOrder := .msbFirst
  /-- `SPI_WORD_BITS`: the SPI bits of a byte (R76, R104). -/
  spiWordBits      : Nat := 8
  deriving DecidableEq, Repr

namespace Config

/-- The default of `AW` (R7). -/
def defaultAw : Nat := 32

/-- DESIGN CHOICE (log 4): the configuration of the reset state, the defaults of 95_test_vectors.md: chip-select,
strobes and eight data lines on distinct pins that never sleep, write-skip enabled, bus handle present, no start byte,
no dma buffer; a scratch buffer of 90 bytes, the largest output the spec's vectors name. The parameters to which R7 gives
one value have it. -/
def default : Cfg where
  chipSelectLine   := some ⟨0, false⟩
  dataLines        := (List.range 8).map fun i => ⟨3 + i, false⟩
  writeStrobeLine  := some ⟨1, false⟩
  readStrobeLine   := some ⟨2, false⟩
  startByte        := none
  scratchBuffer    := some 90
  dmaCapableBuffer := none
  busHandle        := some 0
  skipOpt          := .enabled
  settleDelay      := 1
  aw               := defaultAw
  wordOrder        := .littleEndian
  precheckBeforeCs := true
  spiWriteHz       := 1000000
  settleUnitMicros := 1000

/-! ### Free values

Each has no body, so nothing in Lean can evaluate it. The first argument is the draw's number, the field `draws` of the
state, so that every draw is fresh (log 12). -/

/-- The level the environment answers to a pin read (R86, U18). -/
opaque freeLevel : Nat → Bool

/-- The raw status of an SPI transfer (R100, U18, U22), before the bound of R101 is put on it. -/
opaque freeStatus : Nat → BitVec 32

/-- Byte `i` received by an SPI transfer (R100, U18). -/
opaque freeRxByte : Nat → Nat → Byte

/-- How many bytes a failed transfer moved (R102, U16), before the bound `len` is put on it. -/
opaque freeShifted : Nat → Nat

/-- The data-out level at pulse `k` of a receive-only transfer (R103, U13). -/
opaque freeMosi : Nat → Nat → Bool

/-- Byte `i` of the request buffer after a failed receiving transfer (R102, U16). -/
opaque freeBufferByte : Nat → Nat → Byte

end Config

end Sys2Proof
end

