-- ==== Sys2Proof/Syntax.lean ====
section
/-! DEFINITION. The command set (R67): one constructor per row of the opcode table. -/

namespace Sys2Proof

/-- The eight transport commands (R67, R70). Every command carries both operands of its descriptor (R68): the byte address
`addr` of the request buffer and its length `len` in bytes. `AW` is an open parameter, so the operands are naturals and
`Instr.wellFormed` bounds them (D5, log 3). -/
inductive Instr where
  /-- `OP` 0x00, R109. -/
  | writeSpi (addr len : Nat)
  /-- `OP` 0x01, R110. -/
  | readSpi (addr len : Nat)
  /-- `OP` 0x02, R117. -/
  | writeSpiEmulate9 (addr len : Nat)
  /-- `OP` 0x03, R128. -/
  | writeGpio8Wr (addr len : Nat)
  /-- `OP` 0x04, R129. -/
  | writeGpio16Wr (addr len : Nat)
  /-- `OP` 0x05, R130. -/
  | writeGpio16WrLatched (addr len : Nat)
  /-- `OP` 0x06, R136. -/
  | readGpio8 (addr len : Nat)
  /-- `OP` 0x07, R137. -/
  | readGpio16 (addr len : Nat)
  deriving DecidableEq, Repr

/-- The operand `ADDR`. -/
def Instr.addr : Instr → Nat
  | .writeSpi a _ => a
  | .readSpi a _ => a
  | .writeSpiEmulate9 a _ => a
  | .writeGpio8Wr a _ => a
  | .writeGpio16Wr a _ => a
  | .writeGpio16WrLatched a _ => a
  | .readGpio8 a _ => a
  | .readGpio16 a _ => a

/-- The operand `LEN`. -/
def Instr.len : Instr → Nat
  | .writeSpi _ n => n
  | .readSpi _ n => n
  | .writeSpiEmulate9 _ n => n
  | .writeGpio8Wr _ n => n
  | .writeGpio16Wr _ n => n
  | .writeGpio16WrLatched _ n => n
  | .readGpio8 _ n => n
  | .readGpio16 _ n => n

end Sys2Proof
end

