-- ==== Sys2Proof/WellFormed.lean ====
section
/-! DEFINITION. Which terms of `Instr` are commands: the operands fit the descriptor's words (R68). -/

namespace Sys2Proof

/-- Words 1 and 2 of a descriptor are `AW` bits each (R68), so `ADDR` and `LEN` are below `2^AW`. There is no other
constraint on a command as syntax (R71); alignment, length and width rules belong to the meanings. -/
def Instr.wellFormed (aw : Nat) (i : Instr) : Bool :=
  decide (i.addr < 2 ^ aw) && decide (i.len < 2 ^ aw)

end Sys2Proof
end

