-- ==== Sys2Proof/Decode.lean ====
section
/-! DEFINITION. Descriptors (R68), the decoder (R70, R71) and, after it, the encoder. -/

namespace Sys2Proof

/-- A command descriptor, format `CMD` (R68): word 0 is 32 bits, words 1 and 2 are `AW` bits each. -/
structure Descriptor where
  word0 : BitVec 32
  addr  : Nat
  len   : Nat
  deriving DecidableEq, Repr

/-- Why a descriptor is no command. -/
inductive DecodeError where
  /-- `RSV` is not 0 or `OP` is above 0x07 (R71): answered by R73. -/
  | reserved
  /-- An operand does not fit its `AW`-bit word, so this is no descriptor of R68 (log 38). -/
  | operandTooWide
  deriving DecidableEq, Repr

/-- The field `RSV`, word 0 bits 31 to 8 (R68). -/
def Descriptor.rsv (d : Descriptor) : BitVec 24 := d.word0.extractLsb' 8 24

/-- The field `OP`, word 0 bits 7 to 0 (R68). -/
def Descriptor.op (d : Descriptor) : BitVec 8 := d.word0.extractLsb' 0 8

/-- The command R70 assigns to an opcode; `none` for the reserved ones. -/
def commandOf (op : BitVec 8) (addr len : Nat) : Option Instr :=
  match op.toNat with
  | 0 => some (.writeSpi addr len)
  | 1 => some (.readSpi addr len)
  | 2 => some (.writeSpiEmulate9 addr len)
  | 3 => some (.writeGpio8Wr addr len)
  | 4 => some (.writeGpio16Wr addr len)
  | 5 => some (.writeGpio16WrLatched addr len)
  | 6 => some (.readGpio8 addr len)
  | 7 => some (.readGpio16 addr len)
  | _ => none

/-- Decoding (R71), total: reserved descriptors are rejected first, whatever their operands. -/
def decode (aw : Nat) (d : Descriptor) : Except DecodeError Instr :=
  if d.rsv ≠ 0 then .error .reserved
  else match commandOf d.op d.addr d.len with
    | none => .error .reserved
    | some i => if i.wellFormed aw then .ok i else .error .operandTooWide

/-- A descriptor read from one number, word 0 lowest, then `ADDR`, then `LEN` (log 3): total on any number. -/
def Descriptor.ofBits (aw n : Nat) : Descriptor where
  word0 := BitVec.ofNat 32 n
  addr  := n / 2 ^ 32 % 2 ^ aw
  len   := n / 2 ^ (32 + aw) % 2 ^ aw

/-- The decoder on one number. -/
def decodeBits (aw n : Nat) : Except DecodeError Instr := decode aw (Descriptor.ofBits aw n)

/-- What the decoder reads from the `nbits` low bits `w` of a descriptor whose further bits are 0, at the default `AW`. -/
def decodeTableWord (nbits w : Nat) : Option Instr :=
  match decodeBits Config.defaultAw (w % 2 ^ nbits) with
  | .ok i => some i
  | .error _ => none

/-! ### The encoder -/

/-- The opcode assignment of R70. -/
def Instr.opcode : Instr → BitVec 8
  | .writeSpi _ _ => 0x00
  | .readSpi _ _ => 0x01
  | .writeSpiEmulate9 _ _ => 0x02
  | .writeGpio8Wr _ _ => 0x03
  | .writeGpio16Wr _ _ => 0x04
  | .writeGpio16WrLatched _ _ => 0x05
  | .readGpio8 _ _ => 0x06
  | .readGpio16 _ _ => 0x07

/-- The descriptor of a command (R68): `RSV` is 0. -/
def encode (i : Instr) : Descriptor where
  word0 := i.opcode.setWidth 32
  addr  := i.addr
  len   := i.len

/-- A descriptor as one number, laid out as `Descriptor.ofBits` reads it. -/
def Descriptor.toBits (aw : Nat) (d : Descriptor) : Nat :=
  d.word0.toNat + 2 ^ 32 * (d.addr + 2 ^ aw * d.len)

/-- The words of a command as one number. -/
def encodeBits (aw : Nat) (i : Instr) : Nat := (encode i).toBits aw

end Sys2Proof
end

