-- ==== Sys2Proof/Machine/State.lean ====
section
/-! DEFINITION. The state of one block instance with its host and environment (R9, R17), the reasons a step stops, and the
state after reset (R44). -/

namespace Sys2Proof.Machine

/-- The two pin access primitives (R81). -/
inductive Path where
  | fast
  | sleep
  deriving DecidableEq, Repr

/-- The descriptor of one SPI transfer, the source's `transferSpec` (R100). -/
structure SpiSpec where
  len       : Nat
  tx        : Option (List Byte)
  rxWanted  : Bool
  hz        : Option Nat
  premapped : Bool
  txBusAddr : Option Nat
  deriving DecidableEq, Repr

/-- The bus events (R10). -/
inductive Event where
  /-- `PW(pin, level, path)`, one pin write (R85). -/
  | pw (pin : Nat) (level : Bool) (path : Path)
  /-- `PR(pin, level, path)`, one pin read and the level answered (R86). -/
  | pr (pin : Nat) (level : Bool) (path : Path)
  /-- `DLY(n)`, one settle delay (R132). -/
  | dly (n : Nat)
  /-- `SPI(spec, status, rx)`, one synchronous transfer (R100). -/
  | spi (spec : SpiSpec) (status : BitVec 32) (rx : Option (List Byte))
  deriving DecidableEq, Repr

/-- One clock pulse of the serial wire (R104): `SCLK` leaves its idle level and comes back once, rising and then falling
in mode 0; `mosi` is the data-out level at the mode's sampling edge, `miso` the level sampled there when received bytes
are wanted, `hz` the nominal rate (R105). -/
structure WirePulse where
  hz   : Nat
  mode : SpiMode
  mosi : Bool
  miso : Option Bool
  deriving DecidableEq, Repr

/-- The five error kinds (R138); a failed transfer records its status, unchanged (R139). -/
inductive IoError where
  | deviceUnavailable
  | invalidArgument
  | missingScratchBuffer
  | notImplemented
  | hardwareTransferFailed (status : BitVec 32)
  deriving DecidableEq, Repr

/-- The response of a command (R10, R69). -/
inductive Response where
  | ok
  | err (e : IoError)
  deriving DecidableEq, Repr

/-- An answer of the environment to one SPI transfer, fixed in advance (R100, log 11): a status of `STATUS_W` bits, and
bytes. Bytes of `rx` past the transfer's
length are not used; bytes it lacks are free values. -/
structure SpiAnswer where
  status : BitVec 32
  rx     : List Byte
  deriving DecidableEq, Repr

/-- A range of host addresses: `size` bytes from `base`. -/
structure Region where
  base : Nat
  size : Nat
  deriving DecidableEq, Repr

/-- The sequencer (R41). -/
inductive Seq where
  | idle
  | busy
  deriving DecidableEq, Repr

/-- Everything the spec gives the machine (INVENTORY.md, State). -/
structure State where
  /-- `CFG` (R22). -/
  cfg         : Cfg
  /-- `PREV` (R19); on the 8-bit bus its upper eight bits are 0 (log 32). -/
  prev        : Word
  /-- `LATCH` (R37): the pins at level 1, in the canonical form of `Cells`; an unlisted pin is at level 0. -/
  latch       : List (Nat × Bool)
  /-- `SCRATCH` (R36): `SCRATCH_CAP` bytes, none where there is no scratch buffer. -/
  scratch     : List Byte
  /-- `SEQ` (R41). -/
  seq         : Seq
  /-- `OP` (R18). -/
  op          : BitVec 8
  /-- `ADDR` (R18). -/
  addr        : Nat
  /-- `LEN` (R18). -/
  len         : Nat
  /-- `ACC` (R34). -/
  acc         : BitVec 64
  /-- `STAGE` (R35). -/
  stage       : List Byte
  /-- Host memory (R43), in the canonical form of `Cells`; an unlisted address reads 0 (log 8). -/
  mem         : List Host.Cell
  /-- The addresses that are not memory the host owns (R47). -/
  foreign     : List Region
  /-- Whether the host's calling context allows suspension (R88). -/
  maySuspend  : Bool
  /-- The descriptors the host will issue, next first (R68, R150). -/
  queue       : List Descriptor
  /-- The levels the environment will answer to pin reads, as far as they are fixed in advance (R86, log 11). -/
  pinAnswers  : List Bool
  /-- The answers the environment will give to SPI transfers, as far as they are fixed in advance (R100, log 11). -/
  spiAnswers  : List SpiAnswer
  /-- How many draws have been made: the number of the next free value (log 12). -/
  draws       : Nat
  /-- The bus events since reset, oldest first (R10). -/
  trace       : List Event
  /-- The SPI clock pulses since reset, oldest first (R104). -/
  wire        : List WirePulse
  /-- The responses since reset, oldest first (R10). -/
  responses   : List Response
  deriving DecidableEq, Repr

/-- The faults: the machine stops. -/
inductive Fault where
  /-- The environment answered an SPI transfer with a positive status, to which the source gives no meaning; "a model whose
  oracle can answer a positive status must treat that answer as a fault" (R101, U8). Raised by `spiXfer`, so by `writeSpi`,
  `readSpi` and `writeSpiEmulate9`. Safe: the model stops. -/
  | positiveSpiStatus (status : BitVec 32)
  deriving DecidableEq, Repr

/-- The refusals: situations the spec gives no meaning (`refuse`, R14). All are safe: the model has no step for them. -/
inductive Refusal where
  /-- An instruction whose meaning is not written yet; raised by `exec` alone, and by none of its arms now. Safe. -/
  | notModelled (mnemonic : String)
  /-- An issue while `SEQ = Busy` (R41, U7); raised by every command. Safe. -/
  | issueWhileBusy
  /-- `dataLines` has a length other than 8, 16 or 0 (R24, U10); raised by every command but the always-failing ones. Safe. -/
  | dataLineCount
  /-- Two fields of the configuration name one line (R33, U9); raised by every command but the always-failing ones. Safe. -/
  | pinsNotDistinct
  /-- A call from a context that forbids suspension when a used pin is sleep-capable (R88, U12); raised by every command
  but the always-failing ones. Safe. -/
  | suspensionForbidden
  /-- A GPIO command on an instance of another bus width (R127, R135, U2). Safe. -/
  | busWidthMismatch
  /-- A GPIO command whose strobe line is absent (R127, R135, U2). Safe. -/
  | strobeAbsent
  /-- An odd `LEN` on a 16-bit GPIO command (R56, U3). Safe. -/
  | oddLength
  /-- `LEN mod 16 = 8` on `writeSpiEmulate9` (R118, U4). Safe. -/
  | partialGroup
  /-- The packed output exceeds the scratch buffer (R119, U5); raised by `writeSpiEmulate9`. Safe. -/
  | scratchTooSmall
  /-- The request range wraps the address space (R47, U6); raised by every command that would touch the buffer. Safe. -/
  | requestWraps
  /-- The request range is not memory the host owns (R47, U6); raised by every command that would touch the buffer. Safe. -/
  | bufferNotOwned
  /-- What the host issued is no descriptor of R68: an operand exceeds `AW` bits (log 38); raised by `step`. Safe. -/
  | operandTooWide
  deriving DecidableEq, Repr

/-- The state after reset (R44, R153): `PREV` is 0 and `SEQ` is Idle, as the spec says; no event, no response. Every other
value is the model's, named in the log: the configuration (log 4), the pin levels (log 5), `SCRATCH`, `ACC` and `STAGE`
(log 6), the operand registers (log 7), memory (log 8), the host's side (log 2, 9, 10), the environment's (log 11, 12). -/
def State.reset : State where
  cfg         := Config.default
  prev        := Config.default.prevReset
  latch       := [(0, true), (1, true), (2, true)]
  scratch     := List.replicate 90 0
  seq         := .idle
  op          := 0
  addr        := 0
  len         := 0
  acc         := 0
  stage       := List.replicate Config.default.stageSize 0
  mem         := []
  foreign     := []
  maySuspend  := true
  queue       := []
  pinAnswers  := []
  spiAnswers  := []
  draws       := 0
  trace       := []
  wire        := []
  responses   := []

end Sys2Proof.Machine
end

