-- ==== Sys2Proof/Machine/Cells.lean ====
section
/-! DEFINITION. Sparse cells in one canonical form: the shape of host memory (R43) and of the pin latches (R37). -/

namespace Sys2Proof.Machine

/-- What the cells hold at key `a`: the value listed, or `d` where none is. -/
def Cells.read {α : Type} (d : α) : List (Nat × α) → Nat → α
  | [], _ => d
  | (k, x) :: m, a => if k = a then x else Cells.read d m a

/-- Put an entry before the first larger key. -/
def Cells.insert {α : Type} (a : Nat) (v : α) : List (Nat × α) → List (Nat × α)
  | [] => [(a, v)]
  | (k, x) :: m => if a < k then (a, v) :: (k, x) :: m else (k, x) :: Cells.insert a v m

/-- Store `v` at key `a`: the old entry goes, and a new one comes only where `v` is not what an unlisted key holds. -/
def Cells.write {α : Type} [DecidableEq α] (d : α) (m : List (Nat × α)) (a : Nat) (v : α) : List (Nat × α) :=
  let rest := m.filter fun c => decide (c.1 ≠ a)
  if v = d then rest else Cells.insert a v rest

/-- The canonical form: keys strictly rising, no entry equal to what an unlisted key holds. -/
abbrev Cells.wf {α : Type} (d : α) (m : List (Nat × α)) : Prop :=
  m.Pairwise (fun c c' => c.1 < c'.1) ∧ ∀ c ∈ m, c.2 ≠ d

/-- DESIGN CHOICE (log 8): what a byte of host memory that nothing has written reads as; the spec does not say. -/
def Memory.unlisted : Byte := 0

/-- The canonical form of host memory. -/
abbrev Memory.wf (m : List Host.Cell) : Prop := Cells.wf Memory.unlisted m

/-- The canonical form of the latches: an unlisted pin is at level 0. -/
abbrev Latch.wf (l : List (Nat × Bool)) : Prop := Cells.wf false l

end Sys2Proof.Machine
end

