-- ==== Sys2Proof/Machine/Flags.lean ====
section
/-! DEFINITION. The block has no flags and no condition codes (R42): the outcome of a command is its response. What stands
here in their place: the status code's meaning (R101) and the response words (R69, R139). -/

namespace Sys2Proof.Machine

/-- The bound of R101 put on a status the environment draws freely: `-|v|`, which is `v` for every `v ≤ 0` and takes
every such value. -/
def nonPositive (v : BitVec 32) : BitVec 32 := if (0#32).slt v then -v else v

/-- A status code "translated to a Result" (R101), for a status that is not positive. -/
def resultOfStatus (status : BitVec 32) : Response :=
  if status = 0 then .ok else .err (.hardwareTransferFailed status)

/-- The field `CODE` of the response (R69, R139). -/
def Response.code : Response → BitVec 3
  | .ok => 0
  | .err .deviceUnavailable => 1
  | .err .invalidArgument => 2
  | .err .missingScratchBuffer => 3
  | .err .notImplemented => 4
  | .err (.hardwareTransferFailed _) => 5

/-- The field `STATUS` of the response: the status when `CODE` is 5, 0 otherwise (R69). -/
def Response.status : Response → BitVec 32
  | .err (.hardwareTransferFailed st) => st
  | _ => 0

/-- Word 0 of the response, format `RSP` (R69): `RSV` is 0. -/
def Response.word0 (r : Response) : BitVec 32 := r.code.setWidth 32

/-- Word 1 of the response, format `RSP` (R69). -/
def Response.word1 (r : Response) : BitVec 32 := r.status

end Sys2Proof.Machine
end

