-- ==== Sys2Proof/Machine/Ops.lean ====
section
/-! DEFINITION. The named operations every command is written in: issue, response and error (R41, R140), host memory (R13),
pins (R85, R86), the settle delay (R132), the chip-select guard (R89) and the SPI transfer (R100). -/

namespace Sys2Proof.Machine

/-! ### Issue, response, error -/

/-- The descriptor the host issues next, and the state once it has been taken (R150). -/
def nextIssue (s : State) : Option (Descriptor × State) :=
  match s.queue with
  | [] => none
  | d :: rest => some (d, { s with queue := rest })

/-- Issue (R18, R41): the operand registers are loaded and the sequencer becomes Busy. -/
def issue (op : BitVec 8) (addr len : Nat) (s : State) : State :=
  { s with op := op, addr := addr, len := len, seq := .busy }

/-- Production of the response (R41): the host gets it and the sequencer becomes Idle. -/
def respond (r : Response) (s : State) : State :=
  { s with responses := s.responses ++ [r], seq := .idle }

/-- `raise E(info)` outside every guard (R140): the response is the error; nothing else changes (R144, R145). -/
def raise (e : IoError) (s : State) : State := respond (.err e) s

/-! ### Host memory -/

/-- The byte of host memory at `a`; it cannot fault (R13, R47). -/
def memByte (s : State) (a : Nat) : Byte := Cells.read Memory.unlisted s.mem a

/-- `MemRead(addr, n)`: lowest address first (R13). A command reads its buffer at issue (R48, log 35). -/
def memRead (s : State) (addr n : Nat) : List Byte :=
  (List.range n).map fun i => memByte s (addr + i)

/-- A 16-bit word from the bytes at its lower and its higher address (R49). -/
def wordOfBytes (o : WordOrder) (lower higher : Byte) : Word :=
  match o with
  | .littleEndian => higher ++ lower
  | .bigEndian => lower ++ higher

/-- The bytes of a 16-bit word, the one at the lower address first (R49). -/
def bytesOfWord (o : WordOrder) (w : Word) : List Byte :=
  match o with
  | .littleEndian => [w.extractLsb' 0 8, w.extractLsb' 8 8]
  | .bigEndian => [w.extractLsb' 8 8, w.extractLsb' 0 8]

/-- `MemRead16(addr)` (R13, R49). -/
def memRead16 (s : State) (addr : Nat) : Word :=
  wordOfBytes s.cfg.wordOrder (memByte s addr) (memByte s (addr + 1))

/-- `MemRead16` of the `n` words from `addr` on, word 0 first (R49, R53). -/
def memReadWords (s : State) (addr n : Nat) : List Word :=
  (List.range n).map fun k => memRead16 s (addr + 2 * k)

/-- Cells with the bytes of a list stored from `addr` on. -/
def storeCells (m : List Host.Cell) : Nat → List Byte → List Host.Cell
  | _, [] => m
  | addr, b :: bs => storeCells (Cells.write Memory.unlisted m addr b) (addr + 1) bs

/-- `MemWrite(addr, n, v)`: lowest address first (R13). -/
def memWrite (addr : Nat) (bytes : List Byte) (s : State) : State :=
  { s with mem := storeCells s.mem addr bytes }

/-! ### Pin Control -/

/-- Path selection, the same for read and write (R82). -/
def pinPath (p : Pin) : Path := if p.maySleep then .sleep else .fast

/-- `PinWrite(p, b)` (R85): one event, whether or not the level changes, and the latch. -/
def pinWrite (p : Pin) (b : Bool) (s : State) : State :=
  { s with
    trace := s.trace ++ [.pw p.id b (pinPath p)]
    latch := Cells.write false s.latch p.id b }

/-- The level of the `k`-th pin read from now on (R86): the environment's answer, free where none is fixed. -/
def levelAt (s : State) (k : Nat) : Bool :=
  match s.pinAnswers[k]? with
  | some b => b
  | none => Config.freeLevel (s.draws + k)

/-- `PinRead(p)` (R86): the level comes from the environment and the latches stay. -/
def pinRead (p : Pin) (s : State) : Bool × State :=
  (levelAt s 0,
    { s with
      trace := s.trace ++ [.pr p.id (levelAt s 0) (pinPath p)]
      pinAnswers := s.pinAnswers.tail
      draws := s.draws + 1 })

/-- `Delay(n)` (R132): an event and no time (log 36). -/
def delay (n : Nat) (s : State) : State := { s with trace := s.trace ++ [.dly n] }

/-! ### The chip-select guard -/

/-- `withChipSelect { body }` (R89): the body's result is unchanged, and chip-select is deasserted whatever it is. A body
that faults stops the machine. -/
def withChipSelect (body : State → Except Fault (Response × State)) (s : State) :
    Except Fault (Response × State) :=
  match s.cfg.chipSelectLine with
  | none => body s
  | some cs =>
    match body (pinWrite cs false s) with
    | .ok (r, s') => .ok (r, pinWrite cs true s')
    | .error f => .error f

/-- The end of a command: its result is the response (R41). -/
def finish : Except Fault (Response × State) → Host.Outcome State Fault Refusal
  | .ok (r, s) => .next (respond r s)
  | .error f => .fault f

/-- A failing precondition check (R95): no event at all when `PRECHECK_BEFORE_CS`, and the chip-select pair around an
empty body otherwise (log 18). -/
def precheckFails (e : IoError) (s : State) : Host.Outcome State Fault Refusal :=
  if s.cfg.precheckBeforeCs then .next (raise e s)
  else finish (withChipSelect (fun t => .ok (.err e, t)) s)

/-! ### The SPI transfer -/

/-- A status code as the environment answers it: signed, of `STATUS_W` bits (R100, R101), in the 32 bits of R69. -/
def statusOf (cfg : Cfg) (v : BitVec 32) : BitVec 32 := (v.setWidth cfg.statusW).signExtend 32

/-- The positive status the environment has fixed for the next transfer, if it has (R101, U8). -/
def positiveStatus (s : State) : Option (BitVec 32) :=
  match s.spiAnswers with
  | [] => none
  | a :: _ => if (0#32).slt (statusOf s.cfg a.status) then some (statusOf s.cfg a.status) else none

/-- The status the environment answers to the next transfer (R100, R101), free where none is fixed (log 11, 12). -/
def nextStatus (s : State) : BitVec 32 :=
  match s.spiAnswers with
  | [] => nonPositive (statusOf s.cfg (Config.freeStatus s.draws))
  | a :: _ => statusOf s.cfg a.status

/-- Byte `i` the environment sends during the next transfer (R100), free where none is fixed. -/
def rxByte (s : State) (i : Nat) : Byte :=
  match s.spiAnswers.head?.bind fun a => a.rx[i]? with
  | some b => b
  | none => Config.freeRxByte s.draws i

/-- The bytes the environment sends during the next transfer: exactly `len` of them (R100). -/
def nextRx (s : State) (len : Nat) : List Byte := (List.range len).map (rxByte s)

/-- How many bytes the next transfer shifts: all of them on success, any number from 0 to `len` after a failure (R100,
R102, log 14). -/
def nextShifted (s : State) (len : Nat) : Nat :=
  if nextStatus s = 0 then len else Config.freeShifted s.draws % (len + 1)

/-- The clock rate of a transfer (R105). -/
def clockRate (cfg : Cfg) (spec : SpiSpec) : Nat := spec.hz.getD cfg.spiWriteHz

/-- The bit of its byte that pulse `k` of a transfer carries (R104): the most significant first, or last. -/
def wireBit (cfg : Cfg) (k : Nat) : Nat :=
  match cfg.spiBitOrder with
  | .msbFirst => cfg.spiWordBits - 1 - k % cfg.spiWordBits
  | .lsbFirst => k % cfg.spiWordBits

/-- Pulse `k` of a transfer (R104): one bit of byte `k / SPI_WORD_BITS`, sent where there is transmit data (free where
there is none, U13, log 15) and sampled where received bytes are wanted. The mode is log 16. -/
def wirePulse (cfg : Cfg) (spec : SpiSpec) (rx : List Byte) (draw k : Nat) : WirePulse where
  hz := clockRate cfg spec
  mode := cfg.spiMode
  mosi := match spec.tx with
    | some tx => (tx.getD (k / cfg.spiWordBits) 0).getLsbD (wireBit cfg k)
    | none => Config.freeMosi draw k
  miso := if spec.rxWanted then some ((rx.getD (k / cfg.spiWordBits) 0).getLsbD (wireBit cfg k)) else none

/-- The pulses of the bytes a transfer shifts: `SPI_WORD_BITS` for each (R104). -/
def wirePulses (cfg : Cfg) (spec : SpiSpec) (rx : List Byte) (draw shifted : Nat) : List WirePulse :=
  (List.range (cfg.spiWordBits * shifted)).map (wirePulse cfg spec rx draw)

/-- The transfer's event, for the answers the environment gives next (R100). -/
def spiEvent (spec : SpiSpec) (s : State) : Event :=
  .spi spec (nextStatus s) (if spec.rxWanted then some (nextRx s spec.len) else none)

/-- The state once the transfer has been awaited (R100, R104): its event, its pulses, one draw. -/
def afterXfer (spec : SpiSpec) (s : State) : State :=
  { s with
    trace := s.trace ++ [spiEvent spec s]
    wire := s.wire ++ wirePulses s.cfg spec (nextRx s spec.len) s.draws (nextShifted s spec.len)
    spiAnswers := s.spiAnswers.tail
    draws := s.draws + 1 }

/-- `SpiXfer(spec)` (R100): the state after it; `nextStatus` and `nextRx` of the state before it are its answers. A
positive status is a fault (R101, U8, log 13). -/
def spiXfer (spec : SpiSpec) (s : State) : Except Fault State :=
  match positiveStatus s with
  | some st => .error (.positiveSpiStatus st)
  | none => .ok (afterXfer spec s)

/-- The bytes a model draws for the request buffer after a failed receiving transfer (R102, log 14). -/
def drawnBytes (draw len : Nat) : List Byte := (List.range len).map (Config.freeBufferByte draw)

end Sys2Proof.Machine
end

