-- ==== Sys2Proof/Machine/Operands.lean ====
section
/-! DEFINITION. Admission of a command: the situations to which the spec gives no meaning (`refuse`, R14), checked before
anything is done, and the operand assembly of R72. -/

namespace Sys2Proof.Machine

/-- Every pin the configuration names (R33, R37). -/
def configPins (c : Cfg) : List Pin :=
  c.chipSelectLine.toList ++ c.writeStrobeLine.toList ++ c.readStrobeLine.toList ++ c.dataLines

/-- R24: 8 or 16 data lines, or none on an instance used only for SPI. -/
def lineCountOk (c : Cfg) : Bool :=
  c.dataLines.length == 8 || c.dataLines.length == 16 || c.dataLines.length == 0

/-- R33: the pins a configuration names are pairwise distinct lines. -/
def pinsDistinct (c : Cfg) : Bool := decide ((configPins c).map Pin.id).Nodup

/-- The calling context admits the pins a command may use (R88, U12). -/
def contextAdmits (used : List Pin) (s : State) : Bool := s.maySuspend || !used.any (·.maySleep)

/-- Why a command that may use the pins `used` is not admitted on this instance at this moment (R24, R33, R41, R88; the
order of these checks is log 27). -/
def admission (used : List Pin) (s : State) : Option Refusal :=
  if s.seq = .busy then some .issueWhileBusy
  else if !lineCountOk s.cfg then some .dataLineCount
  else if !pinsDistinct s.cfg then some .pinsNotDistinct
  else if !contextAdmits used s then some .suspensionForbidden
  else none

/-- The pins an SPI command may use: chip-select, through the guard (R88). -/
def spiPins (s : State) : List Pin := s.cfg.chipSelectLine.toList

/-- A GPIO transport is not called from a context that forbids suspension "if any configured pin is sleep-capable" (R88). -/
def gpioPins (s : State) : List Pin := configPins s.cfg

/-- The request `[addr, addr + len)` and a region have an address in common. -/
def Region.meets (r : Region) (addr len : Nat) : Bool :=
  decide (0 < len) && decide (0 < r.size) && decide (addr < r.base + r.size) && decide (r.base < addr + len)

/-- Why a request has no meaning (R47, U6): it wraps, or it is not memory the host owns. -/
def requestRefusal (addr len : Nat) (s : State) : Option Refusal :=
  if 2 ^ s.cfg.aw < addr + len then some .requestWraps
  else if s.foreign.any fun r => Region.meets r addr len then some .bufferNotOwned
  else none

/-! ### Operand assembly (R72) -/

/-- The bytes of a 9-bit packing group in the request: `GROUP_WORDS` words of two bytes (R113). -/
def groupSpan (c : Cfg) : Nat := 2 * c.groupWords

/-- The number `G` of 9-bit packing groups of a request (R113). -/
def groupCount (c : Cfg) (len : Nat) : Nat := len / groupSpan c

/-- The output length of the 9-bit emulation (R116). -/
def outLen (c : Cfg) (len : Nat) : Nat := c.groupBytes * groupCount c len

/-- `flag(w)` of a 9-bit emulation input word (R112). -/
def wordFlag (w : Word) : BitVec 1 := w.extractLsb' 8 1

/-- `payload(w)` of a 9-bit emulation input word (R112). -/
def wordPayload (w : Word) : Byte := w.extractLsb' 0 8

/-- A byte as a word of the 8-bit bus. -/
def wordOfByte (b : Byte) : Word := b.setWidth 16

/-- A word of the 8-bit bus as a byte. -/
def byteOfWord (w : Word) : Byte := w.extractLsb' 0 8

end Sys2Proof.Machine
end

