-- ==== Sys2Proof/Machine/GpioWrite.lean ====
section
/-! DEFINITION. Parallel GPIO write controller (44_gpio_write.md): one bus cycle, `writeGpio8Wr`, `writeGpio16Wr` and
`writeGpio16WrLatched`. -/

namespace Sys2Proof.Machine

/-- The data-line writes of one word, from line index `i` upwards (R121, R123): the lines `touched` names. -/
def writeLines (w : Word) (touched : Nat → Bool) : Nat → List Pin → State → State
  | _, [], s => s
  | i, p :: ps, s =>
    writeLines w touched (i + 1) ps (if touched i then pinWrite p (w.getLsbD i) s else s)

/-- Step 2 of `writeWord` (R121): with the optimisation, nothing but the delay write to the strobe where the word repeats
(R122, log 26), else the lines whose bit differs from `PREV`; without it, every line. -/
def driveLines (wr : Pin) (w : Word) (s : State) : State :=
  match s.cfg.skipOpt with
  | .enabled =>
    if w = s.prev then pinWrite wr false s
    else writeLines w (fun i => w.getLsbD i != s.prev.getLsbD i) 0 s.cfg.dataLines s
  | .disabled => writeLines w (fun _ => true) 0 s.cfg.dataLines s

/-- `writeWord(w)` (R121): strobe low, data lines, strobe high, and `PREV` in both modes (R124, log 32). -/
def writeWord (wr : Pin) (s : State) (w : Word) : State :=
  { pinWrite wr true (driveLines wr w (pinWrite wr false s)) with prev := w }

/-- One bus cycle per word, in order (R53, R128). -/
def writeWords (wr : Pin) (ws : List Word) (s : State) : State := ws.foldl (writeWord wr) s

/-- Why a GPIO command of bus width `w` has no meaning on this instance or with this request (R127, R135, R56,
R47; log 23, 24, 27). -/
def gpioRefusal (w : Nat) (strobe : Option Pin) (addr len : Nat) (s : State) : Option Refusal :=
  if s.cfg.dataLines.length ≠ w then some .busWidthMismatch
  else if strobe.isNone then some .strobeAbsent
  else if len % (w / 8) ≠ 0 then some .oddLength
  else requestRefusal addr len s

/-- A GPIO write command (R128, R129) of bus width `w` and the words it sends: always `Ok`. -/
def gpioWrite (w : Nat) (op : BitVec 8) (addr len : Nat) (ws : List Word) (s : State) :
    Host.Outcome State Fault Refusal :=
  match admission (gpioPins s) s with
  | some r => .refused r
  | none =>
    match gpioRefusal w s.cfg.writeStrobeLine addr len s, s.cfg.writeStrobeLine with
    | none, some wr => finish (withChipSelect (fun t => .ok (.ok, writeWords wr ws t)) (issue op addr len s))
    | some r, _ => .refused r
    | none, none => .refused .strobeAbsent

/-- `writeGpio8Wr ADDR, LEN` (R128): one cycle per byte. -/
def execWriteGpio8Wr (addr len : Nat) (s : State) : Host.Outcome State Fault Refusal :=
  gpioWrite 8 0x03 addr len ((memRead s addr len).map wordOfByte) s

/-- `writeGpio16Wr ADDR, LEN` (R129): one cycle per 16-bit word. -/
def execWriteGpio16Wr (addr len : Nat) (s : State) : Host.Outcome State Fault Refusal :=
  gpioWrite 16 0x04 addr len (memReadWords s addr (len / 2)) s

/-- A command that always fails (R73, R130): it looks at no operand and no configuration field, touches no pin and is
admitted on every instance (D37); only the host's duty to wait for the response binds it (R41). -/
def alwaysFails (op : BitVec 8) (addr len : Nat) (s : State) : Host.Outcome State Fault Refusal :=
  if s.seq = .busy then .refused .issueWhileBusy
  else .next (raise .notImplemented (issue op addr len s))

/-- `writeGpio16WrLatched ADDR, LEN` (R130). -/
def execWriteGpio16WrLatched (addr len : Nat) (s : State) : Host.Outcome State Fault Refusal :=
  alwaysFails 0x05 addr len s

end Sys2Proof.Machine
end

