-- ==== Sys2Proof/Machine/GpioRead.lean ====
section
/-! DEFINITION. Parallel GPIO read controller (45_gpio_read.md): one bus cycle, `readGpio8` and `readGpio16`. -/

namespace Sys2Proof.Machine

/-- The samples of one word (R131), the first pin of the list first, shifted in at bit 0. -/
def sampleLines : List Pin → Word → State → Word × State
  | [], w, s => (w, s)
  | p :: ps, w, s =>
    sampleLines ps ((w <<< 1) ||| (BitVec.ofBool (pinRead p s).1).setWidth 16) (pinRead p s).2

/-- The samples of one word (R131): index `W-1` first, index 0 last. -/
def sampleWord (s : State) : Word × State := sampleLines s.cfg.dataLines.reverse 0 s

/-- `readWord()` (R131): strobe low, settle delay, samples, strobe high. -/
def readWord (rd : Pin) (s : State) : Word × State :=
  let r := sampleWord (delay s.cfg.settleDelay (pinWrite rd false s))
  (r.1, pinWrite rd true r.2)

/-- `n` read cycles, in order (R53, R136). -/
def readWords (rd : Pin) : Nat → State → List Word × State
  | 0, s => ([], s)
  | n + 1, s =>
    let r := readWord rd s
    let rest := readWords rd n r.2
    (r.1 :: rest.1, rest.2)

/-- The body of a GPIO read command (R136, R137): `n` words, stored as `toBytes` lays them out; the buffer is stored
whole at the end (R48). -/
def readBody (rd : Pin) (addr n : Nat) (toBytes : Word → List Byte) (s : State) : State :=
  let r := readWords rd n s
  memWrite addr (r.1.flatMap toBytes) r.2

/-- A GPIO read command (R136, R137) of bus width `w`: always `Ok`. -/
def gpioRead (w : Nat) (op : BitVec 8) (addr len : Nat) (toBytes : Word → List Byte) (s : State) :
    Host.Outcome State Fault Refusal :=
  match admission (gpioPins s) s with
  | some r => .refused r
  | none =>
    match gpioRefusal w s.cfg.readStrobeLine addr len s, s.cfg.readStrobeLine with
    | none, some rd =>
      finish (withChipSelect (fun t => .ok (.ok, readBody rd addr (len / (w / 8)) toBytes t)) (issue op addr len s))
    | some r, _ => .refused r
    | none, none => .refused .strobeAbsent

/-- `readGpio8 ADDR, LEN` (R136): one cycle per byte. -/
def execReadGpio8 (addr len : Nat) (s : State) : Host.Outcome State Fault Refusal :=
  gpioRead 8 0x06 addr len (fun w => [byteOfWord w]) s

/-- `readGpio16 ADDR, LEN` (R137): one cycle per 16-bit word. -/
def execReadGpio16 (addr len : Nat) (s : State) : Host.Outcome State Fault Refusal :=
  gpioRead 16 0x07 addr len (bytesOfWord s.cfg.wordOrder) s

end Sys2Proof.Machine
end

