-- ==== Sys2Proof/Machine/Spi.lean ====
section
/-! DEFINITION. SPI Transport (42_spi_transport.md): the shared write step, `writeSpi` and `readSpi`. -/

namespace Sys2Proof.Machine

/-- The zero-copy decision (R108, log 30): the bus address where the buffer at `bufAddr` is the registered one and has one. -/
def premappedAddr (cfg : Cfg) (bufAddr : Option Nat) : Option Nat :=
  match bufAddr, cfg.dmaCapableBuffer with
  | some a, some dma => if a = dma.cpuAddr then dma.busAddr else none
  | _, _ => none

/-- The transfer of a write (R107): nothing is received, and the rate is the bus default. -/
def writeSpec (cfg : Cfg) (data : List Byte) (bufAddr : Option Nat) : SpiSpec where
  len       := data.length
  tx        := some data
  rxWanted  := false
  hz        := none
  premapped := (premappedAddr cfg bufAddr).isSome
  txBusAddr := premappedAddr cfg bufAddr

/-- The body of the shared write step (R107): one transfer, its status translated to a result. -/
def spiWriteBody (data : List Byte) (bufAddr : Option Nat) (s : State) : Except Fault (Response × State) :=
  match spiXfer (writeSpec s.cfg data bufAddr) s with
  | .error f => .error f
  | .ok t => .ok (resultOfStatus (nextStatus s), t)

/-- `spiWriteCore(data, bufAddr)` (R107): the bus-handle check stands outside the guard (R95). -/
def spiWriteCore (data : List Byte) (bufAddr : Option Nat) (s : State) : Host.Outcome State Fault Refusal :=
  match s.cfg.busHandle with
  | none => precheckFails .deviceUnavailable s
  | some _ => finish (withChipSelect (spiWriteBody data bufAddr) s)

/-- `writeSpi ADDR, LEN` (R109). A request without meaning (R47) is refused where its buffer would be used, so after the
bus-handle check (DEDUCED, log 27). -/
def execWriteSpi (addr len : Nat) (s : State) : Host.Outcome State Fault Refusal :=
  match admission (spiPins s) s with
  | some r => .refused r
  | none =>
    match s.cfg.busHandle, requestRefusal addr len s with
    | some _, some r => .refused r
    | _, _ => spiWriteCore (memRead s addr len) (some addr) (issue 0x00 addr len s)

/-! ### readSpi -/

/-- The staging buffer of a start-byte read of `len` bytes (R110): zeros and, where anything is read, the start byte
with its two low bits set at index 0. -/
def stageFor (c : Cfg) (startByte : Byte) (len : Nat) : List Byte :=
  if 0 < len then (List.replicate c.stageSize 0).set 0 (startByte ||| c.startOr)
  else List.replicate c.stageSize 0

/-- The transfer of a read (R106, R110): `tx` is the staged bytes, or none without a start byte. -/
def readSpec (cfg : Cfg) (tx : Option (List Byte)) (len : Nat) : SpiSpec where
  len       := len
  tx        := tx
  rxWanted  := true
  hz        := some cfg.spiReadHz
  premapped := false
  txBusAddr := none

/-- The staging of a read (R110): `STAGE` is built afresh where a start byte is configured. -/
def stageRead (len : Nat) (s : State) : State :=
  match s.cfg.startByte with
  | none => s
  | some b => { s with stage := stageFor s.cfg b len }

/-- The transmit bytes of a read, from `STAGE` (R110). -/
def readTx (len : Nat) (s : State) : Option (List Byte) :=
  match s.cfg.startByte with
  | none => none
  | some _ => some (s.stage.take len)

/-- The buffer after the transfer (R110): the received bytes, or after a failure bytes that are drawn (R102). -/
def fillRead (addr len : Nat) (status : BitVec 32) (rx : List Byte) (s : State) : State :=
  if status = 0 then memWrite addr rx s
  else { memWrite addr (drawnBytes s.draws len) s with draws := s.draws + 1 }

/-- The body of `readSpi` (R110). -/
def readSpiBody (addr len : Nat) (s : State) : Except Fault (Response × State) :=
  let t := stageRead len s
  match spiXfer (readSpec s.cfg (readTx len t) len) t with
  | .error f => .error f
  | .ok u => .ok (resultOfStatus (nextStatus s), fillRead addr len (nextStatus s) (nextRx s len) u)

/-- The start-byte length check of `readSpi` fails (R110). -/
def stageOverrun (len : Nat) (s : State) : Bool := s.cfg.startByte.isSome && decide (s.cfg.stageSize < len)

/-- `readSpi ADDR, LEN` (R110). -/
def execReadSpi (addr len : Nat) (s : State) : Host.Outcome State Fault Refusal :=
  match admission (spiPins s) s with
  | some r => .refused r
  | none =>
    match s.cfg.busHandle with
    | none => precheckFails .deviceUnavailable (issue 0x01 addr len s)
    | some _ =>
      if stageOverrun len s then precheckFails .invalidArgument (issue 0x01 addr len s)
      else match requestRefusal addr len s with
        | some r => .refused r
        | none => finish (withChipSelect (readSpiBody addr len) (issue 0x01 addr len s))

end Sys2Proof.Machine
end

