-- ==== Sys2Proof/Machine/Spi9.lean ====
section
/-! DEFINITION. 9-bit SPI Emulation (43_spi9_emulation.md): the packing of one group and `writeSpiEmulate9`. -/

namespace Sys2Proof.Machine

/-- Assign the `n` bits of `v` to `ACC[lo+n-1 : lo]`. -/
def setField {n : Nat} (acc : BitVec 64) (lo : Nat) (v : BitVec n) : BitVec 64 :=
  (acc &&& ~~~((BitVec.allOnes n).setWidth 64 <<< lo)) ||| (v.setWidth 64 <<< lo)

/-- Word `j` of a group, `j` from 0 to 6, into the accumulator (R114): its flag at `63-9j`, its payload in the eight bits
below. -/
def packWord (w : Nat → Word) (acc : BitVec 64) (j : Nat) : BitVec 64 :=
  setField (setField acc (63 - 9 * j) (wordFlag (w j))) (55 - 9 * j) (wordPayload (w j))

/-- The accumulator of a group of `n` words (R114, C1, log 20): every word but the last whole and, in bit 0, the flag of
the last; `n` is `GROUP_WORDS`, 8 in R7. -/
def packAcc (n : Nat) (w : Nat → Word) : BitVec 64 :=
  setField ((List.range (n - 1)).foldl (packWord w) 0) 0 (wordFlag (w (n - 1)))

/-- The nine output bytes of a group (R114, R50): the accumulator big-endian, then the payload of the last word. -/
def groupOutput (n : Nat) (w : Nat → Word) : List Byte :=
  (List.range 8).map (fun i => (packAcc n w).extractLsb' (56 - 8 * i) 8) ++ [wordPayload (w (n - 1))]

/-- A buffer with the bytes of a list stored from index `i` on. -/
def storeBytes : List Byte → Nat → List Byte → List Byte
  | l, _, [] => l
  | l, i, b :: bs => storeBytes (l.set i b) (i + 1) bs

/-- Word `j` of group `g` of the request (R72, R113). -/
def groupWord (addr g : Nat) (s : State) (j : Nat) : Word := memRead16 s (addr + groupSpan s.cfg * g + 2 * j)

/-- `packGroup(g)` (R114). -/
def packGroup (addr g : Nat) (s : State) : State :=
  { s with
    acc := packAcc s.cfg.groupWords (groupWord addr g s)
    scratch := storeBytes s.scratch (s.cfg.groupBytes * g) (groupOutput s.cfg.groupWords (groupWord addr g s)) }

/-- The packing of the first `n` groups, in order (R117). -/
def packGroups (addr : Nat) : Nat → State → State
  | 0, s => s
  | n + 1, s => packGroup addr n (packGroups addr n s)

/-- The delegated write of the packed bytes (R117): from `SCRATCH`, so never pre-mapped. -/
def sendPacked (len : Nat) (s : State) : Host.Outcome State Fault Refusal :=
  spiWriteCore (s.scratch.take (outLen s.cfg len)) none s

/-- Why a request of `writeSpiEmulate9` that passed both checks has no meaning (R118, R119, R47; log 21, 22, 27). -/
def emulate9Refusal (cap addr len : Nat) (s : State) : Option Refusal :=
  if len % groupSpan s.cfg ≠ 0 then some .partialGroup
  else if cap < outLen s.cfg len then some .scratchTooSmall
  else requestRefusal addr len s

/-- `writeSpiEmulate9 ADDR, LEN` (R117). -/
def execWriteSpiEmulate9 (addr len : Nat) (s : State) : Host.Outcome State Fault Refusal :=
  match admission (spiPins s) s with
  | some r => .refused r
  | none =>
    match s.cfg.scratchBuffer with
    | none => precheckFails .missingScratchBuffer (issue 0x02 addr len s)
    | some cap =>
      if len % 8 ≠ 0 then precheckFails .invalidArgument (issue 0x02 addr len s)
      else match emulate9Refusal cap addr len s with
        | some r => .refused r
        | none => sendPacked len (packGroups addr (groupCount s.cfg len) (issue 0x02 addr len s))

end Sys2Proof.Machine
end

