-- ==== Sys2Proof/Machine/Dispatch.lean ====
section
/-! DEFINITION. The meaning of every command, one arm per constructor. -/

namespace Sys2Proof.Machine

def exec (i : Instr) (s : State) : Host.Outcome State Fault Refusal :=
  match i with
  | .writeSpi addr len => Sys2Proof.Machine.execWriteSpi addr len s
  | .readSpi addr len => Sys2Proof.Machine.execReadSpi addr len s
  | .writeSpiEmulate9 addr len => Sys2Proof.Machine.execWriteSpiEmulate9 addr len s
  | .writeGpio8Wr addr len => Sys2Proof.Machine.execWriteGpio8Wr addr len s
  | .writeGpio16Wr addr len => Sys2Proof.Machine.execWriteGpio16Wr addr len s
  | .writeGpio16WrLatched addr len => Sys2Proof.Machine.execWriteGpio16WrLatched addr len s
  | .readGpio8 addr len => Sys2Proof.Machine.execReadGpio8 addr len s
  | .readGpio16 addr len => Sys2Proof.Machine.execReadGpio16 addr len s

end Sys2Proof.Machine
end

