-- ==== Sys2Proof/Machine/Reserved.lean ====
section
/-! DEFINITION. Descriptors that are no command: the answer to a reserved one (R73). -/

namespace Sys2Proof.Machine

/-- What the block does with a descriptor the decoder rejects: a reserved one is answered `Err(NotImplemented)` and nothing
is touched (R73, log 33); one whose operand exceeds `AW` bits is no descriptor and is refused (log 38). -/
def undecoded (e : DecodeError) (d : Descriptor) (s : State) : Host.Outcome State Fault Refusal :=
  match e with
  | .reserved => alwaysFails d.op d.addr d.len s
  | .operandTooWide => if s.seq = .busy then .refused .issueWhileBusy else .refused .operandTooWide

end Sys2Proof.Machine
end

