-- ==== Sys2Proof/Machine/Step.lean ====
section
/-! DEFINITION. One step: the next descriptor the host issues, from issue to response (R9, R40). -/

namespace Sys2Proof.Machine

/-- One step of the block, a whole command. Without a descriptor to issue it stays as it is (DESIGN CHOICE, log 1);
otherwise it runs the command the descriptor decodes to, or answers a reserved one (R73). -/
def step (s : State) : Host.Outcome State Fault Refusal :=
  match nextIssue s with
  | none => .next s
  | some (d, t) =>
    match decode s.cfg.aw d with
    | .ok i => exec i t
    | .error e => undecoded e d t

/-- The state in which the host issues next the descriptor whose `nbits` low bits are `w` and whose further bits are 0
(DESIGN CHOICE, log 2). -/
def State.withFetchWord (s : State) (nbits w : Nat) : State :=
  { s with queue := Descriptor.ofBits s.cfg.aw (w % 2 ^ nbits) :: s.queue }

end Sys2Proof.Machine
end

