-- ==== Sys2Proof/Safety.lean ====
section
/-! DEFINITION. The terms claims use: when a command is admitted, what the wires and the display chip see, and the
invariants of a run. Nothing here is used by the machine. -/

namespace Sys2Proof.Safety

open Sys2Proof.Machine

/-! ### When a command runs -/

/-- The parameters to which R7 gives one value have that value: what the source fixes (R8) and what the spec decides of
the status code and the wire (D14, D10). The statements that name one of the numbers carry this premise. -/
abbrev SourceValues (c : Cfg) : Prop :=
  c.prevReset = 0 ∧ c.stageSize = 32 ∧ c.startOr = 0x03 ∧ c.spiReadHz = 2000000 ∧ c.groupWords = 8 ∧
  c.groupBytes = 9 ∧ c.statusW = 32 ∧ c.spiMode = ⟨false, false⟩ ∧ c.spiBitOrder = .msbFirst ∧ c.spiWordBits = 8

/-- The premises on instance, moment and calling context under which the spec gives a command that may use the pins
`used` a meaning (R24, R33, R41, R88). -/
abbrev Admitted (used : List Pin) (s : State) : Prop :=
  s.seq = .idle ∧
  (s.cfg.dataLines.length = 8 ∨ s.cfg.dataLines.length = 16 ∨ s.cfg.dataLines.length = 0) ∧
  ((configPins s.cfg).map Pin.id).Nodup ∧
  (s.maySuspend = true ∨ ∀ p ∈ used, p.maySleep = false)

/-- The request lies in the address space and every byte of it is memory the host owns (R47). -/
def RequestOk (addr len : Nat) (s : State) : Prop :=
  addr + len ≤ 2 ^ s.cfg.aw ∧
  ∀ r ∈ s.foreign, ∀ a, addr ≤ a → a < addr + len → ¬ (r.base ≤ a ∧ a < r.base + r.size)

/-- A command whose request wraps the address space, or has an address that is not memory the host owns, is refused under
those names (R47, U6). -/
def RefusesRequest (i : Instr) (s : State) : Prop :=
  (2 ^ s.cfg.aw < i.addr + i.len → exec i s = .refused .requestWraps) ∧
  (i.addr + i.len ≤ 2 ^ s.cfg.aw →
    (∃ r ∈ s.foreign, ∃ a, i.addr ≤ a ∧ a < i.addr + i.len ∧ r.base ≤ a ∧ a < r.base + r.size) →
    exec i s = .refused .bufferNotOwned)

/-! ### What the wires show -/

/-- The event of a pin write (R85). -/
def pw (p : Pin) (b : Bool) : Event := .pw p.id b (pinPath p)

/-- A transfer body's events inside the chip-select guard (R89). -/
def guarded (cfg : Cfg) (evs : List Event) : List Event :=
  match cfg.chipSelectLine with
  | none => evs
  | some cs => pw cs false :: (evs ++ [pw cs true])

/-- The pin latches after one event (R37, R85). -/
def latchAfter (l : List (Nat × Bool)) : Event → List (Nat × Bool)
  | .pw p b _ => Cells.write false l p b
  | _ => l

/-- The pin latches after a sequence of events. -/
def replay (l : List (Nat × Bool)) (evs : List Event) : List (Nat × Bool) := evs.foldl latchAfter l

/-- The level last written to a pin (R37). -/
def level (l : List (Nat × Bool)) (pin : Nat) : Bool := Cells.read false l pin

/-- The data-line writes of one word on the lines `touched` names, ascending (R121, R123). -/
def lineEvents (lines : List Pin) (w : Word) (touched : Nat → Bool) : List Event :=
  (lines.zipIdx.filter fun c => touched c.2).map fun c => pw c.1 (w.getLsbD c.2)

/-- The events of step 2 of a write cycle (R121): with the optimisation, the delay write where the word repeats (R122)
and else the lines whose bit differs; without it, every line. -/
def dataEvents (cfg : Cfg) (wr : Pin) (prev w : Word) : List Event :=
  match cfg.skipOpt with
  | .enabled =>
    if w = prev then [pw wr false] else lineEvents cfg.dataLines w fun i => w.getLsbD i != prev.getLsbD i
  | .disabled => lineEvents cfg.dataLines w fun _ => true

/-- The events of one write cycle (R121). -/
def cycleEvents (cfg : Cfg) (wr : Pin) (prev w : Word) : List Event :=
  pw wr false :: (dataEvents cfg wr prev w ++ [pw wr true])

/-- The events of the write cycles of a list of words, the word before the first being `prev` (R124, R128). -/
def burstEvents (cfg : Cfg) (wr : Pin) : Word → List Word → List Event
  | _, [] => []
  | prev, w :: ws => cycleEvents cfg wr prev w ++ burstEvents cfg wr w ws

/-- The last word of a list, or `prev` where it is empty (R128). -/
def lastWord (prev : Word) (ws : List Word) : Word := ws.getLast?.getD prev

/-- The number of bits in which two words differ (R125). -/
def diffBits (w prev : Word) : Nat := ((List.range 16).filter fun i => (w ^^^ prev).getLsbD i).length

/-- The number of events of one write cycle (R125). -/
def cycleCost (cfg : Cfg) (prev w : Word) : Nat :=
  match cfg.skipOpt with
  | .enabled => if w = prev then 3 else 2 + diffBits w prev
  | .disabled => 2 + cfg.dataLines.length

/-- The number of events of the write cycles of a list of words (R167). -/
def burstCost (cfg : Cfg) : Word → List Word → Nat
  | _, [] => 0
  | prev, w :: ws => cycleCost cfg prev w + burstCost cfg w ws

/-- The number of chip-select events of a guarded command, `c` of R167. -/
def guardCost (cfg : Cfg) : Nat := if cfg.chipSelectLine.isSome then 2 else 0

/-- The word whose bit `i` is element `i` of a list, bits past its end being 0. -/
def wordOfBits (bits : List Bool) : Word := (BitVec.ofBoolListLE bits).setWidth 16

/-- The word sampled in read cycle `j` counted from now (R131): bit `i` is the level answered to the sample of line `i`,
and line `W-1` is sampled first. -/
def sampledWord (s : State) (j : Nat) : Word :=
  wordOfBits ((List.range s.cfg.dataLines.length).map fun i =>
    levelAt s (j * s.cfg.dataLines.length + (s.cfg.dataLines.length - 1 - i)))

/-- The events of read cycle `j` counted from now (R131). -/
def readCycleEvents (rd : Pin) (s : State) (j : Nat) : List Event :=
  pw rd false :: .dly s.cfg.settleDelay ::
    ((s.cfg.dataLines.reverse.zipIdx.map fun c =>
        .pr c.1.id (levelAt s (j * s.cfg.dataLines.length + c.2)) (pinPath c.1)) ++ [pw rd true])

/-- The state after a command that was answered with `r` and caused the bus events `evs`, nothing else being changed: the
operand registers hold the command's (R18), the sequencer is idle (R41), the latches follow the pin writes (R37). -/
def answered (i : Instr) (r : Response) (evs : List Event) (s : State) : State :=
  { s with
    op := i.opcode, addr := i.addr, len := i.len, seq := .idle
    trace := s.trace ++ evs, latch := replay s.latch evs, responses := s.responses ++ [r] }

/-- What every answered command records: the operand registers hold its operands (R18), the sequencer is idle, one
response is added (R41), and the trace and the wire only grow, the latches following the pin writes (R10, R37). -/
def Recorded (i : Instr) (s t : State) : Prop :=
  t.op = i.opcode ∧ t.addr = i.addr ∧ t.len = i.len ∧ t.seq = .idle ∧
  (∃ r, t.responses = s.responses ++ [r]) ∧
  (∃ evs, t.trace = s.trace ++ evs ∧ t.latch = replay s.latch evs) ∧ ∃ w, t.wire = s.wire ++ w

/-- The environment's answers to SPI transfers that a command uses up: none, or the next one, with at most `n` draws. -/
def AtMostOneTransfer (n : Nat) (s t : State) : Prop :=
  (t.spiAnswers = s.spiAnswers ∧ t.draws = s.draws) ∨
  (t.spiAnswers = s.spiAnswers.tail ∧ s.draws < t.draws ∧ t.draws ≤ s.draws + n)

/-- The events of a command that fails a precondition check (R95): none where `PRECHECK_BEFORE_CS`. -/
def precheckEvents (cfg : Cfg) : List Event := if cfg.precheckBeforeCs then [] else guarded cfg []

/-- The commands that move data to the display (R46). -/
def isWrite : Instr → Bool
  | .writeSpi _ _ | .writeSpiEmulate9 _ _ | .writeGpio8Wr _ _ | .writeGpio16Wr _ _ | .writeGpio16WrLatched _ _ => true
  | .readSpi _ _ | .readGpio8 _ _ | .readGpio16 _ _ => false

/-- The errors a precondition check raises (R95); a failed transfer is the only other one. -/
def isPrecheckError : Response → Bool
  | .ok | .err (.hardwareTransferFailed _) => false
  | .err _ => true

/-! ### What the display chip receives -/

/-- The word on the data lines (R126): bit `i` is the level of line `i`. -/
def lineWord (lines : List Pin) (l : List (Nat × Bool)) : Word :=
  wordOfBits (lines.map fun p => level l p.id)

/-- The words the chip latches during a sequence of events, one at each rise of the write strobe (R126). -/
def chipWords (lines : List Pin) (wr : Nat) : List (Nat × Bool) → List Event → List Word
  | _, [] => []
  | l, e :: es =>
    let l' := latchAfter l e
    match e with
    | .pw p true _ => if p = wr then lineWord lines l' :: chipWords lines wr l' es else chipWords lines wr l' es
    | _ => chipWords lines wr l' es

/-- Every data line carries the bit of `PREV` (R126). -/
def Coherent (s : State) : Prop :=
  ∀ i p, s.cfg.dataLines[i]? = some p → level s.latch p.id = s.prev.getLsbD i

/-! ### Invariants of a run -/

/-- What holds between commands: the two canonical forms, `PREV` within `W` bits (R18), the sizes of `SCRATCH` (R36) and
`STAGE` (R35), and an idle sequencer (R41). -/
abbrev Inv (s : State) : Prop :=
  Memory.wf s.mem ∧ Latch.wf s.latch ∧ s.prev.toNat < 2 ^ s.cfg.dataLines.length ∧
  s.scratch.length = s.cfg.scratchBuffer.getD 0 ∧ s.stage.length = s.cfg.stageSize ∧ s.seq = .idle

/-- A bus event the configuration allows: a pin access goes to a configured pin by that pin's own path (R82, R83), a
delay is the configured one (R132), and a transfer has the shape of R100: as many bytes as its length in each direction
it uses, received bytes exactly where they are wanted, and no positive status (R101). -/
def EventOk (cfg : Cfg) : Event → Prop
  | .pw pin _ path => ∃ p ∈ configPins cfg, pin = p.id ∧ path = pinPath p
  | .pr pin _ path => ∃ p ∈ cfg.dataLines, pin = p.id ∧ path = pinPath p
  | .dly n => n = cfg.settleDelay
  | .spi spec status rx =>
    cfg.busHandle.isSome = true ∧ status.toInt ≤ 0 ∧
    (∀ tx, spec.tx = some tx → tx.length = spec.len) ∧
    (∀ bytes, rx = some bytes → bytes.length = spec.len) ∧ rx.isSome = spec.rxWanted

/-- Every event so far is one the configuration allows. -/
def TraceOk (s : State) : Prop := ∀ e ∈ s.trace, EventOk s.cfg e

/-- An event on a pin, read or written. -/
def onPin (pin : Nat) : Event → Bool
  | .pw p _ _ => p == pin
  | .pr p _ _ => p == pin
  | _ => false

/-- An event that writes a pin. -/
def writesPin (pin : Nat) : Event → Bool
  | .pw p _ _ => p == pin
  | _ => false

end Sys2Proof.Safety
end

