-- ==== Sys2Proof/Certificates/Slice0/Obligations.lean ====
section
/-! DEFINITION. The statements for the provers, from the numbered rules of the spec. -/

open Sys2Proof Sys2Proof.Machine Sys2Proof.Safety

/-! ### Descriptors -/

/-- 95_test_vectors.md section 7 and R70: words written out from the opcode table, and reserved ones. -/
def Obligations.DecodesTheTableWords : Prop :=
  decode 32 ⟨0x00000000, 0x1000, 3⟩ = .ok (.writeSpi 0x1000 3) ∧
  decode 32 ⟨0x00000001, 0x2000, 4⟩ = .ok (.readSpi 0x2000 4) ∧
  decode 32 ⟨0x00000002, 0x1000, 16⟩ = .ok (.writeSpiEmulate9 0x1000 16) ∧
  decode 32 ⟨0x00000003, 0x1000, 5⟩ = .ok (.writeGpio8Wr 0x1000 5) ∧
  decode 32 ⟨0x00000004, 0x1000, 6⟩ = .ok (.writeGpio16Wr 0x1000 6) ∧
  decode 32 ⟨0x00000005, 0, 0⟩ = .ok (.writeGpio16WrLatched 0 0) ∧
  decode 32 ⟨0x00000006, 0x3000, 1⟩ = .ok (.readGpio8 0x3000 1) ∧
  decode 32 ⟨0x00000007, 0x3000, 2⟩ = .ok (.readGpio16 0x3000 2) ∧
  decode 32 ⟨0x00000008, 0, 0⟩ = .error .reserved ∧
  decode 32 ⟨0x000000FF, 0, 0⟩ = .error .reserved ∧
  decode 32 ⟨0x00000100, 0, 0⟩ = .error .reserved ∧
  decode 32 ⟨0x80000003, 0, 0⟩ = .error .reserved

/-- R71: a descriptor is reserved exactly when `RSV` is not 0 or `OP` is above 7; otherwise it decodes to the command
whose opcode (R70) is its `OP`, with `ADDR` and `LEN` as they stand. -/
def Obligations.DecodingIsTotalAndExact : Prop :=
  ∀ (aw : Nat) (word0 : BitVec 32) (addr len : Nat), addr < 2 ^ aw → len < 2 ^ aw →
    if word0.extractLsb' 8 24 ≠ 0 ∨ 7 < (word0.extractLsb' 0 8).toNat then
      decode aw ⟨word0, addr, len⟩ = .error .reserved
    else ∃ i, decode aw ⟨word0, addr, len⟩ = .ok i ∧
      i.opcode = word0.extractLsb' 0 8 ∧ i.addr = addr ∧ i.len = len

/-- Every well-formed command is read back from its words, at every width `AW` and every operand. That the words are laid
out as one number so is the model's choice (log 3). -/
def Obligations.DecodeOfEncodeIsTheCommand : Prop :=
  ∀ (aw : Nat) (i : Instr), i.wellFormed aw = true → decodeBits aw (encodeBits aw i) = .ok i

/-- Every descriptor that decodes is the encoding of what it decodes to: no two descriptors mean one command. -/
def Obligations.EncodeOfDecodeIsTheDescriptor : Prop :=
  ∀ (aw : Nat) (d : Descriptor) (i : Instr), decode aw d = .ok i → encode i = d ∧ i.wellFormed aw = true

/-! ### The step -/

/-- A step takes the next descriptor and runs the command it decodes to; with no descriptor the block stays as it is
(R9, R40; that an idle step changes nothing is log 1). -/
def Obligations.StepRunsTheDecodedCommand : Prop :=
  (∀ (s : State) (d : Descriptor) (rest : List Descriptor) (i : Instr),
    s.queue = d :: rest → decode s.cfg.aw d = .ok i → step s = exec i { s with queue := rest }) ∧
  ∀ s : State, s.queue = [] → step s = .next s

/-- R73: a reserved descriptor is answered `Err(NotImplemented)`; no bus event, no memory access, no change of `PREV`.
What the operand registers then hold is log 33. -/
def Obligations.ReservedDescriptorIsAnsweredNotImplemented : Prop :=
  ∀ (s : State) (d : Descriptor) (rest : List Descriptor), s.seq = .idle → s.queue = d :: rest →
    d.word0.extractLsb' 8 24 ≠ 0 ∨ 7 < (d.word0.extractLsb' 0 8).toNat →
    step s = .next { s with
      queue := rest, op := d.word0.extractLsb' 0 8, addr := d.addr, len := d.len
      responses := s.responses ++ [.err .notImplemented] }

/-- R41: an issue while `SEQ` is Busy is given no meaning, whatever the command (log 29). -/
def Obligations.IssueWhileBusyIsRefused : Prop :=
  ∀ (i : Instr) (s : State), s.seq = .busy → exec i s = .refused .issueWhileBusy

/-- R3, R41, R138: every issued descriptor that the step answers gets one response, the descriptor is taken and the
sequencer is idle again. -/
def Obligations.OneResponseForEachDescriptor : Prop :=
  ∀ (s t : State) (d : Descriptor) (rest : List Descriptor), s.queue = d :: rest → step s = .next t →
    (∃ r, t.responses = s.responses ++ [r]) ∧ t.queue = rest ∧ t.seq = .idle

/-! ### Reset -/

/-- R44, R153, R7: `PREV` is 0, the configuration's `PREV_RESET`, `SEQ` is Idle, and nothing has been emitted or
answered. -/
def Obligations.ResetClearsPrevAndIdles : Prop :=
  State.reset.prev = 0 ∧ State.reset.prev = State.reset.cfg.prevReset ∧ State.reset.seq = .idle ∧ State.reset.trace = [] ∧ State.reset.wire = [] ∧
  State.reset.responses = []

/-- The invariants hold after reset (the sizes and levels there are log 4, 5 and 6), and the configuration there has the
parameters of R7 at the values R7 gives. -/
def Obligations.ResetMeetsTheInvariants : Prop :=
  Inv State.reset ∧ TraceOk State.reset ∧ SourceValues State.reset.cfg

/-! ### Invariants -/

/-- The canonical forms of memory and latches, `PREV` within `W` bits, the sizes of `SCRATCH` and `STAGE`, and the idle
sequencer are kept by every step. -/
def Obligations.EveryStepKeepsTheInvariant : Prop :=
  ∀ s t : State, Inv s → step s = .next t → Inv t

/-- Every bus event is one the configuration allows: configured pins by their own path only (R82, R83), transfers of the
shape of R100 with a status that is not positive (R101). -/
def Obligations.EveryStepKeepsTheTraceLegal : Prop :=
  ∀ s t : State, TraceOk s → step s = .next t → TraceOk t

/-- R22: nothing the block does changes `CFG`; nor does it change what the host owns or its calling context. -/
def Obligations.ConfigurationIsImmutable : Prop :=
  ∀ s t : State, step s = .next t → t.cfg = s.cfg ∧ t.foreign = s.foreign ∧ t.maySuspend = s.maySuspend

/-- R37: the trace only grows, and every latch holds the level last written to its pin. -/
def Obligations.LatchesFollowTheTrace : Prop :=
  ∀ s t : State, step s = .next t → ∃ evs, t.trace = s.trace ++ evs ∧ t.latch = replay s.latch evs

/-! ### Chip-select -/

/-- R92 (log 19): the events of one command either are none or, where chip-select is configured, begin with its one
assertion and end with its one deassertion, with nothing on the pin between. -/
def Obligations.ChipSelectIsAssertedExactlyOnce : Prop :=
  ∀ (i : Instr) (s t : State) (cs : Pin), s.cfg.chipSelectLine = some cs → exec i s = .next t →
    ∃ evs, t.trace = s.trace ++ evs ∧
      (evs = [] ∨ ∃ mid, evs = pw cs false :: (mid ++ [pw cs true]) ∧ ∀ e ∈ mid, onPin cs.id e = false)

/-- R96: after any command that used the guard, successful or failed, chip-select is left at level 1. -/
def Obligations.ChipSelectIsLeftHigh : Prop :=
  ∀ (i : Instr) (s t : State) (cs : Pin), s.cfg.chipSelectLine = some cs → exec i s = .next t →
    t.trace ≠ s.trace → level t.latch cs.id = true

/-- R94, R95 (log 18): a command answered with a precondition error emits nothing, or the bare chip-select pair where
`PRECHECK_BEFORE_CS` is off; the always-failing command emits nothing in either case. -/
def Obligations.PreconditionErrorsTouchNoBus : Prop :=
  ∀ (i : Instr) (s t : State) (r : Response), exec i s = .next t → t.responses = s.responses ++ [r] →
    isPrecheckError r = true →
    t.trace = s.trace ++ (if i.opcode = 0x05 then [] else precheckEvents s.cfg)

/-- R89, R90, R91: the guard drives chip-select low before its body and high after it, on success and on an error alike,
and leaves the body's result as it is; without chip-select it is its body. -/
def Obligations.GuardEnclosesItsBody : Prop :=
  ∀ (body : State → Except Fault (Response × State)) (s : State),
    (s.cfg.chipSelectLine = none → withChipSelect body s = body s) ∧
    ∀ (cs : Pin) (r : Response) (t : State), s.cfg.chipSelectLine = some cs →
      body (pinWrite cs false s) = .ok (r, t) → withChipSelect body s = .ok (r, pinWrite cs true t)

/-! ### Pins and memory -/

/-- R85: a pin write emits one event by the pin's path, whether or not the level changes, and sets that latch alone. -/
def Obligations.PinWriteDrivesOneLine : Prop :=
  ∀ (p : Pin) (b : Bool) (s : State),
    (pinWrite p b s).trace = s.trace ++ [.pw p.id b (if p.maySleep then .sleep else .fast)] ∧
    (∀ q, level (pinWrite p b s).latch q = if q = p.id then b else level s.latch q) ∧
    pinWrite p b s = { s with trace := (pinWrite p b s).trace, latch := (pinWrite p b s).latch }

/-- R86: a pin read emits the answered level by the pin's path, returns it and changes no latch; an answer fixed in
advance is the one given (log 11). -/
def Obligations.PinReadReturnsTheAnsweredLevel : Prop :=
  ∀ (p : Pin) (s : State), ∃ b,
    pinRead p s = (b, { s with
      trace := s.trace ++ [.pr p.id b (if p.maySleep then .sleep else .fast)]
      pinAnswers := s.pinAnswers.tail, draws := s.draws + 1 }) ∧
    ∀ b' rest, s.pinAnswers = b' :: rest → b = b'

/-- R49 (log 17): the byte order of a 16-bit word in a buffer, read and written. -/
def Obligations.WordsLieInTheConfiguredByteOrder : Prop :=
  ∀ (s : State) (a : Nat) (w : Word),
    (s.cfg.wordOrder = .littleEndian →
      memRead16 s a = memByte s (a + 1) ++ memByte s a ∧
      memByte (memWrite a (bytesOfWord s.cfg.wordOrder w) s) a = w.extractLsb' 0 8 ∧
      memByte (memWrite a (bytesOfWord s.cfg.wordOrder w) s) (a + 1) = w.extractLsb' 8 8) ∧
    (s.cfg.wordOrder = .bigEndian →
      memRead16 s a = memByte s a ++ memByte s (a + 1) ∧
      memByte (memWrite a (bytesOfWord s.cfg.wordOrder w) s) a = w.extractLsb' 8 8 ∧
      memByte (memWrite a (bytesOfWord s.cfg.wordOrder w) s) (a + 1) = w.extractLsb' 0 8)

/-- R46: a write command stores nothing; a read command stores only inside `[ADDR, ADDR+LEN)`. -/
def Obligations.OnlyReadsStoreAndOnlyInTheRequest : Prop :=
  ∀ (i : Instr) (s t : State), exec i s = .next t →
    (isWrite i = true → t.mem = s.mem) ∧
    (isWrite i = false → ∀ a, ¬ (i.addr ≤ a ∧ a < i.addr + i.len) → memByte t a = memByte s a)

/-- R46: a read command does not read host memory: with any other memory it does the same, and what it stores on
success is the same. -/
def Obligations.ReadsDoNotDependOnMemory : Prop :=
  ∀ (i : Instr) (s t : State) (m : List Host.Cell), isWrite i = false → exec i s = .next t →
    ∃ t', exec i { s with mem := m } = .next t' ∧ t' = { t with mem := t'.mem } ∧
      (t.responses = s.responses ++ [.ok] →
        ∀ a, i.addr ≤ a → a < i.addr + i.len → memByte t' a = memByte t a)

/-- R42, R37: a command's events, response, stores and `PREV` do not depend on earlier events and responses, on what
earlier commands left in the operand registers, `ACC`, `STAGE` and `SCRATCH` (R35, R36), or on the latches, which no
command reads (R37) although R42 excepts them beside `PREV`. -/
def Obligations.EarlierOutcomesAreNotObserved : Prop :=
  ∀ (i : Instr) (s t : State) (o : BitVec 8) (a n : Nat) (acc : BitVec 64) (stage scratch : List Byte)
    (latch : List (Nat × Bool)) (tr : List Event) (wi : List WirePulse) (rs : List Response), SourceValues s.cfg → Inv s →
    scratch.length = s.scratch.length → exec i s = .next t →
    ∃ t' r evs w, exec i { s with op := o, addr := a, len := n, acc := acc, stage := stage, scratch := scratch,
                                  latch := latch, trace := tr, wire := wi, responses := rs } = .next t' ∧
      t.responses = s.responses ++ [r] ∧ t'.responses = rs ++ [r] ∧
      t.trace = s.trace ++ evs ∧ t'.trace = tr ++ evs ∧ t.wire = s.wire ++ w ∧ t'.wire = wi ++ w ∧
      t'.mem = t.mem ∧ t'.prev = t.prev

/-- R19, R124: `PREV` is 0 after reset, `writeGpio8Wr` and `writeGpio16Wr` leave the last word sent in it, and no other
command reads or writes it. That it is so with the optimisation disabled too is log 32 (R21, R124, D27). -/
def Obligations.OnlyGpioWritesUsePrev : Prop :=
  State.reset.prev = 0 ∧
  (∀ (addr len : Nat) (s t : State), exec (.writeGpio8Wr addr len) s = .next t →
    t.prev = lastWord s.prev ((List.range len).map fun k => (memByte s (addr + k)).setWidth 16)) ∧
  (∀ (addr len : Nat) (s t : State), exec (.writeGpio16Wr addr len) s = .next t →
    t.prev = lastWord s.prev ((List.range (len / 2)).map fun k => memRead16 s (addr + 2 * k))) ∧
  ∀ (i : Instr) (s t : State), (∀ addr len, i ≠ .writeGpio8Wr addr len ∧ i ≠ .writeGpio16Wr addr len) →
    exec i s = .next t →
    t.prev = s.prev ∧ ∀ p : Word, exec i { s with prev := p } = .next { t with prev := p }

/-- R138: an error is answered only for its cause. `STAGE_SIZE` is the limit of an oversized start-byte read, 32 in R7.
-/
def Obligations.ErrorsHaveTheirCauses : Prop :=
  ∀ (i : Instr) (s t : State) (r : Response), exec i s = .next t → t.responses = s.responses ++ [r] →
    (r = .err .deviceUnavailable → s.cfg.busHandle = none ∧ i.opcode.toNat ≤ 2) ∧
    (r = .err .invalidArgument →
      (i.opcode = 0x01 ∧ s.cfg.startByte.isSome = true ∧ s.cfg.stageSize < i.len) ∨ (i.opcode = 0x02 ∧ i.len % 8 ≠ 0)) ∧
    (r = .err .missingScratchBuffer → i.opcode = 0x02 ∧ s.cfg.scratchBuffer = none) ∧
    (r = .err .notImplemented → i.opcode = 0x05) ∧
    ∀ st, r = .err (.hardwareTransferFailed st) → i.opcode.toNat ≤ 2 ∧ st = nextStatus s ∧ st.toInt < 0

/-! ### SPI -/

/-- R101 (log 13): the drawn status is not positive, and it is translated to a result. A status fixed in advance is the
one drawn where `STATUS_W` is the 32 of R7. -/
def Obligations.StatusIsTranslatedToAResult : Prop :=
  (∀ s : State, positiveStatus s = none →
    (nextStatus s).toInt ≤ 0 ∧
    (nextStatus s = 0 → resultOfStatus (nextStatus s) = .ok) ∧
    ((nextStatus s).toInt < 0 → resultOfStatus (nextStatus s) = .err (.hardwareTransferFailed (nextStatus s)))) ∧
  ∀ (s : State) (a : SpiAnswer) (rest : List SpiAnswer), s.cfg.statusW = 32 → s.spiAnswers = a :: rest →
    nextStatus s = a.status ∧ (positiveStatus s = none ↔ a.status.toInt ≤ 0)

/-- R109, R107, R108: `writeSpi` sends the bytes of the request in one transfer inside the guard, marked pre-mapped
exactly when the request starts at the registered buffer and that has a bus address; its result is the status's. Without
a bus handle it fails with `DeviceUnavailable`. Nothing else changes but the wire and the answers consumed. The event
without the check's chip-select pair is log 18, the transfer of no byte log 25. That a missing handle is answered also
where the request wraps or is not the host's is log 27; that a pre-mapped transfer sends the bytes of memory is log 30
(U14: the mapping is taken to be coherent). -/
def Obligations.WriteSpiSendsTheRequest : Prop :=
  ∀ (addr len : Nat) (s : State), Admitted (spiPins s) s →
    (s.cfg.busHandle = none →
      exec (.writeSpi addr len) s =
        .next (answered (.writeSpi addr len) (.err .deviceUnavailable) (precheckEvents s.cfg) s)) ∧
    (s.cfg.busHandle.isSome = true → RequestOk addr len s → positiveStatus s = none →
      ∃ (bus : Option Nat) (w : List WirePulse),
        (∀ b, bus = some b ↔
          ∃ dma, s.cfg.dmaCapableBuffer = some dma ∧ addr = dma.cpuAddr ∧ dma.busAddr = some b) ∧
        exec (.writeSpi addr len) s = .next
          { answered (.writeSpi addr len) (resultOfStatus (nextStatus s))
              (guarded s.cfg [.spi
                { len := len, tx := some ((List.range len).map fun k => memByte s (addr + k)), rxWanted := false,
                  hz := none, premapped := bus.isSome, txBusAddr := bus } (nextStatus s) none]) s with
            wire := s.wire ++ w, spiAnswers := s.spiAnswers.tail, draws := s.draws + 1 })

/-- R110, R143: `readSpi` checks the handle, then the start-byte length (log 18, log 27). -/
def Obligations.ReadSpiChecksHandleThenLength : Prop :=
  ∀ (addr len : Nat) (s : State), SourceValues s.cfg → Admitted (spiPins s) s →
    (s.cfg.busHandle = none →
      exec (.readSpi addr len) s =
        .next (answered (.readSpi addr len) (.err .deviceUnavailable) (precheckEvents s.cfg) s)) ∧
    (s.cfg.busHandle.isSome = true → s.cfg.startByte.isSome = true → 32 < len →
      exec (.readSpi addr len) s =
        .next (answered (.readSpi addr len) (.err .invalidArgument) (precheckEvents s.cfg) s))

/-- R110, R106, R102: `readSpi` receives the bytes of the request in one transfer at 2 MHz, sending the start byte with
its two low bits set and then zeros where a start byte is configured (limit 32 bytes), and nothing explicit otherwise. On
success the buffer holds the received bytes; after a failure only the buffer's bytes are open (log 14), and a request of
no byte sends no start byte (log 25). -/
def Obligations.ReadSpiFillsTheRequest : Prop :=
  ∀ (addr len : Nat) (s : State), SourceValues s.cfg → Admitted (spiPins s) s → s.cfg.busHandle.isSome = true →
    (s.cfg.startByte.isSome = true → len ≤ 32) → RequestOk addr len s → positiveStatus s = none →
    ∃ (m : List Host.Cell) (w : List WirePulse) (stage : List Byte),
      (∀ a, ¬ (addr ≤ a ∧ a < addr + len) → Cells.read 0 m a = memByte s a) ∧
      (nextStatus s = 0 → ∀ k, k < len → Cells.read 0 m (addr + k) = rxByte s k) ∧
      (s.cfg.startByte = none → stage = s.stage) ∧
      (∀ b, s.cfg.startByte = some b →
        stage = (if 0 < len then (b ||| 0x03) :: List.replicate 31 0 else List.replicate 32 0)) ∧
      exec (.readSpi addr len) s = .next
        { answered (.readSpi addr len) (resultOfStatus (nextStatus s))
            (guarded s.cfg [.spi
              { len := len
                tx := s.cfg.startByte.map fun b => ((b ||| 0x03) :: List.replicate 31 0).take len
                rxWanted := true, hz := some 2000000, premapped := false, txBusAddr := none }
              (nextStatus s) (some ((List.range len).map (rxByte s)))]) s with
          mem := m, wire := s.wire ++ w, stage := stage, spiAnswers := s.spiAnswers.tail
          draws := s.draws + (if nextStatus s = 0 then 1 else 2) }

/-- R101, U8 (log 13): where the environment answers a positive status, each SPI command that reaches its transfer
faults. -/
def Obligations.PositiveStatusIsAFault : Prop :=
  ∀ (addr len : Nat) (s : State) (st : BitVec 32), SourceValues s.cfg → Admitted (spiPins s) s → s.cfg.busHandle.isSome = true →
    RequestOk addr len s → positiveStatus s = some st →
    exec (.writeSpi addr len) s = .fault (.positiveSpiStatus st) ∧
    ((s.cfg.startByte.isSome = true → len ≤ 32) →
      exec (.readSpi addr len) s = .fault (.positiveSpiStatus st)) ∧
    (∀ cap, s.cfg.scratchBuffer = some cap → len % 16 = 0 → 9 * (len / 16) ≤ cap →
      exec (.writeSpiEmulate9 addr len) s = .fault (.positiveSpiStatus st))

/-- R104, R105, R52 (log 16): the wire of a command that ran one transfer: whole bytes, all of them on success, most
significant bit first, in mode 0, at the transfer's rate, the sampled level being the received bit where bytes are
wanted. After a failed transfer the number of bytes is open between 0 and the length (R102); that it is a number of whole
bytes is log 14. -/
def Obligations.TheWireShiftsBytesMsbFirst : Prop :=
  ∀ (i : Instr) (s t : State) (spec : SpiSpec) (st : BitVec 32) (rx : Option (List Byte)),
    SourceValues s.cfg → exec i s = .next t → t.trace = s.trace ++ guarded s.cfg [.spi spec st rx] →
    ∃ w n, t.wire = s.wire ++ w ∧ w.length = 8 * n ∧ n ≤ spec.len ∧ (st = 0 → n = spec.len) ∧
      ∀ k p, w[k]? = some p →
        p.mode = ⟨false, false⟩ ∧ p.hz = spec.hz.getD s.cfg.spiWriteHz ∧
        (∀ tx, spec.tx = some tx → p.mosi = (tx.getD (k / 8) 0).getLsbD (7 - k % 8)) ∧
        p.miso = rx.map fun bytes => (bytes.getD (k / 8) 0).getLsbD (7 - k % 8)

/-! ### 9-bit emulation -/

/-- R117, R143 (log 27): the checks of `writeSpiEmulate9` that fail before anything is packed, in order. -/
def Obligations.Emulate9ChecksScratchThenLength : Prop :=
  ∀ (addr len : Nat) (s : State), Admitted (spiPins s) s →
    (s.cfg.scratchBuffer = none →
      exec (.writeSpiEmulate9 addr len) s =
        .next (answered (.writeSpiEmulate9 addr len) (.err .missingScratchBuffer) (precheckEvents s.cfg) s)) ∧
    (s.cfg.scratchBuffer.isSome = true → len % 8 ≠ 0 →
      exec (.writeSpiEmulate9 addr len) s =
        .next (answered (.writeSpiEmulate9 addr len) (.err .invalidArgument) (precheckEvents s.cfg) s))

/-- R118, R119 (log 21, log 22): a partial group and a scratch buffer that is too small have no meaning. -/
def Obligations.Emulate9RefusesPartialGroupsAndSmallScratch : Prop :=
  ∀ (addr len cap : Nat) (s : State), SourceValues s.cfg → Admitted (spiPins s) s →
    s.cfg.scratchBuffer = some cap →
    (len % 16 = 8 → exec (.writeSpiEmulate9 addr len) s = .refused .partialGroup) ∧
    (len % 16 = 0 → cap < 9 * (len / 16) → exec (.writeSpiEmulate9 addr len) s = .refused .scratchTooSmall)

/-- R112: the flag of a word is its bit 8, its payload bits 7 to 0, and bits 15 to 9 are ignored. -/
def Obligations.OnlyTheLowNineBitsArePacked : Prop :=
  (∀ w : Word, (wordFlag w).getLsbD 0 = w.getLsbD 8 ∧ ∀ k, k < 8 → (wordPayload w).getLsbD k = w.getLsbD k) ∧
  ∀ w w' : Nat → Word, (∀ j, j < 8 → (w j).setWidth 9 = (w' j).setWidth 9) →
    packAcc 8 w = packAcc 8 w' ∧ groupOutput 8 w = groupOutput 8 w'

/-- R77, R50 (the place of the eighth flag is log 20): the fields of the accumulator and of the nine output bytes of a
group of eight words, and the bit stream they form. -/
def Obligations.PackedFrameFollowsTheTable : Prop :=
  ∀ w : Nat → Word, (groupOutput 8 w).length = 9 ∧
    (∀ j, j < 7 → (packAcc 8 w).getLsbD (63 - 9 * j) = (wordFlag (w j)).getLsbD 0 ∧
      (packAcc 8 w).extractLsb' (55 - 9 * j) 8 = wordPayload (w j)) ∧
    (packAcc 8 w).getLsbD 0 = (wordFlag (w 7)).getLsbD 0 ∧
    (∀ i, i < 8 → (groupOutput 8 w)[i]? = some ((packAcc 8 w).extractLsb' (56 - 8 * i) 8)) ∧
    (groupOutput 8 w)[8]? = some (wordPayload (w 7)) ∧
    ∀ n, n < 72 →
      ((groupOutput 8 w).getD (n / 8) 0).getLsbD (7 - n % 8) =
        (wordFlag (w (n / 9)) ++ wordPayload (w (n / 9))).getLsbD (8 - n % 9)

/-- R117, R114, R115, R116: `writeSpiEmulate9` sends `9 * (LEN/16)` bytes in one transfer, never pre-mapped, whose bits
are the nine-bit words of the request, flag first, most significant bit first. `SCRATCH` holds them and its further
bytes stay; `ACC` holds the first 64 bits of the last group. Without a bus handle the packing is done and the command
fails with `DeviceUnavailable`. The premise on the size of `SCRATCH` is part of the invariant. The place of the eighth
flag is log 20, the one guard log 19. -/
def Obligations.Emulate9SendsTheNineBitStream : Prop :=
  ∀ (addr len cap : Nat) (s : State), SourceValues s.cfg → Admitted (spiPins s) s → s.cfg.scratchBuffer = some cap →
    s.scratch.length = cap → len % 16 = 0 → 9 * (len / 16) ≤ cap → RequestOk addr len s →
    ∃ (bytes : List Byte) (acc : BitVec 64) (w : List WirePulse),
      bytes.length = 9 * (len / 16) ∧
      (∀ g n, g < len / 16 → n < 72 →
        (bytes.getD (9 * g + n / 8) 0).getLsbD (7 - n % 8) =
          (memRead16 s (addr + 16 * g + 2 * (n / 9))).getLsbD (8 - n % 9)) ∧
      (len = 0 → acc = s.acc) ∧
      (∀ n, 0 < len → n < 64 →
        acc.getLsbD (63 - n) = (memRead16 s (addr + (len - 16) + 2 * (n / 9))).getLsbD (8 - n % 9)) ∧
      (s.cfg.busHandle = none →
        exec (.writeSpiEmulate9 addr len) s = .next
          { answered (.writeSpiEmulate9 addr len) (.err .deviceUnavailable) (precheckEvents s.cfg) s with
            acc := acc, scratch := bytes ++ s.scratch.drop bytes.length }) ∧
      (s.cfg.busHandle.isSome = true → positiveStatus s = none →
        exec (.writeSpiEmulate9 addr len) s = .next
          { answered (.writeSpiEmulate9 addr len) (resultOfStatus (nextStatus s))
              (guarded s.cfg [.spi
                { len := 9 * (len / 16), tx := some bytes, rxWanted := false, hz := none, premapped := false
                  txBusAddr := none } (nextStatus s) none]) s with
            acc := acc, scratch := bytes ++ s.scratch.drop bytes.length, wire := s.wire ++ w
            spiAnswers := s.spiAnswers.tail, draws := s.draws + 1 })

/-! ### GPIO writes -/

/-- R128, R121, R124: `writeGpio8Wr` runs one write cycle per byte inside the guard and always answers `Ok`; `PREV` ends
as the last byte written, and nothing else changes (the delay write and the order of the lines are log 26, a request of
no byte log 25; `PREV` with the optimisation disabled is log 32). -/
def Obligations.WriteGpio8WrRunsOneCyclePerByte : Prop :=
  ∀ (addr len : Nat) (s : State) (wr : Pin), Admitted (gpioPins s) s → s.cfg.dataLines.length = 8 →
    s.cfg.writeStrobeLine = some wr → RequestOk addr len s →
    exec (.writeGpio8Wr addr len) s = .next
      { answered (.writeGpio8Wr addr len) .ok
          (guarded s.cfg (burstEvents s.cfg wr s.prev
            ((List.range len).map fun k => (memByte s (addr + k)).setWidth 16))) s with
        prev := lastWord s.prev ((List.range len).map fun k => (memByte s (addr + k)).setWidth 16) }

/-- R129, R121, R124: `writeGpio16Wr`, one write cycle per 16-bit word (log 17, log 25, log 26, log 32). -/
def Obligations.WriteGpio16WrRunsOneCyclePerWord : Prop :=
  ∀ (addr len : Nat) (s : State) (wr : Pin), Admitted (gpioPins s) s → s.cfg.dataLines.length = 16 →
    s.cfg.writeStrobeLine = some wr → len % 2 = 0 → RequestOk addr len s →
    exec (.writeGpio16Wr addr len) s = .next
      { answered (.writeGpio16Wr addr len) .ok
          (guarded s.cfg (burstEvents s.cfg wr s.prev
            ((List.range (len / 2)).map fun k => memRead16 s (addr + 2 * k)))) s with
        prev := lastWord s.prev ((List.range (len / 2)).map fun k => memRead16 s (addr + 2 * k)) }

/-- R125, R122 (log 26): the events of one write cycle and their number. The premises bound the words to the bus width,
which the invariant says of `PREV`. -/
def Obligations.WriteCycleEventsAreCounted : Prop :=
  ∀ (wr : Pin) (s : State) (w : Word), s.cfg.dataLines.length = 8 ∨ s.cfg.dataLines.length = 16 →
    w.toNat < 2 ^ s.cfg.dataLines.length → s.prev.toNat < 2 ^ s.cfg.dataLines.length →
    ∃ mid, (writeWord wr s w).trace = s.trace ++ (pw wr false :: (mid ++ [pw wr true])) ∧
      (s.cfg.skipOpt = .enabled → w = s.prev → mid = [pw wr false]) ∧
      (s.cfg.skipOpt = .enabled → w ≠ s.prev →
        mid.length = diffBits w s.prev ∧
        ∀ e, e ∈ mid ↔ ∃ i p, s.cfg.dataLines[i]? = some p ∧ w.getLsbD i ≠ s.prev.getLsbD i ∧ e = pw p (w.getLsbD i)) ∧
      (s.cfg.skipOpt = .disabled → mid.length = s.cfg.dataLines.length)

/-- R126: what the chip latches at the end of one write cycle, and coherence after it. -/
def Obligations.ChipLatchesTheWordWhenCoherent : Prop :=
  ∀ (wr : Pin) (s : State) (w : Word), s.cfg.writeStrobeLine = some wr →
    ((configPins s.cfg).map Pin.id).Nodup → s.cfg.dataLines.length ≤ 16 →
    w.toNat < 2 ^ s.cfg.dataLines.length →
    (Coherent s ∨ s.cfg.skipOpt = .disabled →
      lineWord s.cfg.dataLines (writeWord wr s w).latch = w ∧ Coherent (writeWord wr s w)) ∧
    (s.cfg.skipOpt = .enabled → ∀ i p, s.cfg.dataLines[i]? = some p →
      (lineWord s.cfg.dataLines (writeWord wr s w).latch).getLsbD i =
        if w.getLsbD i ≠ s.prev.getLsbD i then w.getLsbD i else level s.latch p.id)

/-- R126, R157: with coherent lines, or with the optimisation disabled, the display receives exactly the words of the
request, and the lines stay coherent. -/
def Obligations.TheDisplayReceivesTheRequest : Prop :=
  ∀ (addr len : Nat) (s t : State) (wr : Pin), Coherent s ∨ s.cfg.skipOpt = .disabled →
    s.cfg.writeStrobeLine = some wr →
    (exec (.writeGpio8Wr addr len) s = .next t →
      ∃ evs, t.trace = s.trace ++ evs ∧
        chipWords s.cfg.dataLines wr.id s.latch evs =
          (List.range len).map (fun k => (memByte s (addr + k)).setWidth 16) ∧
        (Coherent s ∨ 0 < len → Coherent t)) ∧
    (exec (.writeGpio16Wr addr len) s = .next t →
      ∃ evs, t.trace = s.trace ++ evs ∧
        chipWords s.cfg.dataLines wr.id s.latch evs =
          (List.range (len / 2)).map (fun k => memRead16 s (addr + 2 * k)) ∧
        (Coherent s ∨ 0 < len → Coherent t))

/-- R162, 95_test_vectors.md Program D: with the optimisation and an incoherent line the display can receive a wrong
word. -/
def Obligations.IncoherentLinesCanLatchAWrongWord : Prop :=
  ∃ (s t : State) (wr : Pin) (evs : List Event),
    s.cfg = Config.default ∧ s.prev = 0 ∧ memByte s 0x1000 = 0x01 ∧ s.cfg.writeStrobeLine = some wr ∧
    exec (.writeGpio8Wr 0x1000 1) s = .next t ∧ t.trace = s.trace ++ evs ∧
    chipWords s.cfg.dataLines wr.id s.latch evs = [0x0081]

/-- R130: `writeGpio16WrLatched` always fails with `NotImplemented`, on every instance, and touches nothing. -/
def Obligations.LatchedWriteAlwaysFails : Prop :=
  ∀ (addr len : Nat) (s : State), s.seq = .idle →
    exec (.writeGpio16WrLatched addr len) s =
      .next (answered (.writeGpio16WrLatched addr len) (.err .notImplemented) [] s)

/-! ### GPIO reads -/

/-- R136, R131: `readGpio8` runs one read cycle per byte; bit `i` of byte `k` is the level answered to the sample of line
`i` in cycle `k`, line 7 being sampled first. Nothing outside the request changes. -/
def Obligations.ReadGpio8SamplesMsbFirst : Prop :=
  ∀ (addr len : Nat) (s : State) (rd : Pin), Admitted (gpioPins s) s → s.cfg.dataLines.length = 8 →
    s.cfg.readStrobeLine = some rd → RequestOk addr len s →
    ∃ m : List Host.Cell,
      (∀ a, ¬ (addr ≤ a ∧ a < addr + len) → Cells.read 0 m a = memByte s a) ∧
      (∀ k i, k < len → i < 8 → (Cells.read 0 m (addr + k)).getLsbD i = levelAt s (8 * k + (7 - i))) ∧
      exec (.readGpio8 addr len) s = .next
        { answered (.readGpio8 addr len) .ok
            (guarded s.cfg ((List.range len).flatMap (readCycleEvents rd s))) s with
          mem := m, pinAnswers := s.pinAnswers.drop (8 * len), draws := s.draws + 8 * len }

/-- R137, R131, R49: `readGpio16`, one read cycle per 16-bit word, stored in the configured byte order. -/
def Obligations.ReadGpio16SamplesMsbFirst : Prop :=
  ∀ (addr len : Nat) (s : State) (rd : Pin), Admitted (gpioPins s) s → s.cfg.dataLines.length = 16 →
    s.cfg.readStrobeLine = some rd → len % 2 = 0 → RequestOk addr len s →
    ∃ m : List Host.Cell,
      (∀ a, ¬ (addr ≤ a ∧ a < addr + len) → Cells.read 0 m a = memByte s a) ∧
      (∀ k i, k < len / 2 → i < 16 →
        (memRead16 { s with mem := m } (addr + 2 * k)).getLsbD i = levelAt s (16 * k + (15 - i))) ∧
      exec (.readGpio16 addr len) s = .next
        { answered (.readGpio16 addr len) .ok
            (guarded s.cfg ((List.range (len / 2)).flatMap (readCycleEvents rd s))) s with
          mem := m, pinAnswers := s.pinAnswers.drop (16 * (len / 2)), draws := s.draws + 16 * (len / 2) }

/-- R134: a read never touches the write-skip state, and writes no data line. -/
def Obligations.ReadsLeaveTheWriteSkipState : Prop :=
  ∀ (i : Instr) (s t : State), (∃ addr len, i = .readGpio8 addr len ∨ i = .readGpio16 addr len) →
    exec i s = .next t →
    t.prev = s.prev ∧
    (∃ evs, t.trace = s.trace ++ evs ∧ ∀ p ∈ s.cfg.dataLines, ∀ e ∈ evs, writesPin p.id e = false) ∧
    ∀ p ∈ s.cfg.dataLines, level t.latch p.id = level s.latch p.id

/-! ### Event counts and refusals -/

/-- R167: the number of events of each command. `PREV` within the bus width is part of the invariant. -/
def Obligations.EventCountsPerCommand : Prop :=
  ∀ (addr len : Nat) (s t : State), s.cfg.precheckBeforeCs = true →
    s.prev.toNat < 2 ^ s.cfg.dataLines.length →
    (∀ i, (i = .writeSpi addr len ∨ i = .readSpi addr len ∨ i = .writeSpiEmulate9 addr len) → exec i s = .next t →
      t.responses = s.responses ++ [.ok] → t.trace.length = s.trace.length + (guardCost s.cfg + 1)) ∧
    (exec (.writeGpio8Wr addr len) s = .next t →
      t.trace.length = s.trace.length + (guardCost s.cfg +
        burstCost s.cfg s.prev ((List.range len).map fun k => (memByte s (addr + k)).setWidth 16)) ∧
      (s.cfg.skipOpt = .disabled → t.trace.length = s.trace.length + (guardCost s.cfg + 10 * len))) ∧
    (exec (.writeGpio16Wr addr len) s = .next t →
      t.trace.length = s.trace.length + (guardCost s.cfg +
        burstCost s.cfg s.prev ((List.range (len / 2)).map fun k => memRead16 s (addr + 2 * k))) ∧
      (s.cfg.skipOpt = .disabled → t.trace.length = s.trace.length + (guardCost s.cfg + 18 * (len / 2)))) ∧
    (exec (.readGpio8 addr len) s = .next t →
      t.trace.length = s.trace.length + (guardCost s.cfg + 11 * len)) ∧
    (exec (.readGpio16 addr len) s = .next t →
      t.trace.length = s.trace.length + (guardCost s.cfg + 19 * (len / 2))) ∧
    (∀ i r, exec i s = .next t → t.responses = s.responses ++ [r] → isPrecheckError r = true →
      t.trace.length = s.trace.length)

/-- R127, R135, R56 (log 23, log 24): GPIO commands on a bus of another width, without their strobe, or of an odd length
have no meaning. -/
def Obligations.GpioCommandsRefuseOtherBuses : Prop :=
  ∀ (addr len : Nat) (s : State), Admitted (gpioPins s) s →
    (s.cfg.dataLines.length ≠ 8 →
      exec (.writeGpio8Wr addr len) s = .refused .busWidthMismatch ∧
      exec (.readGpio8 addr len) s = .refused .busWidthMismatch) ∧
    (s.cfg.dataLines.length ≠ 16 →
      exec (.writeGpio16Wr addr len) s = .refused .busWidthMismatch ∧
      exec (.readGpio16 addr len) s = .refused .busWidthMismatch) ∧
    (s.cfg.dataLines.length = 8 →
      (s.cfg.writeStrobeLine = none → exec (.writeGpio8Wr addr len) s = .refused .strobeAbsent) ∧
      (s.cfg.readStrobeLine = none → exec (.readGpio8 addr len) s = .refused .strobeAbsent)) ∧
    (s.cfg.dataLines.length = 16 →
      (s.cfg.writeStrobeLine = none → exec (.writeGpio16Wr addr len) s = .refused .strobeAbsent) ∧
      (s.cfg.readStrobeLine = none → exec (.readGpio16 addr len) s = .refused .strobeAbsent) ∧
      (s.cfg.writeStrobeLine.isSome = true → len % 2 = 1 →
        exec (.writeGpio16Wr addr len) s = .refused .oddLength) ∧
      (s.cfg.readStrobeLine.isSome = true → len % 2 = 1 →
        exec (.readGpio16 addr len) s = .refused .oddLength))

/-- R24, R33, R88 (log 10, log 23): an instance outside the spec, or a call from a context that forbids suspension when
a used pin may sleep, is refused, by every command but the always-failing one. -/
def Obligations.InadmissibleCallsAreRefused : Prop :=
  ∀ (i : Instr) (s : State), s.seq = .idle → i.opcode ≠ 0x05 →
    ((s.cfg.dataLines.length ≠ 8 ∧ s.cfg.dataLines.length ≠ 16 ∧ s.cfg.dataLines.length ≠ 0) →
      exec i s = .refused .dataLineCount) ∧
    ((s.cfg.dataLines.length = 8 ∨ s.cfg.dataLines.length = 16 ∨ s.cfg.dataLines.length = 0) →
      (¬ ((configPins s.cfg).map Pin.id).Nodup → exec i s = .refused .pinsNotDistinct) ∧
      (((configPins s.cfg).map Pin.id).Nodup → s.maySuspend = false →
        (∃ cs, s.cfg.chipSelectLine = some cs ∧ cs.maySleep = true) ∨
          (0x03 ≤ i.opcode.toNat ∧ ∃ p ∈ configPins s.cfg, p.maySleep = true) →
        exec i s = .refused .suspensionForbidden))

/-- R47: a request that wraps the address space, or that is not memory the host owns, has no meaning where the command
would use its buffer. Each command needs its own part of the instance alone: the SPI commands no data lines and no
strobe, the GPIO commands no bus handle and no strobe of the other direction, `writeSpiEmulate9` no bus handle, which it
checks after packing (that the checks of R143 come first is the model's reading, log 27; the refusals are log 28). -/
def Obligations.RequestsOutsideHostMemoryAreRefused : Prop :=
  ∀ (addr len : Nat) (s : State),
    (Admitted (spiPins s) s →
      (s.cfg.busHandle.isSome = true → RefusesRequest (.writeSpi addr len) s) ∧
      (s.cfg.busHandle.isSome = true → (s.cfg.startByte.isSome = true → len ≤ s.cfg.stageSize) →
        RefusesRequest (.readSpi addr len) s) ∧
      (∀ cap, s.cfg.scratchBuffer = some cap → len % 8 = 0 → len % groupSpan s.cfg = 0 → outLen s.cfg len ≤ cap →
        RefusesRequest (.writeSpiEmulate9 addr len) s)) ∧
    (Admitted (gpioPins s) s →
      (s.cfg.dataLines.length = 8 →
        (s.cfg.writeStrobeLine.isSome = true → RefusesRequest (.writeGpio8Wr addr len) s) ∧
        (s.cfg.readStrobeLine.isSome = true → RefusesRequest (.readGpio8 addr len) s)) ∧
      (s.cfg.dataLines.length = 16 → len % 2 = 0 →
        (s.cfg.writeStrobeLine.isSome = true → RefusesRequest (.writeGpio16Wr addr len) s) ∧
        (s.cfg.readStrobeLine.isSome = true → RefusesRequest (.readGpio16 addr len) s)))

/-- R69, R139: the words of a response (the codes are log 33). -/
def Obligations.ResponseWordsFollowTheTable : Prop :=
  (Response.ok.word0 = 0 ∧ Response.ok.word1 = 0) ∧
  (∀ r : Response, r.word0.toNat ≤ 5 ∧ (r.word0 ≠ 5 → r.word1 = 0)) ∧
  (Response.err .deviceUnavailable).word0 = 1 ∧ (Response.err .invalidArgument).word0 = 2 ∧
  (Response.err .missingScratchBuffer).word0 = 3 ∧ (Response.err .notImplemented).word0 = 4 ∧
  ∀ st, (Response.err (.hardwareTransferFailed st)).word0 = 5 ∧
    (Response.err (.hardwareTransferFailed st)).word1 = st

/-! ### Frames -/

/-- What `writeSpi` leaves unchanged: everything but the operand registers, the trace, the wire, the responses, the latch
of chip-select, the environment's next transfer answer and `draws`; and how those change. -/
def Obligations.FrameOfWriteSpi : Prop :=
  ∀ (addr len : Nat) (s t : State), exec (.writeSpi addr len) s = .next t →
    Recorded (.writeSpi addr len) s t ∧ AtMostOneTransfer 1 s t ∧
    t.cfg = s.cfg ∧ t.prev = s.prev ∧ t.scratch = s.scratch ∧ t.acc = s.acc ∧ t.stage = s.stage ∧
    t.foreign = s.foreign ∧ t.maySuspend = s.maySuspend ∧ t.queue = s.queue ∧ t.pinAnswers = s.pinAnswers ∧
    (∀ pin, (∀ cs, s.cfg.chipSelectLine = some cs → pin ≠ cs.id) → level t.latch pin = level s.latch pin) ∧
    ∀ a, memByte t a = memByte s a

/-- What `readSpi` leaves unchanged: besides what `writeSpi` may change, `STAGE` may change where there is a start byte,
and the bytes of the request; the bytes of a failed transfer are a second draw. -/
def Obligations.FrameOfReadSpi : Prop :=
  ∀ (addr len : Nat) (s t : State), exec (.readSpi addr len) s = .next t →
    Recorded (.readSpi addr len) s t ∧ AtMostOneTransfer 2 s t ∧
    t.cfg = s.cfg ∧ t.prev = s.prev ∧ t.scratch = s.scratch ∧ t.acc = s.acc ∧
    (s.cfg.startByte = none → t.stage = s.stage) ∧
    t.foreign = s.foreign ∧ t.maySuspend = s.maySuspend ∧ t.queue = s.queue ∧ t.pinAnswers = s.pinAnswers ∧
    (∀ pin, (∀ cs, s.cfg.chipSelectLine = some cs → pin ≠ cs.id) → level t.latch pin = level s.latch pin) ∧
    ∀ a, ¬ (addr ≤ a ∧ a < addr + len) → memByte t a = memByte s a

/-- What `writeSpiEmulate9` leaves unchanged: besides what `writeSpi` may change, `ACC` and the first `9 * (LEN/16)`
bytes of `SCRATCH` may change. -/
def Obligations.FrameOfWriteSpiEmulate9 : Prop :=
  ∀ (addr len : Nat) (s t : State), SourceValues s.cfg → exec (.writeSpiEmulate9 addr len) s = .next t →
    Recorded (.writeSpiEmulate9 addr len) s t ∧ AtMostOneTransfer 1 s t ∧
    t.cfg = s.cfg ∧ t.prev = s.prev ∧ t.stage = s.stage ∧ t.scratch.length = s.scratch.length ∧
    (∀ k, 9 * (len / 16) ≤ k → t.scratch[k]? = s.scratch[k]?) ∧
    t.foreign = s.foreign ∧ t.maySuspend = s.maySuspend ∧ t.queue = s.queue ∧ t.pinAnswers = s.pinAnswers ∧
    (∀ pin, (∀ cs, s.cfg.chipSelectLine = some cs → pin ≠ cs.id) → level t.latch pin = level s.latch pin) ∧
    ∀ a, memByte t a = memByte s a

/-- What `writeGpio8Wr` and `writeGpio16Wr` leave unchanged: everything but the operand registers, the trace, the
responses, `PREV` and the latches of chip-select, write strobe and data lines; and how the records change. -/
def Obligations.FrameOfGpioWrites : Prop :=
  ∀ (addr len : Nat) (i : Instr) (s t : State), (i = .writeGpio8Wr addr len ∨ i = .writeGpio16Wr addr len) →
    exec i s = .next t →
    Recorded i s t ∧ t.wire = s.wire ∧
    t.cfg = s.cfg ∧ t.scratch = s.scratch ∧ t.acc = s.acc ∧ t.stage = s.stage ∧
    t.foreign = s.foreign ∧ t.maySuspend = s.maySuspend ∧ t.queue = s.queue ∧ t.pinAnswers = s.pinAnswers ∧
    t.spiAnswers = s.spiAnswers ∧ t.draws = s.draws ∧ (len = 0 → t.prev = s.prev) ∧
    (∀ pin, (∀ cs, s.cfg.chipSelectLine = some cs → pin ≠ cs.id) →
      (∀ wr, s.cfg.writeStrobeLine = some wr → pin ≠ wr.id) → (∀ p ∈ s.cfg.dataLines, pin ≠ p.id) →
      level t.latch pin = level s.latch pin) ∧
    ∀ a, memByte t a = memByte s a

/-- What `readGpio8` and `readGpio16` leave unchanged: everything but the operand registers, the trace, the responses,
the latches of chip-select and read strobe, the bytes of the request, and the pin answers and `draws`, of which one goes
to each sample; and how those change. -/
def Obligations.FrameOfGpioReads : Prop :=
  ∀ (addr len : Nat) (i : Instr) (s t : State), (i = .readGpio8 addr len ∨ i = .readGpio16 addr len) →
    exec i s = .next t →
    Recorded i s t ∧ t.wire = s.wire ∧
    (i = .readGpio8 addr len → t.pinAnswers = s.pinAnswers.drop (8 * len) ∧ t.draws = s.draws + 8 * len) ∧
    (i = .readGpio16 addr len →
      t.pinAnswers = s.pinAnswers.drop (16 * (len / 2)) ∧ t.draws = s.draws + 16 * (len / 2)) ∧
    t.cfg = s.cfg ∧ t.prev = s.prev ∧ t.scratch = s.scratch ∧ t.acc = s.acc ∧ t.stage = s.stage ∧
    t.foreign = s.foreign ∧ t.maySuspend = s.maySuspend ∧ t.queue = s.queue ∧ t.spiAnswers = s.spiAnswers ∧
    (∀ pin, (∀ cs, s.cfg.chipSelectLine = some cs → pin ≠ cs.id) →
      (∀ rd, s.cfg.readStrobeLine = some rd → pin ≠ rd.id) → level t.latch pin = level s.latch pin) ∧
    ∀ a, ¬ (addr ≤ a ∧ a < addr + len) → memByte t a = memByte s a

/-- What `writeGpio16WrLatched` leaves unchanged: everything but the operand registers and the responses; and how those
change. -/
def Obligations.FrameOfLatchedWrite : Prop :=
  ∀ (addr len : Nat) (s t : State), exec (.writeGpio16WrLatched addr len) s = .next t →
    Recorded (.writeGpio16WrLatched addr len) s t ∧ t.trace = s.trace ∧ t.wire = s.wire ∧
    t.cfg = s.cfg ∧ t.prev = s.prev ∧ t.latch = s.latch ∧ t.scratch = s.scratch ∧ t.acc = s.acc ∧ t.stage = s.stage ∧
    t.foreign = s.foreign ∧ t.maySuspend = s.maySuspend ∧ t.queue = s.queue ∧ t.pinAnswers = s.pinAnswers ∧
    t.spiAnswers = s.spiAnswers ∧ t.draws = s.draws ∧
    ∀ a, memByte t a = memByte s a
end

