-- ==== Sys2Proof/Laws/Cells.lean ====
section
/-! SUPPORT. The laws of sparse cells: a read after a write, and the canonical form, which every memory and latch
operation keeps. -/

namespace Sys2Proof.Machine

variable {α : Type} {d : α}

theorem Cells.read_filter_same (m : List (Nat × α)) (a : Nat) :
    Cells.read d (m.filter fun c => decide (c.1 ≠ a)) a = d := by
  induction m with
  | nil => rfl
  | cons c m ih =>
    by_cases h : c.1 = a
    · simpa [h] using ih
    · simpa [h, Cells.read] using ih

theorem Cells.read_filter_other (m : List (Nat × α)) {a b : Nat} (h : b ≠ a) :
    Cells.read d (m.filter fun c => decide (c.1 ≠ a)) b = Cells.read d m b := by
  induction m with
  | nil => rfl
  | cons c m ih =>
    by_cases hc : c.1 = a
    · have : c.1 ≠ b := fun hb => h (hb.symm.trans hc)
      simpa [hc, Cells.read, h.symm] using ih
    · simp [hc, Cells.read]
      split
      · rfl
      · simpa using ih

theorem Cells.read_insert_same (m : List (Nat × α)) (a : Nat) (v : α) (h : ∀ c ∈ m, c.1 ≠ a) :
    Cells.read d (Cells.insert a v m) a = v := by
  induction m with
  | nil => simp [Cells.insert, Cells.read]
  | cons c m ih =>
    have h1 : c.1 ≠ a := h c (by simp)
    have h2 : ∀ c' ∈ m, c'.1 ≠ a := fun c' hc' => h c' (by simp [hc'])
    unfold Cells.insert
    split
    · simp [Cells.read]
    · simpa [Cells.read, h1] using ih h2

theorem Cells.read_insert_other (m : List (Nat × α)) {a b : Nat} (v : α) (h : b ≠ a) :
    Cells.read d (Cells.insert a v m) b = Cells.read d m b := by
  induction m with
  | nil => simp [Cells.insert, Cells.read, h.symm]
  | cons c m ih =>
    unfold Cells.insert
    split
    · simp [Cells.read, h.symm]
    · simp [Cells.read, ih]

variable [DecidableEq α]

/-- A read after a write to the same key gives the value written, for any list. -/
@[simp] theorem Cells.read_write_same (m : List (Nat × α)) (a : Nat) (v : α) :
    Cells.read d (Cells.write d m a v) a = v := by
  unfold Cells.write
  split
  · next h => rw [Cells.read_filter_same, h]
  · exact Cells.read_insert_same _ _ _ (by simp)

/-- A write leaves every other key alone, for any list. -/
theorem Cells.read_write_other (m : List (Nat × α)) {a b : Nat} (v : α) (h : b ≠ a) :
    Cells.read d (Cells.write d m a v) b = Cells.read d m b := by
  unfold Cells.write
  split
  · exact Cells.read_filter_other m h
  · rw [Cells.read_insert_other _ _ h, Cells.read_filter_other m h]

theorem Cells.read_write (m : List (Nat × α)) (a b : Nat) (v : α) :
    Cells.read d (Cells.write d m a v) b = if b = a then v else Cells.read d m b := by
  split
  · next h => subst h; simp
  · next h => exact Cells.read_write_other m v h

omit [DecidableEq α] in
theorem Cells.mem_insert {m : List (Nat × α)} {a : Nat} {v : α} {c : Nat × α}
    (h : c ∈ Cells.insert a v m) : c = (a, v) ∨ c ∈ m := by
  induction m with
  | nil => simpa [Cells.insert] using h
  | cons e m ih =>
    unfold Cells.insert at h
    split at h
    · simpa using h
    · rcases List.mem_cons.1 h with h | h
      · exact .inr (by simp [h])
      · rcases ih h with h | h
        · exact .inl h
        · exact .inr (by simp [h])

omit [DecidableEq α] in
theorem Cells.pairwise_insert {m : List (Nat × α)} {a : Nat} {v : α}
    (hm : m.Pairwise fun c c' => c.1 < c'.1) (ha : ∀ c ∈ m, c.1 ≠ a) :
    (Cells.insert a v m).Pairwise fun c c' => c.1 < c'.1 := by
  induction m with
  | nil => simp [Cells.insert]
  | cons e m ih =>
    obtain ⟨h1, h2⟩ := List.pairwise_cons.1 hm
    have hne : e.1 ≠ a := ha e (by simp)
    unfold Cells.insert
    split
    · next hlt =>
      refine List.pairwise_cons.2 ⟨fun c hc => ?_, hm⟩
      rcases List.mem_cons.1 hc with rfl | hc
      · exact hlt
      · exact Nat.lt_trans hlt (h1 c hc)
    · next hlt =>
      refine List.pairwise_cons.2 ⟨fun c hc => ?_, ih h2 fun c hc => ha c (by simp [hc])⟩
      rcases Cells.mem_insert hc with rfl | hc
      · show e.1 < a
        have : ¬ a < e.1 := hlt
        omega
      · exact h1 c hc

/-- A write keeps the canonical form. -/
theorem Cells.wf_write {m : List (Nat × α)} (hm : Cells.wf d m) (a : Nat) (v : α) :
    Cells.wf d (Cells.write d m a v) := by
  obtain ⟨hp, hd⟩ := hm
  have hp' : (m.filter fun c => decide (c.1 ≠ a)).Pairwise fun c c' => c.1 < c'.1 := hp.filter _
  unfold Cells.write
  split
  · exact ⟨hp', fun c hc => hd c (List.mem_filter.1 hc).1⟩
  · next hv =>
    refine ⟨Cells.pairwise_insert hp' (by simp), fun c hc => ?_⟩
    rcases Cells.mem_insert hc with rfl | hc
    · exact hv
    · exact hd c (List.mem_filter.1 hc).1

/-- Storing a list of bytes keeps memory's canonical form. -/
theorem storeCells_wf {m : List Host.Cell} (hm : Memory.wf m) (addr : Nat) (bytes : List Byte) :
    Memory.wf (storeCells m addr bytes) := by
  induction bytes generalizing m addr with
  | nil => exact hm
  | cons b bs ih => exact ih (Cells.wf_write hm addr b) (addr + 1)

/-- What a stored list of bytes leaves at every address: byte `i` at `addr + i`, and nothing changed elsewhere. -/
theorem read_storeCells (m : List Host.Cell) (addr : Nat) (bytes : List Byte) (a : Nat) :
    Cells.read Memory.unlisted (storeCells m addr bytes) a =
      if addr ≤ a ∧ a < addr + bytes.length then bytes.getD (a - addr) 0
      else Cells.read Memory.unlisted m a := by
  induction bytes generalizing m addr with
  | nil => simp [storeCells]
  | cons b bs ih =>
    rw [storeCells, ih, Cells.read_write]
    by_cases h1 : a = addr
    · subst h1; simp
    · by_cases h2 : addr + 1 ≤ a ∧ a < addr + 1 + bs.length
      · have h3 : addr ≤ a ∧ a < addr + (b :: bs).length := by simp; omega
        obtain ⟨k, hk⟩ : ∃ k, a - addr = k + 1 := ⟨a - addr - 1, by omega⟩
        have hk' : a - (addr + 1) = k := by omega
        rw [if_pos h2, if_pos h3, hk, hk', List.getD_cons_succ]
      · have h3 : ¬ (addr ≤ a ∧ a < addr + (b :: bs).length) := by simp; omega
        rw [if_neg h2, if_neg h3, if_neg h1]

end Sys2Proof.Machine
end

