-- ==== Sys2Proof/Laws/State.lean ====
section
/-! SUPPORT. One lemma per field for each update of the state: what the update leaves in the field. -/

namespace Sys2Proof.Machine

/-! ### `issue` -/

@[simp] theorem issue_cfg (op : BitVec 8) (addr len : Nat) (s : State) : (issue op addr len s).cfg = s.cfg := rfl
@[simp] theorem issue_prev (op : BitVec 8) (addr len : Nat) (s : State) : (issue op addr len s).prev = s.prev := rfl
@[simp] theorem issue_latch (op : BitVec 8) (addr len : Nat) (s : State) :
    (issue op addr len s).latch = s.latch := rfl
@[simp] theorem issue_scratch (op : BitVec 8) (addr len : Nat) (s : State) :
    (issue op addr len s).scratch = s.scratch := rfl
@[simp] theorem issue_seq (op : BitVec 8) (addr len : Nat) (s : State) : (issue op addr len s).seq = .busy := rfl
@[simp] theorem issue_op (op : BitVec 8) (addr len : Nat) (s : State) : (issue op addr len s).op = op := rfl
@[simp] theorem issue_addr (op : BitVec 8) (addr len : Nat) (s : State) : (issue op addr len s).addr = addr := rfl
@[simp] theorem issue_len (op : BitVec 8) (addr len : Nat) (s : State) : (issue op addr len s).len = len := rfl
@[simp] theorem issue_acc (op : BitVec 8) (addr len : Nat) (s : State) : (issue op addr len s).acc = s.acc := rfl
@[simp] theorem issue_stage (op : BitVec 8) (addr len : Nat) (s : State) :
    (issue op addr len s).stage = s.stage := rfl
@[simp] theorem issue_mem (op : BitVec 8) (addr len : Nat) (s : State) : (issue op addr len s).mem = s.mem := rfl
@[simp] theorem issue_foreign (op : BitVec 8) (addr len : Nat) (s : State) :
    (issue op addr len s).foreign = s.foreign := rfl
@[simp] theorem issue_maySuspend (op : BitVec 8) (addr len : Nat) (s : State) :
    (issue op addr len s).maySuspend = s.maySuspend := rfl
@[simp] theorem issue_queue (op : BitVec 8) (addr len : Nat) (s : State) :
    (issue op addr len s).queue = s.queue := rfl
@[simp] theorem issue_pinAnswers (op : BitVec 8) (addr len : Nat) (s : State) :
    (issue op addr len s).pinAnswers = s.pinAnswers := rfl
@[simp] theorem issue_spiAnswers (op : BitVec 8) (addr len : Nat) (s : State) :
    (issue op addr len s).spiAnswers = s.spiAnswers := rfl
@[simp] theorem issue_draws (op : BitVec 8) (addr len : Nat) (s : State) :
    (issue op addr len s).draws = s.draws := rfl
@[simp] theorem issue_trace (op : BitVec 8) (addr len : Nat) (s : State) :
    (issue op addr len s).trace = s.trace := rfl
@[simp] theorem issue_wire (op : BitVec 8) (addr len : Nat) (s : State) : (issue op addr len s).wire = s.wire := rfl
@[simp] theorem issue_responses (op : BitVec 8) (addr len : Nat) (s : State) :
    (issue op addr len s).responses = s.responses := rfl

/-! ### `respond` -/

@[simp] theorem respond_cfg (r : Response) (s : State) : (respond r s).cfg = s.cfg := rfl
@[simp] theorem respond_prev (r : Response) (s : State) : (respond r s).prev = s.prev := rfl
@[simp] theorem respond_latch (r : Response) (s : State) : (respond r s).latch = s.latch := rfl
@[simp] theorem respond_scratch (r : Response) (s : State) : (respond r s).scratch = s.scratch := rfl
@[simp] theorem respond_seq (r : Response) (s : State) : (respond r s).seq = .idle := rfl
@[simp] theorem respond_op (r : Response) (s : State) : (respond r s).op = s.op := rfl
@[simp] theorem respond_addr (r : Response) (s : State) : (respond r s).addr = s.addr := rfl
@[simp] theorem respond_len (r : Response) (s : State) : (respond r s).len = s.len := rfl
@[simp] theorem respond_acc (r : Response) (s : State) : (respond r s).acc = s.acc := rfl
@[simp] theorem respond_stage (r : Response) (s : State) : (respond r s).stage = s.stage := rfl
@[simp] theorem respond_mem (r : Response) (s : State) : (respond r s).mem = s.mem := rfl
@[simp] theorem respond_foreign (r : Response) (s : State) : (respond r s).foreign = s.foreign := rfl
@[simp] theorem respond_maySuspend (r : Response) (s : State) : (respond r s).maySuspend = s.maySuspend := rfl
@[simp] theorem respond_queue (r : Response) (s : State) : (respond r s).queue = s.queue := rfl
@[simp] theorem respond_pinAnswers (r : Response) (s : State) : (respond r s).pinAnswers = s.pinAnswers := rfl
@[simp] theorem respond_spiAnswers (r : Response) (s : State) : (respond r s).spiAnswers = s.spiAnswers := rfl
@[simp] theorem respond_draws (r : Response) (s : State) : (respond r s).draws = s.draws := rfl
@[simp] theorem respond_trace (r : Response) (s : State) : (respond r s).trace = s.trace := rfl
@[simp] theorem respond_wire (r : Response) (s : State) : (respond r s).wire = s.wire := rfl
@[simp] theorem respond_responses (r : Response) (s : State) : (respond r s).responses = s.responses ++ [r] := rfl

/-! ### `raise` -/

@[simp] theorem raise_cfg (e : IoError) (s : State) : (raise e s).cfg = s.cfg := rfl
@[simp] theorem raise_prev (e : IoError) (s : State) : (raise e s).prev = s.prev := rfl
@[simp] theorem raise_latch (e : IoError) (s : State) : (raise e s).latch = s.latch := rfl
@[simp] theorem raise_scratch (e : IoError) (s : State) : (raise e s).scratch = s.scratch := rfl
@[simp] theorem raise_seq (e : IoError) (s : State) : (raise e s).seq = .idle := rfl
@[simp] theorem raise_op (e : IoError) (s : State) : (raise e s).op = s.op := rfl
@[simp] theorem raise_addr (e : IoError) (s : State) : (raise e s).addr = s.addr := rfl
@[simp] theorem raise_len (e : IoError) (s : State) : (raise e s).len = s.len := rfl
@[simp] theorem raise_acc (e : IoError) (s : State) : (raise e s).acc = s.acc := rfl
@[simp] theorem raise_stage (e : IoError) (s : State) : (raise e s).stage = s.stage := rfl
@[simp] theorem raise_mem (e : IoError) (s : State) : (raise e s).mem = s.mem := rfl
@[simp] theorem raise_foreign (e : IoError) (s : State) : (raise e s).foreign = s.foreign := rfl
@[simp] theorem raise_maySuspend (e : IoError) (s : State) : (raise e s).maySuspend = s.maySuspend := rfl
@[simp] theorem raise_queue (e : IoError) (s : State) : (raise e s).queue = s.queue := rfl
@[simp] theorem raise_pinAnswers (e : IoError) (s : State) : (raise e s).pinAnswers = s.pinAnswers := rfl
@[simp] theorem raise_spiAnswers (e : IoError) (s : State) : (raise e s).spiAnswers = s.spiAnswers := rfl
@[simp] theorem raise_draws (e : IoError) (s : State) : (raise e s).draws = s.draws := rfl
@[simp] theorem raise_trace (e : IoError) (s : State) : (raise e s).trace = s.trace := rfl
@[simp] theorem raise_wire (e : IoError) (s : State) : (raise e s).wire = s.wire := rfl
@[simp] theorem raise_responses (e : IoError) (s : State) : (raise e s).responses = s.responses ++ [.err e] := rfl

/-! ### `memWrite` -/

@[simp] theorem memWrite_cfg (addr : Nat) (bytes : List Byte) (s : State) : (memWrite addr bytes s).cfg = s.cfg := rfl
@[simp] theorem memWrite_prev (addr : Nat) (bytes : List Byte) (s : State) :
    (memWrite addr bytes s).prev = s.prev := rfl
@[simp] theorem memWrite_latch (addr : Nat) (bytes : List Byte) (s : State) :
    (memWrite addr bytes s).latch = s.latch := rfl
@[simp] theorem memWrite_scratch (addr : Nat) (bytes : List Byte) (s : State) :
    (memWrite addr bytes s).scratch = s.scratch := rfl
@[simp] theorem memWrite_seq (addr : Nat) (bytes : List Byte) (s : State) : (memWrite addr bytes s).seq = s.seq := rfl
@[simp] theorem memWrite_op (addr : Nat) (bytes : List Byte) (s : State) : (memWrite addr bytes s).op = s.op := rfl
@[simp] theorem memWrite_addr (addr : Nat) (bytes : List Byte) (s : State) :
    (memWrite addr bytes s).addr = s.addr := rfl
@[simp] theorem memWrite_len (addr : Nat) (bytes : List Byte) (s : State) : (memWrite addr bytes s).len = s.len := rfl
@[simp] theorem memWrite_acc (addr : Nat) (bytes : List Byte) (s : State) : (memWrite addr bytes s).acc = s.acc := rfl
@[simp] theorem memWrite_stage (addr : Nat) (bytes : List Byte) (s : State) :
    (memWrite addr bytes s).stage = s.stage := rfl
@[simp] theorem memWrite_mem (addr : Nat) (bytes : List Byte) (s : State) :
    (memWrite addr bytes s).mem = storeCells s.mem addr bytes := rfl
@[simp] theorem memWrite_foreign (addr : Nat) (bytes : List Byte) (s : State) :
    (memWrite addr bytes s).foreign = s.foreign := rfl
@[simp] theorem memWrite_maySuspend (addr : Nat) (bytes : List Byte) (s : State) :
    (memWrite addr bytes s).maySuspend = s.maySuspend := rfl
@[simp] theorem memWrite_queue (addr : Nat) (bytes : List Byte) (s : State) :
    (memWrite addr bytes s).queue = s.queue := rfl
@[simp] theorem memWrite_pinAnswers (addr : Nat) (bytes : List Byte) (s : State) :
    (memWrite addr bytes s).pinAnswers = s.pinAnswers := rfl
@[simp] theorem memWrite_spiAnswers (addr : Nat) (bytes : List Byte) (s : State) :
    (memWrite addr bytes s).spiAnswers = s.spiAnswers := rfl
@[simp] theorem memWrite_draws (addr : Nat) (bytes : List Byte) (s : State) :
    (memWrite addr bytes s).draws = s.draws := rfl
@[simp] theorem memWrite_trace (addr : Nat) (bytes : List Byte) (s : State) :
    (memWrite addr bytes s).trace = s.trace := rfl
@[simp] theorem memWrite_wire (addr : Nat) (bytes : List Byte) (s : State) :
    (memWrite addr bytes s).wire = s.wire := rfl
@[simp] theorem memWrite_responses (addr : Nat) (bytes : List Byte) (s : State) :
    (memWrite addr bytes s).responses = s.responses := rfl

/-! ### `pinWrite` -/

@[simp] theorem pinWrite_cfg (p : Pin) (b : Bool) (s : State) : (pinWrite p b s).cfg = s.cfg := rfl
@[simp] theorem pinWrite_prev (p : Pin) (b : Bool) (s : State) : (pinWrite p b s).prev = s.prev := rfl
@[simp] theorem pinWrite_latch (p : Pin) (b : Bool) (s : State) :
    (pinWrite p b s).latch = Cells.write false s.latch p.id b := rfl
@[simp] theorem pinWrite_scratch (p : Pin) (b : Bool) (s : State) : (pinWrite p b s).scratch = s.scratch := rfl
@[simp] theorem pinWrite_seq (p : Pin) (b : Bool) (s : State) : (pinWrite p b s).seq = s.seq := rfl
@[simp] theorem pinWrite_op (p : Pin) (b : Bool) (s : State) : (pinWrite p b s).op = s.op := rfl
@[simp] theorem pinWrite_addr (p : Pin) (b : Bool) (s : State) : (pinWrite p b s).addr = s.addr := rfl
@[simp] theorem pinWrite_len (p : Pin) (b : Bool) (s : State) : (pinWrite p b s).len = s.len := rfl
@[simp] theorem pinWrite_acc (p : Pin) (b : Bool) (s : State) : (pinWrite p b s).acc = s.acc := rfl
@[simp] theorem pinWrite_stage (p : Pin) (b : Bool) (s : State) : (pinWrite p b s).stage = s.stage := rfl
@[simp] theorem pinWrite_mem (p : Pin) (b : Bool) (s : State) : (pinWrite p b s).mem = s.mem := rfl
@[simp] theorem pinWrite_foreign (p : Pin) (b : Bool) (s : State) : (pinWrite p b s).foreign = s.foreign := rfl
@[simp] theorem pinWrite_maySuspend (p : Pin) (b : Bool) (s : State) :
    (pinWrite p b s).maySuspend = s.maySuspend := rfl
@[simp] theorem pinWrite_queue (p : Pin) (b : Bool) (s : State) : (pinWrite p b s).queue = s.queue := rfl
@[simp] theorem pinWrite_pinAnswers (p : Pin) (b : Bool) (s : State) :
    (pinWrite p b s).pinAnswers = s.pinAnswers := rfl
@[simp] theorem pinWrite_spiAnswers (p : Pin) (b : Bool) (s : State) :
    (pinWrite p b s).spiAnswers = s.spiAnswers := rfl
@[simp] theorem pinWrite_draws (p : Pin) (b : Bool) (s : State) : (pinWrite p b s).draws = s.draws := rfl
@[simp] theorem pinWrite_trace (p : Pin) (b : Bool) (s : State) :
    (pinWrite p b s).trace = s.trace ++ [.pw p.id b (pinPath p)] := rfl
@[simp] theorem pinWrite_wire (p : Pin) (b : Bool) (s : State) : (pinWrite p b s).wire = s.wire := rfl
@[simp] theorem pinWrite_responses (p : Pin) (b : Bool) (s : State) : (pinWrite p b s).responses = s.responses := rfl

/-! ### `pinRead` -/

@[simp] theorem pinRead_cfg (p : Pin) (s : State) : (pinRead p s).2.cfg = s.cfg := rfl
@[simp] theorem pinRead_prev (p : Pin) (s : State) : (pinRead p s).2.prev = s.prev := rfl
@[simp] theorem pinRead_latch (p : Pin) (s : State) : (pinRead p s).2.latch = s.latch := rfl
@[simp] theorem pinRead_scratch (p : Pin) (s : State) : (pinRead p s).2.scratch = s.scratch := rfl
@[simp] theorem pinRead_seq (p : Pin) (s : State) : (pinRead p s).2.seq = s.seq := rfl
@[simp] theorem pinRead_op (p : Pin) (s : State) : (pinRead p s).2.op = s.op := rfl
@[simp] theorem pinRead_addr (p : Pin) (s : State) : (pinRead p s).2.addr = s.addr := rfl
@[simp] theorem pinRead_len (p : Pin) (s : State) : (pinRead p s).2.len = s.len := rfl
@[simp] theorem pinRead_acc (p : Pin) (s : State) : (pinRead p s).2.acc = s.acc := rfl
@[simp] theorem pinRead_stage (p : Pin) (s : State) : (pinRead p s).2.stage = s.stage := rfl
@[simp] theorem pinRead_mem (p : Pin) (s : State) : (pinRead p s).2.mem = s.mem := rfl
@[simp] theorem pinRead_foreign (p : Pin) (s : State) : (pinRead p s).2.foreign = s.foreign := rfl
@[simp] theorem pinRead_maySuspend (p : Pin) (s : State) : (pinRead p s).2.maySuspend = s.maySuspend := rfl
@[simp] theorem pinRead_queue (p : Pin) (s : State) : (pinRead p s).2.queue = s.queue := rfl
@[simp] theorem pinRead_pinAnswers (p : Pin) (s : State) : (pinRead p s).2.pinAnswers = s.pinAnswers.tail := rfl
@[simp] theorem pinRead_spiAnswers (p : Pin) (s : State) : (pinRead p s).2.spiAnswers = s.spiAnswers := rfl
@[simp] theorem pinRead_draws (p : Pin) (s : State) : (pinRead p s).2.draws = s.draws + 1 := rfl
@[simp] theorem pinRead_trace (p : Pin) (s : State) :
    (pinRead p s).2.trace = s.trace ++ [.pr p.id (levelAt s 0) (pinPath p)] := rfl
@[simp] theorem pinRead_wire (p : Pin) (s : State) : (pinRead p s).2.wire = s.wire := rfl
@[simp] theorem pinRead_responses (p : Pin) (s : State) : (pinRead p s).2.responses = s.responses := rfl

/-! ### `delay` -/

@[simp] theorem delay_cfg (n : Nat) (s : State) : (delay n s).cfg = s.cfg := rfl
@[simp] theorem delay_prev (n : Nat) (s : State) : (delay n s).prev = s.prev := rfl
@[simp] theorem delay_latch (n : Nat) (s : State) : (delay n s).latch = s.latch := rfl
@[simp] theorem delay_scratch (n : Nat) (s : State) : (delay n s).scratch = s.scratch := rfl
@[simp] theorem delay_seq (n : Nat) (s : State) : (delay n s).seq = s.seq := rfl
@[simp] theorem delay_op (n : Nat) (s : State) : (delay n s).op = s.op := rfl
@[simp] theorem delay_addr (n : Nat) (s : State) : (delay n s).addr = s.addr := rfl
@[simp] theorem delay_len (n : Nat) (s : State) : (delay n s).len = s.len := rfl
@[simp] theorem delay_acc (n : Nat) (s : State) : (delay n s).acc = s.acc := rfl
@[simp] theorem delay_stage (n : Nat) (s : State) : (delay n s).stage = s.stage := rfl
@[simp] theorem delay_mem (n : Nat) (s : State) : (delay n s).mem = s.mem := rfl
@[simp] theorem delay_foreign (n : Nat) (s : State) : (delay n s).foreign = s.foreign := rfl
@[simp] theorem delay_maySuspend (n : Nat) (s : State) : (delay n s).maySuspend = s.maySuspend := rfl
@[simp] theorem delay_queue (n : Nat) (s : State) : (delay n s).queue = s.queue := rfl
@[simp] theorem delay_pinAnswers (n : Nat) (s : State) : (delay n s).pinAnswers = s.pinAnswers := rfl
@[simp] theorem delay_spiAnswers (n : Nat) (s : State) : (delay n s).spiAnswers = s.spiAnswers := rfl
@[simp] theorem delay_draws (n : Nat) (s : State) : (delay n s).draws = s.draws := rfl
@[simp] theorem delay_trace (n : Nat) (s : State) : (delay n s).trace = s.trace ++ [.dly n] := rfl
@[simp] theorem delay_wire (n : Nat) (s : State) : (delay n s).wire = s.wire := rfl
@[simp] theorem delay_responses (n : Nat) (s : State) : (delay n s).responses = s.responses := rfl

/-! ### `afterXfer` -/

@[simp] theorem afterXfer_cfg (spec : SpiSpec) (s : State) : (afterXfer spec s).cfg = s.cfg := rfl
@[simp] theorem afterXfer_prev (spec : SpiSpec) (s : State) : (afterXfer spec s).prev = s.prev := rfl
@[simp] theorem afterXfer_latch (spec : SpiSpec) (s : State) : (afterXfer spec s).latch = s.latch := rfl
@[simp] theorem afterXfer_scratch (spec : SpiSpec) (s : State) : (afterXfer spec s).scratch = s.scratch := rfl
@[simp] theorem afterXfer_seq (spec : SpiSpec) (s : State) : (afterXfer spec s).seq = s.seq := rfl
@[simp] theorem afterXfer_op (spec : SpiSpec) (s : State) : (afterXfer spec s).op = s.op := rfl
@[simp] theorem afterXfer_addr (spec : SpiSpec) (s : State) : (afterXfer spec s).addr = s.addr := rfl
@[simp] theorem afterXfer_len (spec : SpiSpec) (s : State) : (afterXfer spec s).len = s.len := rfl
@[simp] theorem afterXfer_acc (spec : SpiSpec) (s : State) : (afterXfer spec s).acc = s.acc := rfl
@[simp] theorem afterXfer_stage (spec : SpiSpec) (s : State) : (afterXfer spec s).stage = s.stage := rfl
@[simp] theorem afterXfer_mem (spec : SpiSpec) (s : State) : (afterXfer spec s).mem = s.mem := rfl
@[simp] theorem afterXfer_foreign (spec : SpiSpec) (s : State) : (afterXfer spec s).foreign = s.foreign := rfl
@[simp] theorem afterXfer_maySuspend (spec : SpiSpec) (s : State) :
    (afterXfer spec s).maySuspend = s.maySuspend := rfl
@[simp] theorem afterXfer_queue (spec : SpiSpec) (s : State) : (afterXfer spec s).queue = s.queue := rfl
@[simp] theorem afterXfer_pinAnswers (spec : SpiSpec) (s : State) :
    (afterXfer spec s).pinAnswers = s.pinAnswers := rfl
@[simp] theorem afterXfer_spiAnswers (spec : SpiSpec) (s : State) :
    (afterXfer spec s).spiAnswers = s.spiAnswers.tail := rfl
@[simp] theorem afterXfer_draws (spec : SpiSpec) (s : State) : (afterXfer spec s).draws = s.draws + 1 := rfl
@[simp] theorem afterXfer_trace (spec : SpiSpec) (s : State) :
    (afterXfer spec s).trace = s.trace ++ [spiEvent spec s] := rfl
@[simp] theorem afterXfer_wire (spec : SpiSpec) (s : State) :
    (afterXfer spec s).wire = s.wire ++ wirePulses s.cfg spec (nextRx s spec.len) s.draws (nextShifted s spec.len) := rfl
@[simp] theorem afterXfer_responses (spec : SpiSpec) (s : State) : (afterXfer spec s).responses = s.responses := rfl

/-! ### `packGroup` -/

@[simp] theorem packGroup_cfg (addr g : Nat) (s : State) : (packGroup addr g s).cfg = s.cfg := rfl
@[simp] theorem packGroup_prev (addr g : Nat) (s : State) : (packGroup addr g s).prev = s.prev := rfl
@[simp] theorem packGroup_latch (addr g : Nat) (s : State) : (packGroup addr g s).latch = s.latch := rfl
@[simp] theorem packGroup_scratch (addr g : Nat) (s : State) :
    (packGroup addr g s).scratch = storeBytes s.scratch (s.cfg.groupBytes * g)
      (groupOutput s.cfg.groupWords (groupWord addr g s)) := rfl
@[simp] theorem packGroup_seq (addr g : Nat) (s : State) : (packGroup addr g s).seq = s.seq := rfl
@[simp] theorem packGroup_op (addr g : Nat) (s : State) : (packGroup addr g s).op = s.op := rfl
@[simp] theorem packGroup_addr (addr g : Nat) (s : State) : (packGroup addr g s).addr = s.addr := rfl
@[simp] theorem packGroup_len (addr g : Nat) (s : State) : (packGroup addr g s).len = s.len := rfl
@[simp] theorem packGroup_acc (addr g : Nat) (s : State) :
    (packGroup addr g s).acc = packAcc s.cfg.groupWords (groupWord addr g s) := rfl
@[simp] theorem packGroup_stage (addr g : Nat) (s : State) : (packGroup addr g s).stage = s.stage := rfl
@[simp] theorem packGroup_mem (addr g : Nat) (s : State) : (packGroup addr g s).mem = s.mem := rfl
@[simp] theorem packGroup_foreign (addr g : Nat) (s : State) : (packGroup addr g s).foreign = s.foreign := rfl
@[simp] theorem packGroup_maySuspend (addr g : Nat) (s : State) :
    (packGroup addr g s).maySuspend = s.maySuspend := rfl
@[simp] theorem packGroup_queue (addr g : Nat) (s : State) : (packGroup addr g s).queue = s.queue := rfl
@[simp] theorem packGroup_pinAnswers (addr g : Nat) (s : State) :
    (packGroup addr g s).pinAnswers = s.pinAnswers := rfl
@[simp] theorem packGroup_spiAnswers (addr g : Nat) (s : State) :
    (packGroup addr g s).spiAnswers = s.spiAnswers := rfl
@[simp] theorem packGroup_draws (addr g : Nat) (s : State) : (packGroup addr g s).draws = s.draws := rfl
@[simp] theorem packGroup_trace (addr g : Nat) (s : State) : (packGroup addr g s).trace = s.trace := rfl
@[simp] theorem packGroup_wire (addr g : Nat) (s : State) : (packGroup addr g s).wire = s.wire := rfl
@[simp] theorem packGroup_responses (addr g : Nat) (s : State) : (packGroup addr g s).responses = s.responses := rfl

end Sys2Proof.Machine
end

