-- ==== Sys2Proof/Laws/Ops.lean ====
section
/-! SUPPORT. What the shared operations do, said once: bus activity as a list of events, the guard, the precondition
failure, admission and the request check. -/

namespace Sys2Proof.Machine

open Sys2Proof.Safety

/-- A state after some bus events: the trace grows and the latches follow the pin writes. -/
def emits (evs : List Event) (s : State) : State :=
  { s with trace := s.trace ++ evs, latch := replay s.latch evs }

@[simp] theorem replay_nil (l : List (Nat × Bool)) : replay l [] = l := rfl
@[simp] theorem replay_cons (l : List (Nat × Bool)) (e : Event) (es : List Event) :
    replay l (e :: es) = replay (latchAfter l e) es := rfl
@[simp] theorem replay_append (l : List (Nat × Bool)) (es fs : List Event) :
    replay l (es ++ fs) = replay (replay l es) fs := List.foldl_append

@[simp] theorem emits_nil (s : State) : emits [] s = s := by simp [emits]
@[simp] theorem emits_emits (es fs : List Event) (s : State) :
    emits fs (emits es s) = emits (es ++ fs) s := by simp [emits]

theorem pinWrite_eq (p : Pin) (b : Bool) (s : State) : pinWrite p b s = emits [pw p b] s := rfl
theorem delay_eq (n : Nat) (s : State) : delay n s = emits [.dly n] s := rfl

@[simp] theorem emits_cfg (evs : List Event) (s : State) : (emits evs s).cfg = s.cfg := rfl
@[simp] theorem emits_prev (evs : List Event) (s : State) : (emits evs s).prev = s.prev := rfl
@[simp] theorem emits_mem (evs : List Event) (s : State) : (emits evs s).mem = s.mem := rfl
@[simp] theorem emits_scratch (evs : List Event) (s : State) : (emits evs s).scratch = s.scratch := rfl
@[simp] theorem emits_stage (evs : List Event) (s : State) : (emits evs s).stage = s.stage := rfl
@[simp] theorem emits_trace (evs : List Event) (s : State) : (emits evs s).trace = s.trace ++ evs := rfl
@[simp] theorem emits_latch (evs : List Event) (s : State) : (emits evs s).latch = replay s.latch evs := rfl
@[simp] theorem emits_draws (evs : List Event) (s : State) : (emits evs s).draws = s.draws := rfl
@[simp] theorem emits_pinAnswers (evs : List Event) (s : State) : (emits evs s).pinAnswers = s.pinAnswers := rfl
@[simp] theorem emits_spiAnswers (evs : List Event) (s : State) : (emits evs s).spiAnswers = s.spiAnswers := rfl

/-! ### The level of a pin after some events -/

/-- Events that do not write a pin leave its latch. -/
theorem level_replay_of_not_written {pin : Nat} {evs : List Event} (h : ∀ e ∈ evs, writesPin pin e = false)
    (l : List (Nat × Bool)) : level (replay l evs) pin = level l pin := by
  induction evs generalizing l with
  | nil => rfl
  | cons e es ih =>
    rw [replay_cons, ih fun e' he' => h e' (by simp [he'])]
    have he := h e (by simp)
    cases e with
    | pw p b path =>
      have hne : pin ≠ p := fun hp => by simp [writesPin, hp] at he
      exact Cells.read_write_other _ _ hne
    | _ => rfl

@[simp] theorem level_latchAfter_pw (l : List (Nat × Bool)) (p : Pin) (b : Bool) (pin : Nat) :
    level (latchAfter l (pw p b)) pin = if pin = p.id then b else level l pin := by
  simp [level, latchAfter, pw, Cells.read_write]

theorem latch_wf_replay {l : List (Nat × Bool)} (h : Latch.wf l) (evs : List Event) : Latch.wf (replay l evs) := by
  induction evs generalizing l with
  | nil => exact h
  | cons e es ih =>
    cases e with
    | pw p b path => exact ih (Cells.wf_write h p b)
    | _ => exact ih h

/-! ### Guard and precondition failure -/

/-- A body that emits some events and ends with a result, inside the guard: the guard's events enclose the body's. The
body is described from its own start state on, as `f`. -/
theorem withChipSelect_none {s : State} (h : s.cfg.chipSelectLine = none)
    (body : State → Except Fault (Response × State)) : withChipSelect body s = body s := by
  simp [withChipSelect, h]

theorem withChipSelect_some {s : State} {cs : Pin} (h : s.cfg.chipSelectLine = some cs)
    (body : State → Except Fault (Response × State)) :
    withChipSelect body s =
      match body (emits [pw cs false] s) with
      | .ok (r, t) => .ok (r, emits [pw cs true] t)
      | .error f => .error f := by
  rw [withChipSelect, h]
  rfl

/-- The guard opened: chip-select low where there is one (R89). -/
def openCs (s : State) : State :=
  match s.cfg.chipSelectLine with
  | none => s
  | some cs => emits [pw cs false] s

/-- The guard closed: chip-select high where there is one (R89). -/
def closeCs (cfg : Cfg) (s : State) : State :=
  match cfg.chipSelectLine with
  | none => s
  | some cs => emits [pw cs true] s

/-- The guard, said once: open, body, close, with the body's result. -/
theorem withChipSelect_eq (body : State → Except Fault (Response × State)) (s : State) :
    withChipSelect body s =
      match body (openCs s) with
      | .ok (r, t) => .ok (r, closeCs s.cfg t)
      | .error f => .error f := by
  cases h : s.cfg.chipSelectLine with
  | none =>
    rw [withChipSelect_none h, openCs, h]
    cases hb : body s with
    | error f => rfl
    | ok p => cases p; simp [closeCs, h]
  | some cs => simp [withChipSelect_some h, openCs, closeCs, h]

/-- A body that only emits events, inside the guard. -/
theorem closeCs_emits_openCs (evs : List Event) (s : State) :
    closeCs s.cfg (emits evs (openCs s)) = emits (guarded s.cfg evs) s := by
  cases h : s.cfg.chipSelectLine <;> simp [closeCs, openCs, guarded, h]

/-- A precondition failure: the error is the response, and only where `PRECHECK_BEFORE_CS` is off the empty guard shows. -/
theorem precheckFails_eq (e : IoError) (s : State) :
    precheckFails e s =
      .next (raise e (emits (if s.cfg.precheckBeforeCs then [] else guarded s.cfg []) s)) := by
  unfold precheckFails
  split
  · simp
  · rw [withChipSelect_eq]
    have := closeCs_emits_openCs [] s
    simp only [emits_nil] at this
    simp [finish, raise, this]

/-! ### Admission -/

theorem contextAdmits_iff {used : List Pin} {s : State} :
    contextAdmits used s = true ↔ s.maySuspend = true ∨ ∀ p ∈ used, p.maySleep = false := by
  cases h : s.maySuspend <;> simp [contextAdmits, h]

theorem lineCountOk_iff {c : Cfg} :
    lineCountOk c = true ↔ c.dataLines.length = 8 ∨ c.dataLines.length = 16 ∨ c.dataLines.length = 0 := by
  simp [lineCountOk, or_assoc]

/-- A command is admitted exactly under the premises of `Admitted`. -/
theorem admission_eq_none {used : List Pin} {s : State} : admission used s = none ↔ Admitted used s := by
  unfold admission Admitted
  rw [← contextAdmits_iff, ← lineCountOk_iff]
  have hd : pinsDistinct s.cfg = true ↔ ((configPins s.cfg).map Pin.id).Nodup := by simp [pinsDistinct]
  rw [← hd]
  cases s.seq <;> cases lineCountOk s.cfg <;> cases pinsDistinct s.cfg <;> cases contextAdmits used s <;> simp

theorem Region.meets_iff (r : Region) (addr len : Nat) :
    Region.meets r addr len = true ↔ ∃ a, addr ≤ a ∧ a < addr + len ∧ r.base ≤ a ∧ a < r.base + r.size := by
  unfold Region.meets
  simp only [Bool.and_eq_true, decide_eq_true_eq]
  constructor
  · rintro ⟨⟨⟨h1, h2⟩, h3⟩, h4⟩
    exact ⟨max addr r.base, by omega, by omega, by omega, by omega⟩
  · rintro ⟨a, h1, h2, h3, h4⟩
    omega

/-- A request is refused exactly where it is not one of `RequestOk`. -/
theorem requestRefusal_eq_none {addr len : Nat} {s : State} :
    requestRefusal addr len s = none ↔ RequestOk addr len s := by
  unfold requestRefusal RequestOk
  split
  · next h => simp; omega
  · next h =>
    have h' : addr + len ≤ 2 ^ s.cfg.aw := by omega
    constructor
    · intro hf
      refine ⟨h', fun r hr a h1 h2 h3 => ?_⟩
      have hm := (Region.meets_iff r addr len).2 ⟨a, h1, h2, h3.1, h3.2⟩
      have : s.foreign.any (fun r => Region.meets r addr len) = true := List.any_eq_true.2 ⟨r, hr, hm⟩
      simp [this] at hf
    · rintro ⟨-, hf⟩
      have : s.foreign.any (fun r => Region.meets r addr len) = false := by
        rw [List.any_eq_false]
        intro r hr hm
        obtain ⟨a, h1, h2, h3, h4⟩ := (Region.meets_iff r addr len).1 hm
        exact hf r hr a h1 h2 ⟨h3, h4⟩
      simp [this]

/-! ### The SPI transfer -/

/-- A free status is never positive (R101). -/
theorem nonPositive_le (v : BitVec 32) : (nonPositive v).toInt ≤ 0 := by
  unfold nonPositive
  split
  · next h =>
    have hv : 0 < v.toInt := by simpa [BitVec.slt] using h
    have hm : v ≠ BitVec.intMin 32 := by
      rintro rfl
      revert hv; decide
    rw [BitVec.toInt_neg_of_ne_intMin hm]
    omega
  · next h => simpa [BitVec.slt] using h

/-- A status code of the width R7 gives is the environment's own. -/
@[simp] theorem statusOf_of_statusW {cfg : Cfg} (h : cfg.statusW = 32) (v : BitVec 32) : statusOf cfg v = v := by
  unfold statusOf
  generalize cfg.statusW = w at h
  subst h
  simp

/-- The answered status is not positive unless the environment has fixed a positive one (R101, U8). -/
theorem nextStatus_le {s : State} (h : positiveStatus s = none) : (nextStatus s).toInt ≤ 0 := by
  unfold positiveStatus at h
  unfold nextStatus
  split at h
  · next hs => simpa [hs] using nonPositive_le _
  · next a as hs =>
    split at h
    · simp at h
    · next hp => simpa [hs, BitVec.slt] using hp

@[simp] theorem nextRx_length (s : State) (n : Nat) : (nextRx s n).length = n := by simp [nextRx]
@[simp] theorem memRead_length (s : State) (a n : Nat) : (memRead s a n).length = n := by simp [memRead]

end Sys2Proof.Machine
end

