-- ==== Sys2Proof/Laws/GpioWrite.lean ====
section
/-! SUPPORT. What the write cycles do, said once: the events of R121, and `PREV`. -/

namespace Sys2Proof.Machine

open Sys2Proof.Safety

theorem writeLines_eq (w : Word) (touched : Nat → Bool) (i : Nat) (ps : List Pin) (s : State) :
    writeLines w touched i ps s =
      emits (((ps.zipIdx i).filter fun c => touched c.2).map fun c => pw c.1 (w.getLsbD c.2)) s := by
  induction ps generalizing i s with
  | nil => simp [writeLines]
  | cons p ps ih =>
    rw [writeLines, ih, List.zipIdx_cons]
    by_cases h : touched i = true
    · simp [h, pinWrite_eq]
    · simp [h]

theorem driveLines_eq (wr : Pin) (w : Word) (s : State) :
    driveLines wr w s = emits (dataEvents s.cfg wr s.prev w) s := by
  unfold driveLines dataEvents
  cases s.cfg.skipOpt with
  | enabled =>
    by_cases hw : w = s.prev
    · simp [hw, pinWrite_eq]
    · simp [hw, writeLines_eq, lineEvents]
  | disabled => simp [writeLines_eq, lineEvents]

/-- One write cycle: the events of R121 on the word before and the word sent, then `PREV`. -/
theorem writeWord_eq (wr : Pin) (s : State) (w : Word) :
    writeWord wr s w = { emits (cycleEvents s.cfg wr s.prev w) s with prev := w } := by
  unfold writeWord
  rw [driveLines_eq, pinWrite_eq, pinWrite_eq, emits_emits, emits_emits]
  rfl

@[simp] theorem lastWord_nil (prev : Word) : lastWord prev [] = prev := rfl
@[simp] theorem lastWord_cons (prev w : Word) (ws : List Word) : lastWord prev (w :: ws) = lastWord w ws := by
  cases ws <;> simp [lastWord, List.getLast?_cons]

/-- The write cycles of a list of words. -/
theorem writeWords_eq (wr : Pin) (ws : List Word) (s : State) :
    writeWords wr ws s = { emits (burstEvents s.cfg wr s.prev ws) s with prev := lastWord s.prev ws } := by
  induction ws generalizing s with
  | nil => simp [writeWords, burstEvents, emits]
  | cons w ws ih =>
    have : writeWords wr (w :: ws) s = writeWords wr ws (writeWord wr s w) := rfl
    rw [this, ih, writeWord_eq]
    simp [emits, burstEvents]

/-- A GPIO write command admitted on its bus, said once. -/
theorem gpioWrite_eq {w : Nat} {op : BitVec 8} {addr len : Nat} {ws : List Word} {s : State} {wr : Pin}
    (ha : Admitted (gpioPins s) s) (hw : s.cfg.dataLines.length = w) (hs : s.cfg.writeStrobeLine = some wr)
    (hl : len % (w / 8) = 0) (hr : RequestOk addr len s) :
    gpioWrite w op addr len ws s = .next (respond .ok
      { emits (guarded s.cfg (burstEvents s.cfg wr s.prev ws)) (issue op addr len s) with
        prev := lastWord s.prev ws }) := by
  have hg : gpioRefusal w s.cfg.writeStrobeLine addr len s = none := by
    simp [gpioRefusal, hw, hs, hl, requestRefusal_eq_none.2 hr]
  unfold gpioWrite
  rw [admission_eq_none.2 ha, hg, hs]
  simp only [withChipSelect_eq, writeWords_eq, finish]
  cases hc : s.cfg.chipSelectLine <;> simp [openCs, closeCs, guarded, hc, emits]

end Sys2Proof.Machine
end

