-- ==== Sys2Proof/Laws/GpioRead.lean ====
section
/-! SUPPORT. What the read cycles do, said once: the events of R131, the answers they consume, and the words. -/

namespace Sys2Proof.Machine

open Sys2Proof.Safety

/-- A state after `n` pin reads: their answers are consumed. -/
def consumes (n : Nat) (s : State) : State :=
  { s with pinAnswers := s.pinAnswers.drop n, draws := s.draws + n }

theorem levelAt_consumes (n k : Nat) (s : State) : levelAt (consumes n s) k = levelAt s (n + k) := by
  simp [levelAt, consumes, Nat.add_assoc]

@[simp] theorem levelAt_emits (evs : List Event) (s : State) (k : Nat) : levelAt (emits evs s) k = levelAt s k := rfl

theorem pinRead_eq (p : Pin) (s : State) :
    pinRead p s = (levelAt s 0, consumes 1 (emits [.pr p.id (levelAt s 0) (pinPath p)] s)) := by
  simp [pinRead, consumes, emits, replay, latchAfter]

/-- The word `w` with the answers to `n` samples, the first being answer `k`, shifted in at bit 0. -/
def shiftIn (s : State) : Nat → Nat → Word → Word
  | 0, _, w => w
  | n + 1, k, w => shiftIn s n (k + 1) ((w <<< 1) ||| (BitVec.ofBool (levelAt s k)).setWidth 16)

theorem consumes_consumes (m n : Nat) (s : State) : consumes n (consumes m s) = consumes (m + n) s := by
  simp [consumes, Nat.add_assoc]

theorem shiftIn_congr {s t : State} {j : Nat} (h : ∀ k, levelAt t k = levelAt s (j + k)) (n k : Nat) (w : Word) :
    shiftIn t n k w = shiftIn s n (j + k) w := by
  induction n generalizing k w with
  | zero => rfl
  | succ n ih => simp only [shiftIn, ih, h, Nat.add_assoc]

theorem sampleLines_eq (ps : List Pin) (w : Word) (s : State) :
    sampleLines ps w s = (shiftIn s ps.length 0 w,
      consumes ps.length (emits (ps.zipIdx.map fun c => .pr c.1.id (levelAt s c.2) (pinPath c.1)) s)) := by
  induction ps generalizing w s with
  | nil => simp [sampleLines, shiftIn, consumes]
  | cons p ps ih =>
    have hlev : ∀ k, levelAt (consumes 1 (emits [Event.pr p.id (levelAt s 0) (pinPath p)] s)) k = levelAt s (1 + k) :=
      fun k => by rw [levelAt_consumes, levelAt_emits]
    simp only [sampleLines, pinRead_eq, ih]
    refine Prod.ext ?_ ?_
    · simp only [List.length_cons, shiftIn]
      rw [shiftIn_congr hlev]
    · have hz : (ps.zipIdx 1) = ps.zipIdx.map fun c => (c.1, c.2 + 1) :=
        (List.map_snd_add_zipIdx_eq_zipIdx (l := ps) (n := 1) (k := 0)).symm
      simp only [hlev, List.length_cons, List.zipIdx_cons, Nat.zero_add, List.map_cons, hz, List.map_map]
      have hf : (fun c : Pin × Nat => Event.pr c.1.id (levelAt s (1 + c.2)) (pinPath c.1)) =
          (fun c : Pin × Nat => Event.pr c.1.id (levelAt s c.2) (pinPath c.1)) ∘ fun c => (c.1, c.2 + 1) := by
        funext c; simp [Nat.add_comm]
      rw [hf]
      simp [consumes, emits, Nat.add_assoc, Nat.add_comm 1, replay, latchAfter]

/-- Bit `i` of the shifted-in word: one of the samples, or a bit of the word before. -/
theorem getLsbD_shiftIn (s : State) (n k : Nat) (w : Word) (i : Nat) (hi : i < 16) :
    (shiftIn s n k w).getLsbD i = if i < n then levelAt s (k + (n - 1 - i)) else w.getLsbD (i - n) := by
  induction n generalizing k w with
  | zero => simp [shiftIn]
  | succ n ih =>
    rw [shiftIn, ih]
    by_cases h1 : i < n
    · rw [if_pos h1, if_pos (by omega)]
      congr 1; omega
    · by_cases h2 : i = n
      · subst h2
        simp
      · have h3 : ¬ i < n + 1 := by omega
        have h4 : i - n ≠ 0 := by omega
        have h5 : i - n < 16 := by omega
        rw [if_neg h1, if_neg h3]
        have h6 : i - n - 1 = i - (n + 1) := by omega
        simp [h4, h5, h6, BitVec.getLsbD_eq_getElem (by omega : i - (n + 1) < 16)]

theorem getLsbD_wordOfBits (bits : List Bool) (i : Nat) (hi : i < 16) :
    (wordOfBits bits).getLsbD i = bits.getD i false := by
  simp [wordOfBits, hi, BitVec.getLsbD_ofBoolListLE, List.getD]

/-- The word of one read cycle (R131). -/
theorem shiftIn_eq_sampledWord (s : State) (j : Nat) :
    shiftIn s s.cfg.dataLines.length (j * s.cfg.dataLines.length) 0 = sampledWord s j := by
  apply BitVec.eq_of_getLsbD_eq
  intro i hi
  rw [getLsbD_shiftIn _ _ _ _ _ hi, sampledWord, getLsbD_wordOfBits _ _ hi]
  by_cases h : i < s.cfg.dataLines.length
  · simp [h, List.getD]
  · simp [h, List.getD]

/-- One read cycle (R131). -/
theorem readWord_eq (rd : Pin) (s : State) :
    readWord rd s = (sampledWord s 0, consumes s.cfg.dataLines.length (emits (readCycleEvents rd s 0) s)) := by
  have h0 := shiftIn_eq_sampledWord s 0
  simp only [readWord, sampleWord, pinWrite_eq, delay_eq, emits_emits, sampleLines_eq, emits_cfg, levelAt_emits]
  refine Prod.ext ?_ ?_
  · rw [← h0, Nat.zero_mul]
    have : ∀ k, levelAt (emits ([pw rd false] ++ [Event.dly s.cfg.settleDelay]) s) k = levelAt s (0 + k) :=
      fun k => by rw [levelAt_emits, Nat.zero_add]
    simpa using shiftIn_congr this s.cfg.dataLines.length 0 0
  · simp [consumes, emits, readCycleEvents]

theorem sampledWord_congr {s t : State} {n : Nat} (hc : t.cfg = s.cfg)
    (h : ∀ k, levelAt t k = levelAt s (n * s.cfg.dataLines.length + k)) (j : Nat) :
    sampledWord t j = sampledWord s (n + j) := by
  simp only [sampledWord, hc, h, Nat.add_mul, Nat.add_assoc]

theorem readCycleEvents_congr {s t : State} {n : Nat} (rd : Pin) (hc : t.cfg = s.cfg)
    (h : ∀ k, levelAt t k = levelAt s (n * s.cfg.dataLines.length + k)) (j : Nat) :
    readCycleEvents rd t j = readCycleEvents rd s (n + j) := by
  simp only [readCycleEvents, hc, h, Nat.add_mul, Nat.add_assoc]

/-- `n` read cycles (R131, R136). -/
theorem readWords_eq (rd : Pin) (n : Nat) (s : State) :
    readWords rd n s = ((List.range n).map (sampledWord s),
      consumes (n * s.cfg.dataLines.length) (emits ((List.range n).flatMap (readCycleEvents rd s)) s)) := by
  induction n generalizing s with
  | zero => simp [readWords, consumes]
  | succ n ih =>
    have hlev : ∀ k, levelAt (consumes s.cfg.dataLines.length (emits (readCycleEvents rd s 0) s)) k =
        levelAt s (1 * s.cfg.dataLines.length + k) := fun k => by
      rw [levelAt_consumes, levelAt_emits, Nat.one_mul]
    simp only [readWords, readWord_eq rd s, ih]
    have h1 := fun j => sampledWord_congr (s := s) (t := consumes s.cfg.dataLines.length (emits (readCycleEvents rd s 0) s)) rfl hlev j
    have h2 := fun j => readCycleEvents_congr (s := s) (t := consumes s.cfg.dataLines.length (emits (readCycleEvents rd s 0) s)) rd rfl hlev j
    have e1 : sampledWord (consumes s.cfg.dataLines.length (emits (readCycleEvents rd s 0) s)) =
        fun j => sampledWord s (1 + j) := funext h1
    have e2 : readCycleEvents rd (consumes s.cfg.dataLines.length (emits (readCycleEvents rd s 0) s)) =
        fun j => readCycleEvents rd s (1 + j) := funext h2
    refine Prod.ext ?_ ?_
    · simp only [e1, List.range_succ_eq_map, List.map_cons, List.map_map]
      simp [Function.comp_def, Nat.add_comm]
    · simp only [e2, List.range_succ_eq_map, List.flatMap_cons, List.flatMap_map]
      simp [consumes, emits, Nat.add_mul, Nat.add_comm, Nat.add_assoc]

/-- A GPIO read command admitted on its bus, said once. -/
theorem gpioRead_eq {w : Nat} {op : BitVec 8} {addr len : Nat} {toBytes : Word → List Byte} {s : State} {rd : Pin}
    (ha : Admitted (gpioPins s) s) (hw : s.cfg.dataLines.length = w) (hs : s.cfg.readStrobeLine = some rd)
    (hl : len % (w / 8) = 0) (hr : RequestOk addr len s) :
    gpioRead w op addr len toBytes s = .next (respond .ok
      (memWrite addr (((List.range (len / (w / 8))).map (sampledWord s)).flatMap toBytes)
        (consumes (len / (w / 8) * w)
          (emits (guarded s.cfg ((List.range (len / (w / 8))).flatMap (readCycleEvents rd s)))
            (issue op addr len s))))) := by
  have hg : gpioRefusal w s.cfg.readStrobeLine addr len s = none := by
    simp [gpioRefusal, hw, hs, hl, requestRefusal_eq_none.2 hr]
  have h1 : sampledWord (openCs (issue op addr len s)) = sampledWord s := by unfold openCs; split <;> rfl
  have h2 : readCycleEvents rd (openCs (issue op addr len s)) = readCycleEvents rd s := by
    unfold openCs; split <;> rfl
  unfold gpioRead
  rw [admission_eq_none.2 ha, hg, hs]
  simp only [withChipSelect_eq, readBody, readWords_eq, finish, h1, h2]
  cases hc : s.cfg.chipSelectLine <;>
    simp [openCs, closeCs, guarded, hc, hw, emits, memWrite, consumes]

end Sys2Proof.Machine
end

