-- ==== Sys2Proof/Laws/Spi.lean ====
section
/-! SUPPORT. What an SPI transfer does, alone and inside the guard, said once. -/

namespace Sys2Proof.Machine

open Sys2Proof.Safety

/-- A state after one transfer inside the guard: its events, its wire pulses, one answer consumed (R100, R107). -/
def transferred (spec : SpiSpec) (s : State) : State :=
  { emits (guarded s.cfg [spiEvent spec s]) s with
    wire := s.wire ++ wirePulses s.cfg spec (nextRx s spec.len) s.draws (nextShifted s spec.len)
    spiAnswers := s.spiAnswers.tail
    draws := s.draws + 1 }

theorem positiveStatus_openCs (s : State) : positiveStatus (openCs s) = positiveStatus s := by
  unfold openCs; split <;> rfl

theorem nextStatus_openCs (s : State) : nextStatus (openCs s) = nextStatus s := by
  unfold openCs; split <;> rfl

@[simp] theorem openCs_cfg (s : State) : (openCs s).cfg = s.cfg := by
  unfold openCs; split <;> rfl

theorem nextRx_openCs (s : State) (n : Nat) : nextRx (openCs s) n = nextRx s n := by
  unfold openCs; split <;> rfl

theorem nextShifted_openCs (s : State) (n : Nat) : nextShifted (openCs s) n = nextShifted s n := by
  unfold openCs; split <;> rfl

theorem spiEvent_openCs (spec : SpiSpec) (s : State) : spiEvent spec (openCs s) = spiEvent spec s := by
  simp only [spiEvent, nextStatus_openCs, nextRx_openCs]

@[simp] theorem latchAfter_spiEvent (l : List (Nat × Bool)) (spec : SpiSpec) (s : State) :
    latchAfter l (spiEvent spec s) = l := rfl

theorem closeCs_afterXfer (spec : SpiSpec) (s : State) :
    closeCs s.cfg (afterXfer spec (openCs s)) = transferred spec s := by
  simp only [afterXfer, spiEvent_openCs, nextRx_openCs, nextShifted_openCs]
  cases h : s.cfg.chipSelectLine <;> simp [closeCs, openCs, h, transferred, guarded, emits]

/-- The shared write step with a bus handle, where the environment's answer is not a positive status. -/
theorem spiWriteCore_eq {data : List Byte} {bufAddr : Option Nat} {s : State}
    (hb : s.cfg.busHandle.isSome = true) (hp : positiveStatus s = none) :
    spiWriteCore data bufAddr s =
      .next (respond (resultOfStatus (nextStatus s)) (transferred (writeSpec s.cfg data bufAddr) s)) := by
  obtain ⟨h, hh⟩ := Option.isSome_iff_exists.1 hb
  unfold spiWriteCore
  rw [hh]
  simp only [withChipSelect_eq, spiWriteBody, spiXfer, positiveStatus_openCs, hp, nextStatus_openCs, openCs_cfg,
    closeCs_afterXfer, finish]

/-- The shared write step without a bus handle (R107). -/
theorem spiWriteCore_absent {data : List Byte} {bufAddr : Option Nat} {s : State} (hb : s.cfg.busHandle = none) :
    spiWriteCore data bufAddr s = precheckFails .deviceUnavailable s := by
  simp [spiWriteCore, hb]

/-- The shared write step where the environment answers a positive status (R101, U8). -/
theorem spiWriteCore_positive {data : List Byte} {bufAddr : Option Nat} {s : State} {st : BitVec 32}
    (hb : s.cfg.busHandle.isSome = true) (hp : positiveStatus s = some st) :
    spiWriteCore data bufAddr s = .fault (.positiveSpiStatus st) := by
  obtain ⟨h, hh⟩ := Option.isSome_iff_exists.1 hb
  unfold spiWriteCore
  rw [hh]
  simp only [withChipSelect_eq, spiWriteBody, spiXfer, positiveStatus_openCs, hp, finish]

theorem stageRead_openCs (len : Nat) (s : State) : stageRead len (openCs s) = openCs (stageRead len s) := by
  cases hb : s.cfg.startByte <;> cases hc : s.cfg.chipSelectLine <;> simp [stageRead, openCs, hb, hc]
  rfl

@[simp] theorem stageRead_cfg (len : Nat) (s : State) : (stageRead len s).cfg = s.cfg := by
  unfold stageRead; split <;> rfl

/-- The staging buffer keeps its size (R35). -/
@[simp] theorem stageFor_length (c : Cfg) (b : Byte) (len : Nat) : (stageFor c b len).length = c.stageSize := by
  unfold stageFor; split <;> simp

theorem positiveStatus_stageRead (len : Nat) (s : State) : positiveStatus (stageRead len s) = positiveStatus s := by
  unfold stageRead; split <;> rfl

theorem readTx_openCs (len : Nat) (s : State) : readTx len (openCs s) = readTx len s := by
  cases hb : s.cfg.startByte <;> cases hc : s.cfg.chipSelectLine <;> simp [readTx, openCs, hb, hc]

/-- The body of `readSpi` inside the guard, where the environment's answer is not a positive status. -/
theorem readSpi_guarded_eq {addr len : Nat} {s : State} (hp : positiveStatus s = none) :
    finish (withChipSelect (readSpiBody addr len) s) =
      .next (respond (resultOfStatus (nextStatus s))
        (fillRead addr len (nextStatus s) (nextRx s len)
          (transferred (readSpec s.cfg (readTx len (stageRead len s)) len) (stageRead len s)))) := by
  have hclose : ∀ (st : BitVec 32) (rx : List Byte) (t : State),
      closeCs s.cfg (fillRead addr len st rx t) = fillRead addr len st rx (closeCs s.cfg t) := by
    intro st rx t
    unfold fillRead closeCs
    split <;> split <;> rfl
  rw [withChipSelect_eq]
  simp only [readSpiBody, spiXfer, stageRead_openCs, positiveStatus_openCs, positiveStatus_stageRead, hp,
    nextStatus_openCs, readTx_openCs, nextRx_openCs, openCs_cfg, hclose, finish]
  rw [← closeCs_afterXfer, stageRead_cfg]

/-- The body of `readSpi` where the environment answers a positive status (R101, U8). -/
theorem readSpi_guarded_positive {addr len : Nat} {s : State} {st : BitVec 32} (hp : positiveStatus s = some st) :
    finish (withChipSelect (readSpiBody addr len) s) = .fault (.positiveSpiStatus st) := by
  rw [withChipSelect_eq]
  simp only [readSpiBody, spiXfer, stageRead_openCs, positiveStatus_openCs, positiveStatus_stageRead, hp, finish]

end Sys2Proof.Machine
end

