-- ==== Sys2Proof/Laws/Spi9.lean ====
section
/-! SUPPORT. What the packing of 9-bit words leaves, said once: the bits of a group's nine bytes and the scratch buffer. -/

namespace Sys2Proof.Machine

open Sys2Proof.Safety

@[simp] theorem groupOutput_length (n : Nat) (w : Nat → Word) : (groupOutput n w).length = 9 := by simp [groupOutput]

@[simp] theorem storeBytes_length (l : List Byte) (i : Nat) (bs : List Byte) : (storeBytes l i bs).length = l.length := by
  induction bs generalizing l i with
  | nil => rfl
  | cons b bs ih => simp [storeBytes, ih]

/-- What a stored list leaves at every index. -/
theorem getElem?_storeBytes (l : List Byte) (i : Nat) (bs : List Byte) (k : Nat) :
    (storeBytes l i bs)[k]? = if i ≤ k ∧ k < i + bs.length ∧ k < l.length then bs[k - i]? else l[k]? := by
  induction bs generalizing l i with
  | nil => simp [storeBytes]; omega
  | cons b bs ih =>
    rw [storeBytes, ih]
    by_cases h1 : k = i
    · subst h1
      by_cases h2 : k < l.length
      · simp [h2]
      · simp [h2]
    · by_cases h2 : i + 1 ≤ k ∧ k < i + 1 + bs.length ∧ k < l.length
      · obtain ⟨j, hj⟩ : ∃ j, k - i = j + 1 := ⟨k - i - 1, by omega⟩
        have hj' : k - (i + 1) = j := by omega
        have h3 : i ≤ k ∧ k < i + (b :: bs).length ∧ k < l.length := by simp; omega
        simp only [List.length_set]
        rw [if_pos h2, if_pos h3, hj, hj', List.getElem?_cons_succ]
      · have h3 : ¬ (i ≤ k ∧ k < i + (b :: bs).length ∧ k < l.length) := by simp; omega
        simp only [List.length_set]
        rw [if_neg h2, if_neg h3, List.getElem?_set_ne (Ne.symm h1)]

/-- A field assigned to the accumulator. -/
theorem getLsbD_setField {n : Nat} (acc : BitVec 64) (lo : Nat) (v : BitVec n) (i : Nat) (hi : i < 64) :
    (setField acc lo v).getLsbD i = if lo ≤ i ∧ i < lo + n then v.getLsbD (i - lo) else acc.getLsbD i := by
  unfold setField
  simp only [BitVec.getLsbD_or, BitVec.getLsbD_and, BitVec.getLsbD_not, BitVec.getLsbD_shiftLeft,
    BitVec.getLsbD_setWidth, BitVec.getLsbD_allOnes, hi, decide_true, Bool.true_and]
  by_cases h1 : i < lo
  · have : ¬ (lo ≤ i ∧ i < lo + n) := by omega
    simp [h1, this]
  · have h3 : i - lo < 64 := by omega
    by_cases h2 : i < lo + n
    · have h4 : i - lo < n := by omega
      simp [h1, h2, h3, h4, Nat.le_of_not_lt h1]
    · have h4 : ¬ i - lo < n := by omega
      have h5 : v.getLsbD (i - lo) = false := BitVec.getLsbD_of_ge _ _ (by omega)
      simp [h1, h2, h3, h4, h5]

theorem packWord_getLsbD (w : Nat → Word) (acc : BitVec 64) (j i : Nat) (hj : j < 7) (hi : i < 64) :
    (packWord w acc j).getLsbD i =
      if 55 - 9 * j ≤ i ∧ i < 64 - 9 * j then (w j).getLsbD (i - (55 - 9 * j)) else acc.getLsbD i := by
  unfold packWord
  rw [getLsbD_setField _ _ _ _ hi, getLsbD_setField _ _ _ _ hi]
  by_cases h1 : 55 - 9 * j ≤ i ∧ i < 55 - 9 * j + 8
  · have h2 : 55 - 9 * j ≤ i ∧ i < 64 - 9 * j := by omega
    have h3 : i - (55 - 9 * j) < 8 := by omega
    simp [h1, h2, h3, wordPayload]
  · by_cases h2 : i = 63 - 9 * j
    · have h3 : i - (55 - 9 * j) = 8 := by omega
      have h4 : 63 - 9 * j ≤ i ∧ i < 63 - 9 * j + 1 := by omega
      have h5 : 55 - 9 * j ≤ i ∧ i < 64 - 9 * j := by omega
      have h6 : i - (63 - 9 * j) = 0 := by omega
      rw [if_neg h1, if_pos h4, if_pos h5, h3, h6]
      simp [wordFlag]
    · have h4 : ¬ (63 - 9 * j ≤ i ∧ i < 63 - 9 * j + 1) := by omega
      have h5 : ¬ (55 - 9 * j ≤ i ∧ i < 64 - 9 * j) := by omega
      rw [if_neg h1, if_neg h4, if_neg h5]

/-- Bit `63 - n` of a group's accumulator is bit `8 - n mod 9` of word `n / 9` (R114, R115), for all 64 of them. -/
theorem packAcc_getLsbD (w : Nat → Word) (n : Nat) (hn : n < 64) :
    (packAcc 8 w).getLsbD (63 - n) = (w (n / 9)).getLsbD (8 - n % 9) := by
  unfold packAcc
  rw [getLsbD_setField _ _ _ _ (by omega)]
  simp only [show List.range (8 - 1) = [0, 1, 2, 3, 4, 5, 6] from rfl, List.foldl_cons, List.foldl_nil]
  by_cases h : n = 63
  · subst h; simp [wordFlag]
  · have h1 : ¬ (0 ≤ 63 - n ∧ 63 - n < 0 + 1) := by omega
    rw [if_neg h1]
    rw [packWord_getLsbD _ _ 6 _ (by omega) (by omega), packWord_getLsbD _ _ 5 _ (by omega) (by omega),
      packWord_getLsbD _ _ 4 _ (by omega) (by omega), packWord_getLsbD _ _ 3 _ (by omega) (by omega),
      packWord_getLsbD _ _ 2 _ (by omega) (by omega), packWord_getLsbD _ _ 1 _ (by omega) (by omega),
      packWord_getLsbD _ _ 0 _ (by omega) (by omega)]
    have hd : n = 9 * (n / 9) + n % 9 := by omega
    have hq : n / 9 < 7 := by omega
    have hr : n % 9 < 9 := by omega
    generalize n / 9 = q at *
    generalize n % 9 = r at *
    subst hd
    interval_cases q <;>
      (repeat' first
        | rw [if_neg (by omega)]
        | rw [if_pos (by omega)]) <;>
      congr 1 <;> omega

/-- Bit `n` of a group's nine bytes, most significant bit of byte 0 first, is bit `8 - n mod 9` of word `n / 9` (R115). -/
theorem groupOutput_bit (w : Nat → Word) (n : Nat) (hn : n < 72) :
    ((groupOutput 8 w).getD (n / 8) 0).getLsbD (7 - n % 8) = (w (n / 9)).getLsbD (8 - n % 9) := by
  by_cases h : n < 64
  · have h1 : n / 8 < 8 := by omega
    have h2 : 7 - n % 8 < 8 := by omega
    have h3 : 56 - 8 * (n / 8) + (7 - n % 8) = 63 - n := by omega
    rw [← packAcc_getLsbD w n h]
    simp [groupOutput, List.getD, List.getElem?_append, h1, h2, h3]
  · have h1 : n / 8 = 8 := by omega
    have h2 : 7 - n % 8 < 8 := by omega
    have h3 : n / 9 = 7 := by omega
    have h4 : 8 - n % 9 = 7 - n % 8 := by omega
    simp [groupOutput, List.getD, h1, h2, h3, h4, wordPayload]

/-- The state after the packing of `n` groups. -/
theorem packGroups_cfg (addr n : Nat) (s : State) : (packGroups addr n s).cfg = s.cfg := by
  induction n with
  | zero => rfl
  | succ n ih => simp [packGroups, ih]

/-- Packing touches `ACC` and `SCRATCH` alone (R117). -/
theorem packGroups_eq (addr n : Nat) (s : State) :
    packGroups addr n s =
      { s with acc := (packGroups addr n s).acc, scratch := (packGroups addr n s).scratch } := by
  induction n with
  | zero => rfl
  | succ n ih =>
    unfold packGroups packGroup
    rw [ih]

theorem groupWord_packGroups (addr n g : Nat) (s : State) :
    groupWord addr g (packGroups addr n s) = groupWord addr g s := by
  rw [packGroups_eq]; rfl

@[simp] theorem packGroups_scratch_length (addr n : Nat) (s : State) :
    (packGroups addr n s).scratch.length = s.scratch.length := by
  induction n with
  | zero => rfl
  | succ n ih => simp [packGroups, ih]

/-- What packing leaves in `SCRATCH` (R117): nine bytes of each group, and the old bytes past them. -/
theorem packGroups_scratch (addr n : Nat) (s : State) (hg : s.cfg.groupBytes = 9) (k : Nat)
    (hk : k < s.scratch.length) :
    (packGroups addr n s).scratch[k]? =
      if k < 9 * n then (groupOutput s.cfg.groupWords (groupWord addr (k / 9) s))[k % 9]? else s.scratch[k]? := by
  induction n with
  | zero => simp [packGroups]
  | succ n ih =>
    simp only [packGroups, packGroup_scratch, getElem?_storeBytes, groupOutput_length, packGroups_scratch_length,
      groupWord_packGroups, packGroups_cfg, hg]
    by_cases h1 : 9 * n ≤ k ∧ k < 9 * n + 9 ∧ k < s.scratch.length
    · have h2 : k < 9 * (n + 1) := by omega
      have h3 : k / 9 = n := by omega
      have h4 : k % 9 = k - 9 * n := by omega
      rw [if_pos h1, if_pos h2, h3, h4]
    · rw [if_neg h1, ih]
      by_cases h2 : k < 9 * n
      · rw [if_pos h2, if_pos (by omega)]
      · rw [if_neg h2, if_neg (by omega)]

end Sys2Proof.Machine
end

