-- ==== Sys2Proof/Laws/Exec.lean ====
section
/-! SUPPORT. What each command can do, said once: the next state it answers under its premises, and the cases in which it
answers one. -/

namespace Sys2Proof.Machine

open Sys2Proof.Safety

/-! ### The shape `answered` -/

theorem raise_emits_issue (i : Instr) (e : IoError) (evs : List Event) (s : State) :
    raise e (emits evs (issue i.opcode i.addr i.len s)) = answered i (.err e) evs s := rfl

/-- A precondition failure of a command just issued. -/
theorem precheckFails_issue (i : Instr) (e : IoError) (s : State) :
    precheckFails e (issue i.opcode i.addr i.len s) = .next (answered i (.err e) (precheckEvents s.cfg) s) := by
  rw [precheckFails_eq, issue_cfg, raise_emits_issue]
  rfl

/-! ### writeSpi -/

theorem execWriteSpi_absent {addr len : Nat} {s : State} (ha : Admitted (spiPins s) s) (hb : s.cfg.busHandle = none) :
    exec (.writeSpi addr len) s =
      .next (answered (.writeSpi addr len) (.err .deviceUnavailable) (precheckEvents s.cfg) s) := by
  have h := precheckFails_issue (.writeSpi addr len) .deviceUnavailable s
  simp only [exec, execWriteSpi, admission_eq_none.2 ha, hb]
  rw [spiWriteCore_absent (by simpa using hb)]
  exact h

theorem execWriteSpi_sends {addr len : Nat} {s : State} (ha : Admitted (spiPins s) s)
    (hb : s.cfg.busHandle.isSome = true) (hr : RequestOk addr len s) (hp : positiveStatus s = none) :
    exec (.writeSpi addr len) s = .next (respond (resultOfStatus (nextStatus s))
      (transferred (writeSpec s.cfg (memRead s addr len) (some addr)) (issue 0x00 addr len s))) := by
  obtain ⟨h, hh⟩ := Option.isSome_iff_exists.1 hb
  simp only [exec, execWriteSpi, admission_eq_none.2 ha, requestRefusal_eq_none.2 hr, hh]
  have hp' : positiveStatus (issue 0x00 addr len s) = none := hp
  rw [spiWriteCore_eq (by simpa using hb) hp']
  rfl

theorem execWriteSpi_cases {addr len : Nat} {s t : State} (h : exec (.writeSpi addr len) s = .next t) :
    Admitted (spiPins s) s ∧
    ((s.cfg.busHandle = none ∧
        t = answered (.writeSpi addr len) (.err .deviceUnavailable) (precheckEvents s.cfg) s) ∨
      (s.cfg.busHandle.isSome = true ∧ RequestOk addr len s ∧ positiveStatus s = none ∧
        t = respond (resultOfStatus (nextStatus s))
          (transferred (writeSpec s.cfg (memRead s addr len) (some addr)) (issue 0x00 addr len s)))) := by
  cases ha : admission (spiPins s) s with
  | some r => simp [exec, execWriteSpi, ha] at h
  | none =>
    have ha' := admission_eq_none.1 ha
    refine ⟨ha', ?_⟩
    cases hb : s.cfg.busHandle with
    | none =>
      rw [execWriteSpi_absent ha' hb] at h
      exact .inl ⟨rfl, by injection h with h; exact h.symm⟩
    | some v =>
      cases hr : requestRefusal addr len s with
      | some r => simp [exec, execWriteSpi, ha, hb, hr] at h
      | none =>
        have hr' := requestRefusal_eq_none.1 hr
        have hb' : s.cfg.busHandle.isSome = true := by simp [hb]
        cases hp : positiveStatus s with
        | some st =>
          have hp' : positiveStatus (issue 0x00 addr len s) = some st := hp
          simp only [exec, execWriteSpi, ha, hb, hr] at h
          rw [spiWriteCore_positive (by simpa using hb') hp'] at h
          cases h
        | none =>
          rw [execWriteSpi_sends ha' hb' hr' hp] at h
          exact .inr ⟨rfl, hr', rfl, by injection h with h; exact h.symm⟩

/-! ### readSpi -/

theorem stageOverrun_iff {len : Nat} {s : State} :
    stageOverrun len s = true ↔ s.cfg.startByte.isSome = true ∧ s.cfg.stageSize < len := by
  unfold stageOverrun
  rw [Bool.and_eq_true, decide_eq_true_iff]

theorem execReadSpi_absent {addr len : Nat} {s : State} (ha : Admitted (spiPins s) s) (hb : s.cfg.busHandle = none) :
    exec (.readSpi addr len) s =
      .next (answered (.readSpi addr len) (.err .deviceUnavailable) (precheckEvents s.cfg) s) := by
  simp only [exec, execReadSpi, admission_eq_none.2 ha, hb]
  exact precheckFails_issue (.readSpi addr len) .deviceUnavailable s

theorem execReadSpi_overrun {addr len : Nat} {s : State} (ha : Admitted (spiPins s) s)
    (hb : s.cfg.busHandle.isSome = true) (ho : stageOverrun len s = true) :
    exec (.readSpi addr len) s =
      .next (answered (.readSpi addr len) (.err .invalidArgument) (precheckEvents s.cfg) s) := by
  obtain ⟨h, hh⟩ := Option.isSome_iff_exists.1 hb
  simp only [exec, execReadSpi, admission_eq_none.2 ha, hh, ho, if_true]
  exact precheckFails_issue (.readSpi addr len) .invalidArgument s

theorem execReadSpi_fills {addr len : Nat} {s : State} (ha : Admitted (spiPins s) s)
    (hb : s.cfg.busHandle.isSome = true) (ho : stageOverrun len s = false) (hr : RequestOk addr len s)
    (hp : positiveStatus s = none) :
    exec (.readSpi addr len) s = .next (respond (resultOfStatus (nextStatus s))
      (fillRead addr len (nextStatus s) (nextRx s len)
        (transferred (readSpec s.cfg (readTx len (stageRead len (issue 0x01 addr len s))) len)
          (stageRead len (issue 0x01 addr len s))))) := by
  obtain ⟨h, hh⟩ := Option.isSome_iff_exists.1 hb
  have hp' : positiveStatus (issue 0x01 addr len s) = none := hp
  simp only [exec, execReadSpi, admission_eq_none.2 ha, hh, ho, requestRefusal_eq_none.2 hr]
  simp only [Bool.false_eq_true, if_false]
  rw [readSpi_guarded_eq hp']
  rfl

theorem execReadSpi_cases {addr len : Nat} {s t : State} (h : exec (.readSpi addr len) s = .next t) :
    Admitted (spiPins s) s ∧
    ((s.cfg.busHandle = none ∧
        t = answered (.readSpi addr len) (.err .deviceUnavailable) (precheckEvents s.cfg) s) ∨
      (s.cfg.busHandle.isSome = true ∧ stageOverrun len s = true ∧
        t = answered (.readSpi addr len) (.err .invalidArgument) (precheckEvents s.cfg) s) ∨
      (s.cfg.busHandle.isSome = true ∧ stageOverrun len s = false ∧ RequestOk addr len s ∧ positiveStatus s = none ∧
        t = respond (resultOfStatus (nextStatus s))
          (fillRead addr len (nextStatus s) (nextRx s len)
            (transferred (readSpec s.cfg (readTx len (stageRead len (issue 0x01 addr len s))) len)
              (stageRead len (issue 0x01 addr len s)))))) := by
  cases ha : admission (spiPins s) s with
  | some r => simp [exec, execReadSpi, ha] at h
  | none =>
    have ha' := admission_eq_none.1 ha
    refine ⟨ha', ?_⟩
    cases hb : s.cfg.busHandle with
    | none =>
      rw [execReadSpi_absent ha' hb] at h
      exact .inl ⟨rfl, by injection h with h; exact h.symm⟩
    | some v =>
      have hb' : s.cfg.busHandle.isSome = true := by simp [hb]
      cases ho : stageOverrun len s with
      | true =>
        rw [execReadSpi_overrun ha' hb' ho] at h
        exact .inr (.inl ⟨rfl, rfl, by injection h with h; exact h.symm⟩)
      | false =>
        cases hr : requestRefusal addr len s with
        | some r => simp [exec, execReadSpi, ha, hb, hr, ho] at h
        | none =>
          have hr' := requestRefusal_eq_none.1 hr
          cases hp : positiveStatus s with
          | some st =>
            have hp' : positiveStatus (issue 0x01 addr len s) = some st := hp
            simp only [exec, execReadSpi, ha, hb, hr, ho, Bool.false_eq_true, if_false] at h
            rw [readSpi_guarded_positive hp'] at h
            cases h
          | none =>
            rw [execReadSpi_fills ha' hb' ho hr' hp] at h
            exact .inr (.inr ⟨rfl, rfl, hr', rfl, by injection h with h; exact h.symm⟩)

/-! ### writeSpiEmulate9 -/

/-- The state once the groups of a request are packed (R117). -/
def packed (addr len : Nat) (s : State) : State :=
  packGroups addr (groupCount s.cfg len) (issue 0x02 addr len s)

theorem packed_eq (addr len : Nat) (s : State) :
    packed addr len s = { issue 0x02 addr len s with
      acc := (packed addr len s).acc, scratch := (packed addr len s).scratch } := packGroups_eq _ _ _

@[simp] theorem packed_cfg (addr len : Nat) (s : State) : (packed addr len s).cfg = s.cfg := by
  rw [packed_eq]; rfl

theorem execWriteSpiEmulate9_missing {addr len : Nat} {s : State} (ha : Admitted (spiPins s) s)
    (hs : s.cfg.scratchBuffer = none) :
    exec (.writeSpiEmulate9 addr len) s =
      .next (answered (.writeSpiEmulate9 addr len) (.err .missingScratchBuffer) (precheckEvents s.cfg) s) := by
  simp only [exec, execWriteSpiEmulate9, admission_eq_none.2 ha, hs]
  exact precheckFails_issue (.writeSpiEmulate9 addr len) .missingScratchBuffer s

theorem execWriteSpiEmulate9_invalid {addr len cap : Nat} {s : State} (ha : Admitted (spiPins s) s)
    (hs : s.cfg.scratchBuffer = some cap) (hl : len % 8 ≠ 0) :
    exec (.writeSpiEmulate9 addr len) s =
      .next (answered (.writeSpiEmulate9 addr len) (.err .invalidArgument) (precheckEvents s.cfg) s) := by
  simp only [exec, execWriteSpiEmulate9, admission_eq_none.2 ha, hs, if_pos hl]
  exact precheckFails_issue (.writeSpiEmulate9 addr len) .invalidArgument s

theorem emulate9Refusal_eq_none {cap addr len : Nat} {s : State} :
    emulate9Refusal cap addr len s = none ↔
      len % groupSpan s.cfg = 0 ∧ outLen s.cfg len ≤ cap ∧ RequestOk addr len s := by
  unfold emulate9Refusal
  rw [← requestRefusal_eq_none]
  split
  · simp_all
  · split
    · simp; omega
    · simp_all

theorem execWriteSpiEmulate9_packs {addr len cap : Nat} {s : State} (ha : Admitted (spiPins s) s)
    (hs : s.cfg.scratchBuffer = some cap) (hl : len % 8 = 0) (hg : len % groupSpan s.cfg = 0)
    (hc : outLen s.cfg len ≤ cap) (hr : RequestOk addr len s) :
    exec (.writeSpiEmulate9 addr len) s =
      spiWriteCore ((packed addr len s).scratch.take (outLen s.cfg len)) none (packed addr len s) := by
  have hl8 : ¬ len % 8 ≠ 0 := by omega
  have hn := emulate9Refusal_eq_none.2 ⟨hg, hc, hr⟩
  simp only [exec, execWriteSpiEmulate9, admission_eq_none.2 ha, hs, if_neg hl8, hn]
  rw [sendPacked, packGroups_cfg]
  rfl

theorem execWriteSpiEmulate9_cases {addr len : Nat} {s t : State}
    (h : exec (.writeSpiEmulate9 addr len) s = .next t) :
    Admitted (spiPins s) s ∧
    ((s.cfg.scratchBuffer = none ∧
        t = answered (.writeSpiEmulate9 addr len) (.err .missingScratchBuffer) (precheckEvents s.cfg) s) ∨
      ∃ cap, s.cfg.scratchBuffer = some cap ∧
      ((len % 8 ≠ 0 ∧
          t = answered (.writeSpiEmulate9 addr len) (.err .invalidArgument) (precheckEvents s.cfg) s) ∨
        (len % 8 = 0 ∧ len % groupSpan s.cfg = 0 ∧ outLen s.cfg len ≤ cap ∧ RequestOk addr len s ∧
          ((s.cfg.busHandle = none ∧
              t = raise .deviceUnavailable (emits (precheckEvents s.cfg) (packed addr len s))) ∨
            (s.cfg.busHandle.isSome = true ∧ positiveStatus s = none ∧
              t = respond (resultOfStatus (nextStatus s))
                (transferred (writeSpec s.cfg ((packed addr len s).scratch.take (outLen s.cfg len)) none)
                  (packed addr len s))))))) := by
  cases ha : admission (spiPins s) s with
  | some r => simp [exec, execWriteSpiEmulate9, ha] at h
  | none =>
    have ha' := admission_eq_none.1 ha
    refine ⟨ha', ?_⟩
    cases hs : s.cfg.scratchBuffer with
    | none =>
      rw [execWriteSpiEmulate9_missing ha' hs] at h
      exact .inl ⟨rfl, by injection h with h; exact h.symm⟩
    | some cap =>
      refine .inr ⟨cap, rfl, ?_⟩
      by_cases hl : len % 8 ≠ 0
      · rw [execWriteSpiEmulate9_invalid ha' hs hl] at h
        exact .inl ⟨hl, by injection h with h; exact h.symm⟩
      · right
        cases hn : emulate9Refusal cap addr len s with
        | some r => simp [exec, execWriteSpiEmulate9, ha, hs, hl, hn] at h
        | none =>
          obtain ⟨hg, hc, hr⟩ := emulate9Refusal_eq_none.1 hn
          have hl0 : len % 8 = 0 := by omega
          refine ⟨hl0, hg, hc, hr, ?_⟩
          rw [execWriteSpiEmulate9_packs ha' hs hl0 hg hc hr] at h
          cases hb : s.cfg.busHandle with
          | none =>
            left
            rw [spiWriteCore_absent (by simpa using hb), precheckFails_eq, packed_cfg] at h
            exact ⟨rfl, by injection h with h; exact h.symm⟩
          | some v =>
            right
            have hb' : (packed addr len s).cfg.busHandle.isSome = true := by simp [hb]
            have hpp : positiveStatus (packed addr len s) = positiveStatus s := by rw [packed_eq]; rfl
            have hns : nextStatus (packed addr len s) = nextStatus s := by rw [packed_eq]; rfl
            cases hp : positiveStatus s with
            | some st =>
              rw [spiWriteCore_positive hb' (hpp.trans hp)] at h
              cases h
            | none =>
              rw [spiWriteCore_eq hb' (hpp.trans hp), packed_cfg, hns] at h
              exact ⟨rfl, rfl, by injection h with h; exact h.symm⟩

/-- The two lengths of the 9-bit emulation at the values of R7 (R113, R116). -/
theorem groupSpan_eq {c : Cfg} (hv : SourceValues c) : groupSpan c = 16 := by
  simp [groupSpan, hv.2.2.2.2.1]

theorem outLen_eq {c : Cfg} (hv : SourceValues c) (len : Nat) : outLen c len = 9 * (len / 16) := by
  rw [outLen, groupCount, groupSpan_eq hv, hv.2.2.2.2.2.1]

/-! ### GPIO commands -/

theorem gpioRefusal_eq_none {w : Nat} {strobe : Option Pin} {addr len : Nat} {s : State} :
    gpioRefusal w strobe addr len s = none ↔
      s.cfg.dataLines.length = w ∧ strobe.isSome = true ∧ len % (w / 8) = 0 ∧ RequestOk addr len s := by
  unfold gpioRefusal
  rw [← requestRefusal_eq_none]
  split
  · simp_all
  · split
    · simp_all
    · split <;> simp_all [Option.isSome_iff_ne_none]

theorem gpioWrite_cases {w : Nat} {op : BitVec 8} {addr len : Nat} {ws : List Word} {s t : State}
    (h : gpioWrite w op addr len ws s = .next t) :
    ∃ wr, Admitted (gpioPins s) s ∧ s.cfg.dataLines.length = w ∧ s.cfg.writeStrobeLine = some wr ∧
      len % (w / 8) = 0 ∧ RequestOk addr len s ∧
      t = respond .ok { emits (guarded s.cfg (burstEvents s.cfg wr s.prev ws)) (issue op addr len s) with
        prev := lastWord s.prev ws } := by
  cases ha : admission (gpioPins s) s with
  | some r => simp [gpioWrite, ha] at h
  | none =>
    have ha' := admission_eq_none.1 ha
    cases hg : gpioRefusal w s.cfg.writeStrobeLine addr len s with
    | some r => simp [gpioWrite, ha, hg] at h
    | none =>
      obtain ⟨hw, hs, hl, hr⟩ := gpioRefusal_eq_none.1 hg
      obtain ⟨wr, hs⟩ := Option.isSome_iff_exists.1 hs
      rw [gpioWrite_eq ha' hw hs hl hr] at h
      exact ⟨wr, ha', hw, hs, hl, hr, by injection h with h; exact h.symm⟩

theorem gpioRead_cases {w : Nat} {op : BitVec 8} {addr len : Nat} {toBytes : Word → List Byte} {s t : State}
    (h : gpioRead w op addr len toBytes s = .next t) :
    ∃ rd, Admitted (gpioPins s) s ∧ s.cfg.dataLines.length = w ∧ s.cfg.readStrobeLine = some rd ∧
      len % (w / 8) = 0 ∧ RequestOk addr len s ∧
      t = respond .ok
        (memWrite addr (((List.range (len / (w / 8))).map (sampledWord s)).flatMap toBytes)
          (consumes (len / (w / 8) * w)
            (emits (guarded s.cfg ((List.range (len / (w / 8))).flatMap (readCycleEvents rd s)))
              (issue op addr len s)))) := by
  cases ha : admission (gpioPins s) s with
  | some r => simp [gpioRead, ha] at h
  | none =>
    have ha' := admission_eq_none.1 ha
    cases hg : gpioRefusal w s.cfg.readStrobeLine addr len s with
    | some r => simp [gpioRead, ha, hg] at h
    | none =>
      obtain ⟨hw, hs, hl, hr⟩ := gpioRefusal_eq_none.1 hg
      obtain ⟨rd, hs⟩ := Option.isSome_iff_exists.1 hs
      rw [gpioRead_eq ha' hw hs hl hr] at h
      exact ⟨rd, ha', hw, hs, hl, hr, by injection h with h; exact h.symm⟩

theorem alwaysFails_cases {op : BitVec 8} {addr len : Nat} {s t : State} (h : alwaysFails op addr len s = .next t) :
    s.seq = .idle ∧ t = raise .notImplemented (issue op addr len s) := by
  unfold alwaysFails at h
  cases hs : s.seq with
  | busy => simp [hs] at h
  | idle =>
    simp only [hs, reduceCtorEq, if_false] at h
    exact ⟨rfl, by injection h with h; exact h.symm⟩

/-! ### The events of the bus cycles -/

/-- An event of a command's body: legal for the configuration, and not on chip-select. -/
def BodyEvent (cfg : Cfg) (e : Event) : Prop :=
  EventOk cfg e ∧ ∀ cs, cfg.chipSelectLine = some cs → onPin cs.id e = false

theorem bodyEvent_pw {cfg : Cfg} {p : Pin} {b : Bool} (hp : p ∈ configPins cfg)
    (hc : ∀ cs, cfg.chipSelectLine = some cs → p.id ≠ cs.id) : BodyEvent cfg (pw p b) :=
  ⟨⟨p, hp, rfl, rfl⟩, fun cs h => by simpa [onPin, pw] using hc cs h⟩

theorem mem_configPins_cs {cfg : Cfg} {p : Pin} (h : cfg.chipSelectLine = some p) : p ∈ configPins cfg := by
  simp [configPins, h]
theorem mem_configPins_wr {cfg : Cfg} {p : Pin} (h : cfg.writeStrobeLine = some p) : p ∈ configPins cfg := by
  simp [configPins, h]
theorem mem_configPins_rd {cfg : Cfg} {p : Pin} (h : cfg.readStrobeLine = some p) : p ∈ configPins cfg := by
  simp [configPins, h]
theorem mem_configPins_data {cfg : Cfg} {p : Pin} (h : p ∈ cfg.dataLines) : p ∈ configPins cfg := by
  simp [configPins, h]

/-- What distinct lines (R33) say of the roles: chip-select, the strobes and the data lines are different pins. -/
theorem pins_apart {cfg : Cfg} (hd : ((configPins cfg).map Pin.id).Nodup) :
    (∀ cs wr, cfg.chipSelectLine = some cs → cfg.writeStrobeLine = some wr → wr.id ≠ cs.id) ∧
    (∀ cs rd, cfg.chipSelectLine = some cs → cfg.readStrobeLine = some rd → rd.id ≠ cs.id) ∧
    (∀ cs, cfg.chipSelectLine = some cs → ∀ p ∈ cfg.dataLines, p.id ≠ cs.id) ∧
    (∀ wr, cfg.writeStrobeLine = some wr → ∀ p ∈ cfg.dataLines, p.id ≠ wr.id) ∧
    (∀ rd, cfg.readStrobeLine = some rd → ∀ p ∈ cfg.dataLines, p.id ≠ rd.id) ∧
    (cfg.dataLines.map Pin.id).Nodup := by
  simp only [configPins, List.map_append, List.nodup_append] at hd
  obtain ⟨⟨⟨h1, h2, h3⟩, h4, h5⟩, h6, h7⟩ := hd
  refine ⟨?_, ?_, ?_, ?_, ?_, h6⟩
  · intro cs wr hc hw he
    exact h3 cs.id (by simp [hc]) wr.id (by simp [hw]) he.symm
  · intro cs rd hc hr he
    exact h5 cs.id (by simp [hc]) rd.id (by simp [hr]) he.symm
  · intro cs hc p hp he
    exact h7 cs.id (by simp [hc]) p.id (List.mem_map_of_mem hp) he.symm
  · intro wr hw p hp he
    exact h7 wr.id (by simp [hw]) p.id (List.mem_map_of_mem hp) he.symm
  · intro rd hr p hp he
    exact h7 rd.id (by simp [hr]) p.id (List.mem_map_of_mem hp) he.symm

theorem mem_lineEvents {lines : List Pin} {w : Word} {touched : Nat → Bool} {e : Event} :
    e ∈ lineEvents lines w touched ↔ ∃ i p, lines[i]? = some p ∧ touched i = true ∧ e = pw p (w.getLsbD i) := by
  simp only [lineEvents, List.mem_map, List.mem_filter, Prod.exists, List.mem_zipIdx_iff_getElem?]
  constructor
  · rintro ⟨p, i, ⟨h1, h2⟩, rfl⟩
    exact ⟨i, p, h1, h2, rfl⟩
  · rintro ⟨i, p, h1, h2, rfl⟩
    exact ⟨p, i, ⟨h1, h2⟩, rfl⟩

theorem mem_dataEvents {cfg : Cfg} {wr : Pin} {prev w : Word} {e : Event} (h : e ∈ dataEvents cfg wr prev w) :
    e = pw wr false ∨ ∃ p b, p ∈ cfg.dataLines ∧ e = pw p b := by
  unfold dataEvents at h
  split at h
  · split at h
    · exact .inl (by simpa using h)
    · obtain ⟨i, p, h1, -, rfl⟩ := mem_lineEvents.1 h
      exact .inr ⟨p, _, List.mem_of_getElem? h1, rfl⟩
  · obtain ⟨i, p, h1, -, rfl⟩ := mem_lineEvents.1 h
    exact .inr ⟨p, _, List.mem_of_getElem? h1, rfl⟩

/-- The events of write cycles: the strobe and the data lines are written, nothing else (R121). -/
theorem mem_burstEvents {cfg : Cfg} {wr : Pin} {ws : List Word} {prev : Word} {e : Event}
    (h : e ∈ burstEvents cfg wr prev ws) :
    (∃ b, e = pw wr b) ∨ ∃ p b, p ∈ cfg.dataLines ∧ e = pw p b := by
  induction ws generalizing prev with
  | nil => simp [burstEvents] at h
  | cons w ws ih =>
    simp only [burstEvents, cycleEvents, List.mem_append, List.mem_cons, List.not_mem_nil, or_false] at h
    rcases h with (rfl | h | rfl) | h
    · exact .inl ⟨_, rfl⟩
    · rcases mem_dataEvents h with rfl | h
      · exact .inl ⟨_, rfl⟩
      · exact .inr h
    · exact .inl ⟨_, rfl⟩
    · exact ih h

/-- The events of a read cycle: the strobe is written, the delay waited, the data lines read (R131). -/
theorem mem_readCycleEvents {rd : Pin} {s : State} {j : Nat} {e : Event} (h : e ∈ readCycleEvents rd s j) :
    (∃ b, e = pw rd b) ∨ e = .dly s.cfg.settleDelay ∨ ∃ p b, p ∈ s.cfg.dataLines ∧ e = .pr p.id b (pinPath p) := by
  simp only [readCycleEvents, List.mem_append, List.mem_cons, List.not_mem_nil, or_false, List.mem_map,
    Prod.exists, List.mem_zipIdx_iff_getElem?] at h
  rcases h with rfl | rfl | ⟨p, i, h1, rfl⟩ | rfl
  · exact .inl ⟨_, rfl⟩
  · exact .inr (.inl rfl)
  · exact .inr (.inr ⟨p, _, by simpa using List.mem_of_getElem? h1, rfl⟩)
  · exact .inl ⟨_, rfl⟩

/-- A transfer's event is one the configuration allows (R100, R101). -/
theorem bodyEvent_spi {cfg : Cfg} {spec : SpiSpec} {s : State} (hb : cfg.busHandle.isSome = true)
    (hp : positiveStatus s = none) (ht : ∀ tx, spec.tx = some tx → tx.length = spec.len) :
    BodyEvent cfg (spiEvent spec s) := by
  refine ⟨⟨hb, nextStatus_le hp, ht, ?_, ?_⟩, fun _ _ => rfl⟩
  · intro bytes h
    split at h
    · injection h with h; simp [← h]
    · cases h
  · split <;> simp_all

/-- The transmit bytes of a read within the staging limit are as many as its length (R110). -/
theorem readTx_length {len : Nat} {s : State} (ho : stageOverrun len s = false) {tx : List Byte}
    (h : readTx len (stageRead len s) = some tx) : tx.length = len := by
  cases hb : s.cfg.startByte with
  | none => simp [readTx, hb] at h
  | some b =>
    have hl : len ≤ s.cfg.stageSize := by
      by_contra hc
      have := (stageOverrun_iff (len := len) (s := s)).2 ⟨by simp [hb], by omega⟩
      simp [this] at ho
    simp only [readTx, stageRead_cfg, hb, Option.some.injEq] at h
    subst h
    by_cases h0 : 0 < len <;> simp [stageRead, hb, stageFor, h0, hl]

/-! ### What every command does -/

/-- What every answered command has in common: the operands it records, what it cannot change, its one response, and its
events, which are none or a guarded body of legal events off chip-select. -/
structure Summary (i : Instr) (s t : State) (evs : List Event) (r : Response) : Prop where
  idle : s.seq = .idle
  op : t.op = i.opcode
  addr : t.addr = i.addr
  len : t.len = i.len
  cfg : t.cfg = s.cfg
  foreign : t.foreign = s.foreign
  maySuspend : t.maySuspend = s.maySuspend
  queue : t.queue = s.queue
  seq : t.seq = .idle
  trace : t.trace = s.trace ++ evs
  latch : t.latch = replay s.latch evs
  wire : ∃ w, t.wire = s.wire ++ w
  responses : t.responses = s.responses ++ [r]
  events : evs = [] ∨ ∃ mid, evs = guarded s.cfg mid ∧ ∀ e ∈ mid, BodyEvent s.cfg e
  precheck : isPrecheckError r = true → evs = if i.opcode = 0x05 then [] else precheckEvents s.cfg

theorem summary_answered {i : Instr} {e : IoError} {s : State} (hs : s.seq = .idle) (hi : i.opcode ≠ 0x05) :
    Summary i s (answered i (.err e) (precheckEvents s.cfg) s) (precheckEvents s.cfg) (.err e) where
  idle := hs
  op := rfl
  addr := rfl
  len := rfl
  cfg := rfl
  foreign := rfl
  maySuspend := rfl
  queue := rfl
  seq := rfl
  trace := rfl
  latch := rfl
  wire := ⟨[], (List.append_nil _).symm⟩
  responses := rfl
  events := by
    unfold precheckEvents
    split
    · exact .inl rfl
    · exact .inr ⟨[], rfl, by simp⟩
  precheck := fun _ => by rw [if_neg hi]

theorem isPrecheckError_resultOfStatus (st : BitVec 32) : isPrecheckError (resultOfStatus st) = false := by
  unfold resultOfStatus; split <;> rfl

theorem gpioWrite_bodyEvents {cfg : Cfg} {wr : Pin} {prev : Word} {ws : List Word}
    (hd : ((configPins cfg).map Pin.id).Nodup) (hs : cfg.writeStrobeLine = some wr) :
    ∀ e ∈ burstEvents cfg wr prev ws, BodyEvent cfg e := by
  obtain ⟨h1, -, h3, -, -, -⟩ := pins_apart hd
  intro e he
  rcases mem_burstEvents he with ⟨b, rfl⟩ | ⟨p, b, hp, rfl⟩
  · exact bodyEvent_pw (mem_configPins_wr hs) fun cs hc => h1 cs wr hc hs
  · exact bodyEvent_pw (mem_configPins_data hp) fun cs hc => h3 cs hc p hp

theorem gpioRead_bodyEvents {s : State} {rd : Pin} {n : Nat}
    (hd : ((configPins s.cfg).map Pin.id).Nodup) (hs : s.cfg.readStrobeLine = some rd) :
    ∀ e ∈ (List.range n).flatMap (readCycleEvents rd s), BodyEvent s.cfg e := by
  obtain ⟨-, h2, h3, -, -, -⟩ := pins_apart hd
  intro e he
  obtain ⟨j, -, hj⟩ := List.mem_flatMap.1 he
  rcases mem_readCycleEvents hj with ⟨b, rfl⟩ | rfl | ⟨p, b, hp, rfl⟩
  · exact bodyEvent_pw (mem_configPins_rd hs) fun cs hc => h2 cs rd hc hs
  · exact ⟨rfl, fun _ _ => rfl⟩
  · exact ⟨⟨p, hp, rfl, rfl⟩, fun cs hc => by simpa [onPin] using h3 cs hc p hp⟩

theorem gpioWrite_summary {i : Instr} {w : Nat} {op : BitVec 8} {addr len : Nat} {ws : List Word} {s t : State}
    (h : gpioWrite w op addr len ws s = .next t)
    (ho : op = i.opcode) (ha : addr = i.addr) (hl : len = i.len) : ∃ evs, Summary i s t evs .ok := by
  obtain ⟨wr, had, -, hs, -, -, rfl⟩ := gpioWrite_cases h
  exact ⟨_, ⟨had.1, ho, ha, hl, rfl, rfl, rfl, rfl, rfl, rfl, rfl, ⟨[], (List.append_nil _).symm⟩, rfl,
    .inr ⟨_, rfl, gpioWrite_bodyEvents had.2.2.1 hs⟩, by simp [isPrecheckError]⟩⟩

theorem gpioRead_summary {i : Instr} {w : Nat} {op : BitVec 8} {addr len : Nat} {toBytes : Word → List Byte} {s t : State}
    (h : gpioRead w op addr len toBytes s = .next t)
    (ho : op = i.opcode) (ha : addr = i.addr) (hl : len = i.len) : ∃ evs, Summary i s t evs .ok := by
  obtain ⟨rd, had, -, hs, -, -, rfl⟩ := gpioRead_cases h
  exact ⟨_, ⟨had.1, ho, ha, hl, rfl, rfl, rfl, rfl, rfl, rfl, rfl, ⟨[], (List.append_nil _).symm⟩, rfl,
    .inr ⟨_, rfl, gpioRead_bodyEvents had.2.2.1 hs⟩, by simp [isPrecheckError]⟩⟩

theorem fillRead_eq (addr len : Nat) (st : BitVec 32) (rx : List Byte) (s : State) :
    fillRead addr len st rx s = { s with
      mem := (fillRead addr len st rx s).mem, draws := (fillRead addr len st rx s).draws } := by
  unfold fillRead; split <;> rfl

theorem stageRead_eq (len : Nat) (s : State) :
    stageRead len s = { s with stage := (stageRead len s).stage } := by
  unfold stageRead; split <;> rfl

/-- Every command that answers a next state does what `Summary` says. -/
theorem exec_summary {i : Instr} {s t : State} (h : exec i s = .next t) : ∃ evs r, Summary i s t evs r := by
  cases i with
  | writeSpi addr len =>
    obtain ⟨ha, ⟨-, rfl⟩ | ⟨hb, -, hp, rfl⟩⟩ := execWriteSpi_cases h
    · exact ⟨_, _, summary_answered ha.1 (by simp [Instr.opcode])⟩
    · refine ⟨_, _, ⟨ha.1, rfl, rfl, rfl, rfl, rfl, rfl, rfl, rfl, rfl, rfl, ⟨_, rfl⟩, rfl, .inr ⟨_, rfl, ?_⟩, ?_⟩⟩
      · intro e he
        rw [List.mem_singleton.1 he]
        exact bodyEvent_spi hb hp fun tx htx => by
          simp only [writeSpec, Option.some.injEq] at htx; simp [writeSpec, ← htx]
      · simp [isPrecheckError_resultOfStatus]
  | readSpi addr len =>
    obtain ⟨ha, ⟨-, rfl⟩ | ⟨-, -, rfl⟩ | ⟨hb, ho, -, hp, rfl⟩⟩ := execReadSpi_cases h
    · exact ⟨_, _, summary_answered ha.1 (by simp [Instr.opcode])⟩
    · exact ⟨_, _, summary_answered ha.1 (by simp [Instr.opcode])⟩
    · rw [fillRead_eq, stageRead_eq]
      refine ⟨_, _, ⟨ha.1, rfl, rfl, rfl, rfl, rfl, rfl, rfl, rfl, rfl, rfl, ⟨_, rfl⟩, rfl, .inr ⟨_, rfl, ?_⟩, ?_⟩⟩
      · intro e he
        rw [List.mem_singleton.1 he]
        rw [← stageRead_eq]
        exact bodyEvent_spi hb ((positiveStatus_stageRead len _).trans hp) fun tx htx =>
          readTx_length (s := issue 0x01 addr len s) ho htx
      · simp [isPrecheckError_resultOfStatus]
  | writeSpiEmulate9 addr len =>
    obtain ⟨ha, ⟨-, rfl⟩ | ⟨cap, -, ⟨-, rfl⟩ | ⟨-, -, -, -, ⟨-, rfl⟩ | ⟨hb, hp, rfl⟩⟩⟩⟩ := execWriteSpiEmulate9_cases h
    · exact ⟨_, _, summary_answered ha.1 (by simp [Instr.opcode])⟩
    · exact ⟨_, _, summary_answered ha.1 (by simp [Instr.opcode])⟩
    · rw [packed_eq]
      have := summary_answered (i := .writeSpiEmulate9 addr len) (e := .deviceUnavailable) ha.1 (by simp [Instr.opcode])
      exact ⟨_, _, ⟨ha.1, rfl, rfl, rfl, rfl, rfl, rfl, rfl, rfl, rfl, rfl, ⟨[], (List.append_nil _).symm⟩, rfl, this.events,
        this.precheck⟩⟩
    · rw [packed_eq]
      refine ⟨_, _, ⟨ha.1, rfl, rfl, rfl, rfl, rfl, rfl, rfl, rfl, rfl, rfl, ⟨_, rfl⟩, rfl, .inr ⟨_, rfl, ?_⟩, ?_⟩⟩
      · intro e he
        rw [List.mem_singleton.1 he]
        exact bodyEvent_spi hb hp fun tx htx => by
          simp only [writeSpec, Option.some.injEq] at htx; rw [← htx]; rfl
      · simp [isPrecheckError_resultOfStatus]
  | writeGpio8Wr addr len =>
    obtain ⟨evs, he⟩ := gpioWrite_summary (i := .writeGpio8Wr addr len) h rfl rfl rfl; exact ⟨evs, _, he⟩
  | writeGpio16Wr addr len =>
    obtain ⟨evs, he⟩ := gpioWrite_summary (i := .writeGpio16Wr addr len) h rfl rfl rfl; exact ⟨evs, _, he⟩
  | writeGpio16WrLatched addr len =>
    obtain ⟨hs, rfl⟩ := alwaysFails_cases h
    exact ⟨[], _, ⟨hs, rfl, rfl, rfl, rfl, rfl, rfl, rfl, rfl, by simp, rfl, ⟨[], (List.append_nil _).symm⟩, rfl, .inl rfl, fun _ => rfl⟩⟩
  | readGpio8 addr len =>
    obtain ⟨evs, he⟩ := gpioRead_summary (i := .readGpio8 addr len) h rfl rfl rfl; exact ⟨evs, _, he⟩
  | readGpio16 addr len =>
    obtain ⟨evs, he⟩ := gpioRead_summary (i := .readGpio16 addr len) h rfl rfl rfl; exact ⟨evs, _, he⟩

/-- What every answered command records. -/
theorem Summary.recorded {i : Instr} {s t : State} {evs : List Event} {r : Response} (h : Summary i s t evs r) :
    Recorded i s t :=
  ⟨h.op, h.addr, h.len, h.seq, ⟨r, h.responses⟩, ⟨evs, h.trace, h.latch⟩, h.wire⟩

/-! ### The step -/

/-- What a step can be: nothing to do, a command, or a reserved descriptor. -/
theorem step_cases {s t : State} (h : step s = .next t) :
    (s.queue = [] ∧ t = s) ∨
    (∃ d rest i, s.queue = d :: rest ∧ decode s.cfg.aw d = .ok i ∧ exec i { s with queue := rest } = .next t) ∨
    (∃ d rest, s.queue = d :: rest ∧ decode s.cfg.aw d = .error .reserved ∧ s.seq = .idle ∧
      t = raise .notImplemented (issue d.op d.addr d.len { s with queue := rest })) := by
  unfold step nextIssue at h
  cases hq : s.queue with
  | nil =>
    simp only [hq] at h
    exact .inl ⟨rfl, by injection h with h; exact h.symm⟩
  | cons d rest =>
    simp only [hq] at h
    cases hd : decode s.cfg.aw d with
    | ok i =>
      simp only [hd] at h
      exact .inr (.inl ⟨d, rest, i, rfl, hd, h⟩)
    | error e =>
      simp only [hd] at h
      cases e with
      | reserved =>
        obtain ⟨hs, rfl⟩ := alwaysFails_cases h
        exact .inr (.inr ⟨d, rest, rfl, hd, hs, rfl⟩)
      | operandTooWide =>
        simp only [undecoded] at h
        split at h <;> cases h

end Sys2Proof.Machine
end

