-- ==== Sys2Proof/Laws/PerInstr.lean ====
section
/-! SUPPORT. What holds of every command as syntax, one lemma per constructor. -/

namespace Sys2Proof.Laws

/-- A well-formed command is read back from its descriptor, at every width `AW`. -/
def Encoding.Statement (i : Instr) : Prop := ∀ aw : Nat, i.wellFormed aw = true → decode aw (encode i) = .ok i

/-- The descriptor of a command has `RSV` 0 and its opcode in `OP`; where the opcode is the command's, it decodes back. -/
theorem encoding_of_commandOf {i : Instr} (h : commandOf i.opcode i.addr i.len = some i) : Encoding.Statement i := by
  intro aw hw
  have hop : (encode i).op = i.opcode := by
    simp only [Descriptor.op, encode]
    exact BitVec.eq_of_getLsbD_eq fun k hk => by simp [hk]; omega
  have hrsv : (encode i).rsv = 0 := by
    simp only [Descriptor.rsv, encode]
    exact BitVec.eq_of_getLsbD_eq fun k hk => by simp
  have hc : commandOf (encode i).op (encode i).addr (encode i).len = some i := hop ▸ h
  simp [decode, hrsv, hc, hw]

theorem Encoding.writeSpi (addr len : Nat) : Encoding.Statement (.writeSpi addr len) :=
  encoding_of_commandOf rfl

theorem Encoding.readSpi (addr len : Nat) : Encoding.Statement (.readSpi addr len) :=
  encoding_of_commandOf rfl

theorem Encoding.writeSpiEmulate9 (addr len : Nat) : Encoding.Statement (.writeSpiEmulate9 addr len) :=
  encoding_of_commandOf rfl

theorem Encoding.writeGpio8Wr (addr len : Nat) : Encoding.Statement (.writeGpio8Wr addr len) :=
  encoding_of_commandOf rfl

theorem Encoding.writeGpio16Wr (addr len : Nat) : Encoding.Statement (.writeGpio16Wr addr len) :=
  encoding_of_commandOf rfl

theorem Encoding.writeGpio16WrLatched (addr len : Nat) : Encoding.Statement (.writeGpio16WrLatched addr len) :=
  encoding_of_commandOf rfl

theorem Encoding.readGpio8 (addr len : Nat) : Encoding.Statement (.readGpio8 addr len) :=
  encoding_of_commandOf rfl

theorem Encoding.readGpio16 (addr len : Nat) : Encoding.Statement (.readGpio16 addr len) :=
  encoding_of_commandOf rfl

end Sys2Proof.Laws
end

