-- ==== Sys2Proof/Tests/Slice0.lean ====
section
/-! SUPPORT. Tests. The expected values come from spec/95_test_vectors.md, whose vector a test's docstring names; the
witnesses at the end show, for each statement of the certificates, an input that meets its hypotheses. -/

namespace Sys2Proof.Tests

open Sys2Proof.Machine Sys2Proof.Safety

/-! ### Helpers -/

/-- What an outcome's next state holds, where there is one. -/
def after {α : Type} (f : State → α) : Host.Outcome State Fault Refusal → Option α
  | .next t => some (f t)
  | _ => none

/-- The next state of an outcome; reset where there is none. -/
def out : Host.Outcome State Fault Refusal → State
  | .next t => t
  | _ => State.reset

/-- The outcome is a next state. -/
def answers (o : Host.Outcome State Fault Refusal) : Bool := (after (fun _ => ()) o).isSome

theorem next_of_answers {o : Host.Outcome State Fault Refusal} (h : answers o = true) : o = .next (out o) := by
  cases o <;> simp_all [answers, after, out]

theorem requestOk_of {addr len : Nat} {s : State} (h : addr + len ≤ 2 ^ s.cfg.aw) (hf : s.foreign = []) :
    RequestOk addr len s := ⟨h, by simp [hf]⟩

/-- The defaults of 95_test_vectors.md on the 8-bit bus. -/
def bus8 : State := State.reset

/-- The same on a bus of `n` lines. -/
def busOf (n : Nat) : State :=
  { State.reset with cfg := { Config.default with dataLines := (List.range n).map fun i => ⟨3 + i, false⟩ } }

/-- The same on the 16-bit bus. -/
def bus16 : State := busOf 16

/-- A state with some bytes of host memory. -/
def withMem (m : List Host.Cell) (s : State) : State := { s with mem := m }

/-- A state in which the next transfer is answered with a status and received bytes. -/
def withSpi (status : BitVec 32) (rx : List Byte) (s : State) : State := { s with spiAnswers := [⟨status, rx⟩] }

/-- A state in which the next pin reads are answered with the bits of a list of digits. -/
def withPins (bits : List Nat) (s : State) : State := { s with pinAnswers := bits.map (· != 0) }

/-- A state with another configuration. -/
def withCfg (f : Cfg → Cfg) (s : State) : State := { s with cfg := f s.cfg }

/-- No bus handle. -/
def noBus : State := withCfg (fun c => { c with busHandle := none }) bus8

/-- A start byte. -/
def startByte (b : Byte) : State := withCfg (fun c => { c with startByte := some b }) bus8

/-- No scratch buffer. -/
def noScratch : State := { withCfg (fun c => { c with scratchBuffer := none }) bus8 with scratch := [] }

/-- A scratch buffer of nine bytes. -/
def scratch9 : State :=
  { withCfg (fun c => { c with scratchBuffer := some 9 }) bus8 with scratch := List.replicate 9 0 }

/-- The write-skip optimisation disabled. -/
def skipOff : State := withCfg (fun c => { c with skipOpt := .disabled }) bus8

/-- A fast pin write. -/
def fw (pin : Nat) (b : Bool) : Event := .pw pin b .fast

/-! ### Well-formedness (R68) -/

/-- The widest operands of 32 bits. -/
theorem test_wf_widest : (Instr.writeSpi 0xFFFFFFFF 0xFFFFFFFF).wellFormed 32 = true := by decide

/-- Ill-formed: `ADDR` needs 33 bits. -/
theorem test_wf_addr_too_wide : (Instr.readGpio8 0x100000000 0).wellFormed 32 = false := by decide

/-- Ill-formed: `LEN` needs 33 bits. -/
theorem test_wf_len_too_wide : (Instr.readGpio8 0 0x100000000).wellFormed 32 = false := by decide

/-! ### Decoding: `LEN`, `ADDR` and word 0, written out from R68 and R70 -/

/-- Programs A, B and C, and R70: word 0 is `00000003` and so on. -/
theorem test_decode_spi :
    decodeTableWord 96 0x00000006_00001000_00000000 = some (.writeSpi 0x1000 6) ∧
    decodeTableWord 96 0x00000003_00002000_00000001 = some (.readSpi 0x2000 3) ∧
    decodeTableWord 96 0x00000010_00001000_00000002 = some (.writeSpiEmulate9 0x1000 16) := by decide

theorem test_decode_gpioWrite :
    decodeTableWord 96 0x00000005_00001000_00000003 = some (.writeGpio8Wr 0x1000 5) ∧
    decodeTableWord 96 0x00000006_00001000_00000004 = some (.writeGpio16Wr 0x1000 6) ∧
    decodeTableWord 96 0x00000000_00000000_00000005 = some (.writeGpio16WrLatched 0 0) := by decide

theorem test_decode_gpioRead :
    decodeTableWord 96 0x00000001_00003000_00000006 = some (.readGpio8 0x3000 1) ∧
    decodeTableWord 96 0x00000002_00003000_00000007 = some (.readGpio16 0x3000 2) := by decide

/-- The table gives a row 32 bits: the operand words are then 0. -/
theorem test_decode_short : decodeTableWord 32 0x00000007 = some (.readGpio16 0 0) := by decide

/-- Section 7: reserved words, the first opcode after the last, and `RSV` at its lowest and highest bit. -/
theorem test_decode_reserved :
    decodeTableWord 32 0x00000008 = none ∧ decodeTableWord 32 0x000000FF = none ∧
    decodeTableWord 32 0x00000100 = none ∧ decodeTableWord 32 0x80000003 = none := by decide

/-- The words of Program B's first descriptor. -/
theorem test_encode : encodeBits 32 (.writeSpiEmulate9 0x1000 16) = 0x00000010_00001000_00000002 := by decide

/-- A descriptor of an address wider than `AW` is none of R68. -/
theorem test_decode_wide : decode 16 ⟨0, 0x10000, 0⟩ = .error .operandTooWide := by decide

/-! ### SPI -/

/-- Vector X1, and its wire refinement. -/
theorem test_X1 :
    let o := exec (.writeSpi 0x1000 3) (withMem [(0x1000, 0x2A), (0x1002, 0xFF)] (withSpi 0 [] bus8))
    after (·.trace) o = some [fw 0 false,
      .spi ⟨3, some [0x2A, 0x00, 0xFF], false, none, false, none⟩ 0 none, fw 0 true] ∧
    after (fun t => t.wire.map fun p => p.mosi.toNat) o =
      some [0, 0, 1, 0, 1, 0, 1, 0, 0, 0, 0, 0, 0, 0, 0, 0, 1, 1, 1, 1, 1, 1, 1, 1] := by decide

/-- Vector X3, with the buffer pre-mapped as in X4. -/
theorem test_X3_X4 :
    let s := withCfg (fun c => { c with dmaCapableBuffer := some ⟨0x8000, some 0x1F008000⟩ }) (withSpi (-5) [] bus8)
    let o := exec (.writeSpi 0x8000 1) s
    after (·.trace) o = some [fw 0 false,
      .spi ⟨1, some [0x00], false, none, true, some 0x1F008000⟩ (-5) none, fw 0 true] ∧
    after (fun t => t.responses.map fun r => (r.word0, r.word1)) o = some [(5, 0xFFFFFFFB)] := by decide

/-- Vector X6. -/
theorem test_X6 :
    let o := exec (.readSpi 0x2000 4) (withSpi 0 [0x00, 0x93, 0x41, 0x00] (startByte 0x70))
    after (·.trace) o = some [fw 0 false,
      .spi ⟨4, some [0x73, 0x00, 0x00, 0x00], true, some 2000000, false, none⟩ 0
        (some [0x00, 0x93, 0x41, 0x00]), fw 0 true] ∧
    after (·.mem) o = some [(0x2001, 0x93), (0x2002, 0x41)] := by decide

/-- Vector X7; and X9, which has no start byte, sends it. -/
theorem test_X7_X9 :
    after (fun t => (t.trace, t.responses)) (exec (.readSpi 0x2000 33) (startByte 0x70)) =
      some ([], [.err .invalidArgument]) ∧
    after (·.responses) (exec (.readSpi 0x2000 33) (withSpi 0 (List.replicate 33 0) bus8)) = some [.ok] := by decide

/-! ### 9-bit emulation -/

/-- Vector P7. -/
theorem test_P7 :
    let m : List Host.Cell := [(0x1000, 0x2A), (0x1001, 0x01), (0x1002, 0x55), (0x1004, 0xAA), (0x1005, 0x01),
      (0x1008, 0xFF), (0x1009, 0x01), (0x100A, 0x80), (0x100C, 0x01), (0x100D, 0x01), (0x100E, 0xC3)]
    let o := exec (.writeSpiEmulate9 0x1000 16) (withMem m (withSpi 0 [] scratch9))
    after (·.scratch) o = some [0x95, 0x15, 0x75, 0x40, 0x0F, 0xFA, 0x02, 0x02, 0xC3] ∧
    after (·.acc) o = some 0x951575400FFA0202 := by decide

/-- Vectors E2, E3, E6 and E8. -/
theorem test_E2_E3_E6_E8 :
    after (·.responses) (exec (.writeSpiEmulate9 0x1000 12) noScratch) = some [.err .missingScratchBuffer] ∧
    after (·.responses) (exec (.writeSpiEmulate9 0x1000 12) scratch9) = some [.err .invalidArgument] ∧
    answers (exec (.writeSpiEmulate9 0x1000 24) bus8) = false ∧
    answers (exec (.writeSpiEmulate9 0x1000 32) scratch9) = false := by decide

/-! ### GPIO writes -/

/-- Vector W1. -/
theorem test_W1 :
    let m : List Host.Cell := [(0x1000, 0x55), (0x1001, 0x55), (0x1002, 0x54)]
    let o := exec (.writeGpio8Wr 0x1000 3) (withMem m bus8)
    after (·.trace) o = some [fw 0 false,
      fw 1 false, fw 3 true, fw 5 true, fw 7 true, fw 9 true, fw 1 true,
      fw 1 false, fw 1 false, fw 1 true,
      fw 1 false, fw 3 false, fw 1 true, fw 0 true] ∧
    after (·.prev) o = some 0x54 := by decide

/-- Vector C1. -/
theorem test_C1 :
    let s := withCfg (fun c => { c with chipSelectLine := some ⟨0, true⟩ }) (withMem [(0x1000, 0x01)] bus8)
    after (·.trace) (exec (.writeGpio8Wr 0x1000 1) s) = some [.pw 0 false .sleep,
      fw 1 false, fw 3 true, fw 1 true, .pw 0 true .sleep] := by decide

/-- Vector W8. -/
theorem test_W8 :
    let m : List Host.Cell := [(0x1001, 0xF8), (0x1003, 0xF8), (0x1004, 0xE0), (0x1005, 0x07)]
    let o := exec (.writeGpio16Wr 0x1000 6) (withMem m bus16)
    after (fun t => chipWords bus16.cfg.dataLines 1 bus16.latch t.trace) o = some [0xF800, 0xF800, 0x07E0] ∧
    after (fun t => t.trace.length) o = some 25 := by decide

/-- Vectors W11 and W12: refused. -/
theorem test_W11_W12 :
    answers (exec (.writeGpio16Wr 0x1000 3) bus16) = false ∧
    answers (exec (.writeGpio8Wr 0x1000 1) bus16) = false := by decide

/-- Vector W9, on an instance of neither bus width. -/
theorem test_W9 :
    after (fun t => (t.trace, t.responses)) (exec (.writeGpio16WrLatched 5 7) (busOf 3)) =
      some ([], [.err .notImplemented]) := by decide

/-! ### GPIO reads -/

/-- Vector G2. -/
theorem test_G2 :
    let o := exec (.readGpio8 0x3000 2) (withPins [1, 0, 1, 0, 1, 0, 1, 0, 0, 0, 0, 0, 1, 1, 1, 1] bus8)
    after (·.mem) o = some [(0x3000, 0xAA), (0x3001, 0x0F)] ∧ after (fun t => t.trace.length) o = some 24 := by decide

/-- Vector G1's trace. -/
theorem test_G1 :
    after (·.trace) (exec (.readGpio8 0x3000 1) (withPins [1, 0, 1, 0, 1, 0, 1, 0] bus8)) = some [fw 0 false,
      fw 2 false, .dly 1, .pr 10 true .fast, .pr 9 false .fast, .pr 8 true .fast, .pr 7 false .fast, .pr 6 true .fast,
      .pr 5 false .fast, .pr 4 true .fast, .pr 3 false .fast, fw 2 true, fw 0 true] := by decide

/-- Vector G5. -/
theorem test_G5 :
    let o := exec (.readGpio16 0x3000 2) (withPins [1, 0, 0, 1, 0, 0, 1, 1, 0, 1, 0, 0, 0, 0, 0, 1] bus16)
    after (·.mem) o = some [(0x3000, 0x41), (0x3001, 0x93)] ∧ after (fun t => t.trace.length) o = some 21 := by decide

/-! ### The step -/

/-- Section 7: a reserved descriptor is answered, with an empty trace, and taken. -/
theorem test_step_reserved :
    after (fun t => (t.trace, t.responses, t.queue)) (step (bus8.withFetchWord 32 0x00000100)) =
      some ([], [.err .notImplemented], []) := by decide

/-! ### Witnesses: inputs that meet the hypotheses of the statements -/

/-- Both sides of the rule at their bounds: `OP` 7 and 8, `RSV` 1. -/
theorem witness_DecodingIsTotalAndExact :
    0xFFFFFFFF < 2 ^ 32 ∧
    (0x00000100 : BitVec 32).extractLsb' 8 24 ≠ 0 ∧
    7 < ((0x00000008 : BitVec 32).extractLsb' 0 8).toNat ∧
    ¬ ((0x00000007 : BitVec 32).extractLsb' 8 24 ≠ 0 ∨ 7 < ((0x00000007 : BitVec 32).extractLsb' 0 8).toNat) := by decide

theorem witness_DecodeOfEncodeIsTheCommand :
    (Instr.readGpio16 0xFFFFFFFF 0xFFFFFFFF).wellFormed 32 = true ∧ (Instr.writeSpi 0 0).wellFormed 0 = true := by
  decide

theorem witness_EncodeOfDecodeIsTheDescriptor :
    decode 32 ⟨0x00000007, 0xFFFFFFFF, 0xFFFFFFFF⟩ = .ok (.readGpio16 0xFFFFFFFF 0xFFFFFFFF) := by decide

theorem witness_StepRunsTheDecodedCommand :
    (bus8.withFetchWord 32 0).queue = [⟨0, 0, 0⟩] ∧ decode bus8.cfg.aw ⟨0, 0, 0⟩ = .ok (.writeSpi 0 0) ∧
    bus8.queue = [] := by decide

/-- By the opcode and by `RSV`. -/
theorem witness_ReservedDescriptorIsAnsweredNotImplemented :
    (bus8.withFetchWord 32 8).seq = .idle ∧ (bus8.withFetchWord 32 8).queue = [⟨0x00000008, 0, 0⟩] ∧
    7 < ((0x00000008 : BitVec 32).extractLsb' 0 8).toNat ∧ (0x00000100 : BitVec 32).extractLsb' 8 24 ≠ 0 := by decide

theorem witness_IssueWhileBusyIsRefused : ({ bus8 with seq := .busy } : State).seq = .busy := rfl

theorem witness_OneResponseForEachDescriptor :
    (bus8.withFetchWord 32 5).queue = [⟨0x00000005, 0, 0⟩] ∧
    step (bus8.withFetchWord 32 5) = .next (out (step (bus8.withFetchWord 32 5))) :=
  ⟨by decide, next_of_answers (by decide)⟩

/-- The state in which the host has issued a read of one byte: for the statements about every step. -/
theorem witness_EveryStepKeepsTheInvariant :
    Safety.Inv (bus8.withFetchWord 96 0x00000001_00003000_00000006) ∧
    step (bus8.withFetchWord 96 0x00000001_00003000_00000006) =
      .next (out (step (bus8.withFetchWord 96 0x00000001_00003000_00000006))) :=
  ⟨by decide, next_of_answers (by decide)⟩

theorem witness_EveryStepKeepsTheTraceLegal :
    TraceOk (bus8.withFetchWord 96 0x00000001_00003000_00000006) ∧
    step (bus8.withFetchWord 96 0x00000001_00003000_00000006) =
      .next (out (step (bus8.withFetchWord 96 0x00000001_00003000_00000006))) :=
  ⟨fun e he => absurd he (List.not_mem_nil), next_of_answers (by decide)⟩

theorem witness_ConfigurationIsImmutable :
    step (bus8.withFetchWord 96 0x00000001_00001000_00000003) =
      .next (out (step (bus8.withFetchWord 96 0x00000001_00001000_00000003))) := next_of_answers (by decide)

theorem witness_LatchesFollowTheTrace :
    step (bus8.withFetchWord 96 0x00000001_00001000_00000003) =
      .next (out (step (bus8.withFetchWord 96 0x00000001_00001000_00000003))) := next_of_answers (by decide)

/-- One command that uses the guard and one that does not. -/
theorem witness_ChipSelectIsAssertedExactlyOnce :
    bus8.cfg.chipSelectLine = some ⟨0, false⟩ ∧
    exec (.writeGpio8Wr 0 1) bus8 = .next (out (exec (.writeGpio8Wr 0 1) bus8)) ∧
    exec (.writeGpio16WrLatched 0 1) bus8 = .next (out (exec (.writeGpio16WrLatched 0 1) bus8)) :=
  ⟨rfl, next_of_answers (by decide), next_of_answers (by decide)⟩

theorem witness_ChipSelectIsLeftHigh :
    bus8.cfg.chipSelectLine = some ⟨0, false⟩ ∧
    exec (.writeGpio8Wr 0 1) bus8 = .next (out (exec (.writeGpio8Wr 0 1) bus8)) ∧
    (out (exec (.writeGpio8Wr 0 1) bus8)).trace ≠ bus8.trace :=
  ⟨rfl, next_of_answers (by decide), by decide⟩

/-- With `PRECHECK_BEFORE_CS` on and off, and the always-failing command. -/
theorem witness_PreconditionErrorsTouchNoBus :
    exec (.writeSpi 0 1) noBus = .next (out (exec (.writeSpi 0 1) noBus)) ∧
    (out (exec (.writeSpi 0 1) noBus)).responses = noBus.responses ++ [.err .deviceUnavailable] ∧
    (let s := withCfg (fun c => { c with precheckBeforeCs := false }) noBus
     exec (.writeSpi 0 1) s = .next (out (exec (.writeSpi 0 1) s)) ∧
      (out (exec (.writeSpi 0 1) s)).responses = s.responses ++ [.err .deviceUnavailable]) ∧
    exec (.writeGpio16WrLatched 0 1) bus8 = .next (out (exec (.writeGpio16WrLatched 0 1) bus8)) ∧
    (out (exec (.writeGpio16WrLatched 0 1) bus8)).responses = bus8.responses ++ [.err .notImplemented] ∧
    isPrecheckError (.err .deviceUnavailable) = true ∧ isPrecheckError (.err .notImplemented) = true :=
  ⟨next_of_answers (by decide), by decide, ⟨next_of_answers (by decide), by decide⟩, next_of_answers (by decide),
    by decide, rfl, rfl⟩

/-- A body that ends with an error; an instance with chip-select and one without. -/
theorem witness_GuardEnclosesItsBody :
    let body : State → Except Fault (Response × State) := fun t => .ok (.err .notImplemented, t)
    bus8.cfg.chipSelectLine = some ⟨0, false⟩ ∧
    body (pinWrite ⟨0, false⟩ false bus8) = .ok (.err .notImplemented, pinWrite ⟨0, false⟩ false bus8) ∧
    (withCfg (fun c => { c with chipSelectLine := none }) bus8).cfg.chipSelectLine = none := ⟨rfl, rfl, rfl⟩

theorem witness_PinReadReturnsTheAnsweredLevel : (withPins [1] bus8).pinAnswers = true :: [] := rfl

/-- Both byte orders. -/
theorem witness_WordsLieInTheConfiguredByteOrder :
    bus8.cfg.wordOrder = .littleEndian ∧
    (withCfg (fun c => { c with wordOrder := .bigEndian }) bus8).cfg.wordOrder = .bigEndian := ⟨rfl, rfl⟩

/-- A write and a read of one byte; the addresses next to the request are outside it. -/
theorem witness_OnlyReadsStoreAndOnlyInTheRequest :
    exec (.writeGpio8Wr 8 1) bus8 = .next (out (exec (.writeGpio8Wr 8 1) bus8)) ∧
    isWrite (.writeGpio8Wr 8 1) = true ∧
    exec (.readGpio8 8 1) bus8 = .next (out (exec (.readGpio8 8 1) bus8)) ∧ isWrite (.readGpio8 8 1) = false ∧
    ¬ (8 ≤ 7 ∧ 7 < 8 + 1) ∧ ¬ (8 ≤ 9 ∧ 9 < 8 + 1) :=
  ⟨next_of_answers (by decide), rfl, next_of_answers (by decide), rfl, by decide, by decide⟩

theorem witness_ReadsDoNotDependOnMemory :
    isWrite (.readGpio8 8 1) = false ∧ exec (.readGpio8 8 1) bus8 = .next (out (exec (.readGpio8 8 1) bus8)) ∧
    (out (exec (.readGpio8 8 1) bus8)).responses = bus8.responses ++ [.ok] ∧ 8 ≤ 8 ∧ 8 < 8 + 1 :=
  ⟨rfl, next_of_answers (by decide), by decide, by decide, by decide⟩

theorem witness_EarlierOutcomesAreNotObserved :
    SourceValues scratch9.cfg ∧ Safety.Inv scratch9 ∧ (List.replicate 9 (0xA5 : Byte)).length = scratch9.scratch.length ∧
    (let s := withSpi 0 [] scratch9
     exec (.writeSpiEmulate9 0 16) s = .next (out (exec (.writeSpiEmulate9 0 16) s))) :=
  ⟨by decide, by decide, by decide, next_of_answers (by decide)⟩

theorem witness_OnlyGpioWritesUsePrev :
    exec (.writeGpio8Wr 0 1) bus8 = .next (out (exec (.writeGpio8Wr 0 1) bus8)) ∧
    exec (.writeGpio16Wr 0 2) bus16 = .next (out (exec (.writeGpio16Wr 0 2) bus16)) ∧
    exec (.readGpio8 0 1) bus8 = .next (out (exec (.readGpio8 0 1) bus8)) ∧
    ∀ addr len, Instr.readGpio8 0 1 ≠ .writeGpio8Wr addr len ∧ Instr.readGpio8 0 1 ≠ .writeGpio16Wr addr len :=
  ⟨next_of_answers (by decide), next_of_answers (by decide), next_of_answers (by decide), by simp⟩

/-- Every error is answered somewhere. -/
theorem witness_ErrorsHaveTheirCauses :
    (exec (.writeSpi 0 1) noBus = .next (out (exec (.writeSpi 0 1) noBus)) ∧
      (out (exec (.writeSpi 0 1) noBus)).responses = noBus.responses ++ [.err .deviceUnavailable]) ∧
    (exec (.readSpi 0 33) (startByte 0) = .next (out (exec (.readSpi 0 33) (startByte 0))) ∧
      (out (exec (.readSpi 0 33) (startByte 0))).responses = (startByte 0).responses ++ [.err .invalidArgument]) ∧
    (exec (.writeSpiEmulate9 0 9) bus8 = .next (out (exec (.writeSpiEmulate9 0 9) bus8)) ∧
      (out (exec (.writeSpiEmulate9 0 9) bus8)).responses = bus8.responses ++ [.err .invalidArgument]) ∧
    (exec (.writeSpiEmulate9 0 9) noScratch = .next (out (exec (.writeSpiEmulate9 0 9) noScratch)) ∧
      (out (exec (.writeSpiEmulate9 0 9) noScratch)).responses =
        noScratch.responses ++ [.err .missingScratchBuffer]) ∧
    (exec (.writeGpio16WrLatched 0 1) bus8 = .next (out (exec (.writeGpio16WrLatched 0 1) bus8)) ∧
      (out (exec (.writeGpio16WrLatched 0 1) bus8)).responses = bus8.responses ++ [.err .notImplemented]) ∧
    (let s := withSpi (-1) [] bus8
     exec (.writeSpi 0 1) s = .next (out (exec (.writeSpi 0 1) s)) ∧
      (out (exec (.writeSpi 0 1) s)).responses = s.responses ++ [.err (.hardwareTransferFailed (-1))]) :=
  ⟨⟨next_of_answers (by decide), by decide⟩, ⟨next_of_answers (by decide), by decide⟩,
    ⟨next_of_answers (by decide), by decide⟩, ⟨next_of_answers (by decide), by decide⟩,
    ⟨next_of_answers (by decide), by decide⟩, ⟨next_of_answers (by decide), by decide⟩⟩

/-- No answer fixed, a zero status and a negative one. -/
theorem witness_StatusIsTranslatedToAResult :
    positiveStatus bus8 = none ∧
    (positiveStatus (withSpi 0 [] bus8) = none ∧ nextStatus (withSpi 0 [] bus8) = 0) ∧
    (positiveStatus (withSpi (-1) [] bus8) = none ∧ (nextStatus (withSpi (-1) [] bus8)).toInt < 0) ∧
    (withSpi 1 [] bus8).cfg.statusW = 32 ∧ (withSpi 1 [] bus8).spiAnswers = ⟨1, []⟩ :: [] := by decide

/-- With and without a bus handle; a request that ends at the top of the address space. -/
theorem witness_WriteSpiSendsTheRequest :
    Admitted (spiPins noBus) noBus ∧ noBus.cfg.busHandle = none ∧
    Admitted (spiPins bus8) bus8 ∧ bus8.cfg.busHandle.isSome = true ∧ RequestOk 0xFFFFFFFF 1 bus8 ∧
    positiveStatus bus8 = none :=
  ⟨by decide, rfl, by decide, rfl, requestOk_of (by decide) rfl, rfl⟩

/-- 33 bytes are the first length above the staging buffer. -/
theorem witness_ReadSpiChecksHandleThenLength :
    SourceValues noBus.cfg ∧ Admitted (spiPins noBus) noBus ∧ noBus.cfg.busHandle = none ∧
    SourceValues (startByte 0).cfg ∧ Admitted (spiPins (startByte 0)) (startByte 0) ∧ (startByte 0).cfg.busHandle.isSome = true ∧
    (startByte 0).cfg.startByte.isSome = true ∧ 32 < 33 := by decide

/-- 32 bytes with a start byte and 33 without; a status of 0 and a negative one; nothing to read. -/
theorem witness_ReadSpiFillsTheRequest :
    (let s := withSpi 0 [] (startByte 0)
     SourceValues s.cfg ∧ Admitted (spiPins s) s ∧ s.cfg.busHandle.isSome = true ∧
      (s.cfg.startByte.isSome = true → 32 ≤ 32) ∧ RequestOk 0 32 s ∧ RequestOk 0 0 s ∧ positiveStatus s = none ∧ nextStatus s = 0 ∧ s.cfg.startByte = some 0) ∧
    (let s := withSpi (-110) [] bus8
     SourceValues s.cfg ∧ Admitted (spiPins s) s ∧ s.cfg.busHandle.isSome = true ∧
      (s.cfg.startByte.isSome = true → 33 ≤ 32) ∧ RequestOk 0 33 s ∧ positiveStatus s = none ∧ s.cfg.startByte = none) :=
  ⟨⟨by decide, by decide, rfl, by decide, requestOk_of (by decide) rfl, requestOk_of (by decide) rfl, by decide,
      by decide, rfl⟩,
    ⟨by decide, by decide, rfl, by decide, requestOk_of (by decide) rfl, by decide, rfl⟩⟩

theorem witness_PositiveStatusIsAFault :
    let s := withSpi 1 [] bus8
    SourceValues s.cfg ∧ Admitted (spiPins s) s ∧ s.cfg.busHandle.isSome = true ∧ RequestOk 0 16 s ∧ positiveStatus s = some 1 ∧
    (s.cfg.startByte.isSome = true → 16 ≤ 32) ∧ s.cfg.scratchBuffer = some 90 ∧ 16 % 16 = 0 ∧ 9 * (16 / 16) ≤ 90 :=
  ⟨by decide, by decide, rfl, requestOk_of (by decide) rfl, by decide, by decide, rfl, rfl, by decide⟩

/-- Vector X1's transfer, and a failed one. -/
theorem witness_TheWireShiftsBytesMsbFirst :
    (let s := withSpi 0 [] bus8
     SourceValues s.cfg ∧ exec (.writeSpi 0 1) s = .next (out (exec (.writeSpi 0 1) s)) ∧
      (out (exec (.writeSpi 0 1) s)).trace =
        s.trace ++ guarded s.cfg [.spi ⟨1, some [0], false, none, false, none⟩ 0 none]) ∧
    (let s := withSpi (-5) [0x81] bus8
     SourceValues s.cfg ∧ exec (.readSpi 0 1) s = .next (out (exec (.readSpi 0 1) s)) ∧
      (out (exec (.readSpi 0 1) s)).trace =
        s.trace ++ guarded s.cfg [.spi ⟨1, none, true, some 2000000, false, none⟩ (-5) (some [0x81])]) :=
  ⟨⟨by decide, next_of_answers (by decide), by decide⟩, ⟨by decide, next_of_answers (by decide), by decide⟩⟩

theorem witness_Emulate9ChecksScratchThenLength :
    Admitted (spiPins noScratch) noScratch ∧ noScratch.cfg.scratchBuffer = none ∧
    Admitted (spiPins scratch9) scratch9 ∧ scratch9.cfg.scratchBuffer.isSome = true ∧ 7 % 8 ≠ 0 := by decide

theorem witness_Emulate9RefusesPartialGroupsAndSmallScratch :
    SourceValues scratch9.cfg ∧ Admitted (spiPins scratch9) scratch9 ∧ scratch9.cfg.scratchBuffer = some 9 ∧ 8 % 16 = 8 ∧
    32 % 16 = 0 ∧ 9 < 9 * (32 / 16) := by decide

/-- Vector P6's word and the word it packs as. -/
theorem witness_OnlyTheLowNineBitsArePacked :
    ∀ j, j < 8 → ((fun _ : Nat => (0xFEAB : Word)) j).setWidth 9 = ((fun _ : Nat => (0x00AB : Word)) j).setWidth 9 := by
  decide

/-- A request that fills the scratch buffer exactly and one of no group; with and without a bus handle. -/
theorem witness_Emulate9SendsTheNineBitStream :
    SourceValues scratch9.cfg ∧
    Admitted (spiPins scratch9) scratch9 ∧ scratch9.cfg.scratchBuffer = some 9 ∧ scratch9.scratch.length = 9 ∧
    (16 % 16 = 0 ∧ 9 * (16 / 16) ≤ 9 ∧ RequestOk 0 16 scratch9) ∧
    (0 % 16 = 0 ∧ 9 * (0 / 16) ≤ 9 ∧ RequestOk 0 0 scratch9) ∧
    scratch9.cfg.busHandle.isSome = true ∧ positiveStatus scratch9 = none ∧
    (SourceValues noBus.cfg ∧ Admitted (spiPins noBus) noBus ∧ noBus.cfg.scratchBuffer = some 90 ∧ noBus.scratch.length = 90 ∧
      9 * (16 / 16) ≤ 90 ∧ RequestOk 0 16 noBus ∧ noBus.cfg.busHandle = none) :=
  ⟨by decide, by decide, rfl, rfl, ⟨rfl, by decide, requestOk_of (by decide) rfl⟩,
    ⟨rfl, by decide, requestOk_of (by decide) rfl⟩, rfl, rfl, ⟨by decide, by decide, rfl, rfl, by decide, requestOk_of (by decide) rfl, rfl⟩⟩

theorem witness_WriteGpio8WrRunsOneCyclePerByte :
    Admitted (gpioPins bus8) bus8 ∧ bus8.cfg.dataLines.length = 8 ∧ bus8.cfg.writeStrobeLine = some ⟨1, false⟩ ∧
    RequestOk 0 1 bus8 ∧ RequestOk 0 0 bus8 :=
  ⟨by decide, by decide, rfl, requestOk_of (by decide) rfl, requestOk_of (by decide) rfl⟩

theorem witness_WriteGpio16WrRunsOneCyclePerWord :
    Admitted (gpioPins bus16) bus16 ∧ bus16.cfg.dataLines.length = 16 ∧
    bus16.cfg.writeStrobeLine = some ⟨1, false⟩ ∧ 2 % 2 = 0 ∧ RequestOk 0xFFFFFFFE 2 bus16 :=
  ⟨by decide, by decide, rfl, rfl, requestOk_of (by decide) rfl⟩

/-- The word repeated, another word, and the optimisation disabled. -/
theorem witness_WriteCycleEventsAreCounted :
    bus8.cfg.dataLines.length = 8 ∧ (0xFF : Word).toNat < 2 ^ bus8.cfg.dataLines.length ∧
    bus8.prev.toNat < 2 ^ bus8.cfg.dataLines.length ∧ bus8.cfg.skipOpt = .enabled ∧ bus8.prev = 0 ∧
    (0xFF : Word) ≠ bus8.prev ∧ bus16.cfg.dataLines.length = 16 ∧ skipOff.cfg.skipOpt = .disabled := by decide

/-- After reset every data line is at the level of its bit of `PREV`. -/
theorem coherent_reset : Coherent State.reset := by
  intro i p hp
  have h : ∀ q ∈ State.reset.cfg.dataLines, level State.reset.latch q.id = false := by decide
  rw [h p (List.mem_of_getElem? hp)]
  simp [State.reset, Config.default]

/-- Coherent lines, and the optimisation disabled. -/
theorem witness_ChipLatchesTheWordWhenCoherent :
    bus8.cfg.writeStrobeLine = some ⟨1, false⟩ ∧ ((configPins bus8.cfg).map Pin.id).Nodup ∧
    bus8.cfg.dataLines.length ≤ 16 ∧ (0xFF : Word).toNat < 2 ^ bus8.cfg.dataLines.length ∧ Coherent bus8 ∧
    bus8.cfg.skipOpt = .enabled ∧ bus8.cfg.dataLines[7]? = some ⟨10, false⟩ ∧ skipOff.cfg.skipOpt = .disabled :=
  ⟨rfl, by decide, by decide, by decide, coherent_reset, rfl, by decide, rfl⟩

theorem witness_TheDisplayReceivesTheRequest :
    Coherent bus8 ∧ skipOff.cfg.skipOpt = .disabled ∧ bus8.cfg.writeStrobeLine = some ⟨1, false⟩ ∧
    exec (.writeGpio8Wr 0 1) bus8 = .next (out (exec (.writeGpio8Wr 0 1) bus8)) ∧
    (let s := withCfg (fun c => { c with skipOpt := .disabled }) bus16
     s.cfg.writeStrobeLine = some ⟨1, false⟩ ∧
      exec (.writeGpio16Wr 0 2) s = .next (out (exec (.writeGpio16Wr 0 2) s))) :=
  ⟨coherent_reset, rfl, rfl, next_of_answers (by decide), ⟨rfl, next_of_answers (by decide)⟩⟩

theorem witness_LatchedWriteAlwaysFails : bus8.seq = .idle := rfl

theorem witness_ReadGpio8SamplesMsbFirst :
    Admitted (gpioPins bus8) bus8 ∧ bus8.cfg.dataLines.length = 8 ∧ bus8.cfg.readStrobeLine = some ⟨2, false⟩ ∧
    RequestOk 0 1 bus8 ∧ RequestOk 0xFFFFFFFF 1 bus8 :=
  ⟨by decide, by decide, rfl, requestOk_of (by decide) rfl, requestOk_of (by decide) rfl⟩

theorem witness_ReadGpio16SamplesMsbFirst :
    Admitted (gpioPins bus16) bus16 ∧ bus16.cfg.dataLines.length = 16 ∧
    bus16.cfg.readStrobeLine = some ⟨2, false⟩ ∧ 2 % 2 = 0 ∧ RequestOk 0 2 bus16 :=
  ⟨by decide, by decide, rfl, rfl, requestOk_of (by decide) rfl⟩

theorem witness_ReadsLeaveTheWriteSkipState :
    exec (.readGpio8 0 1) bus8 = .next (out (exec (.readGpio8 0 1) bus8)) ∧
    exec (.readGpio16 0 2) bus16 = .next (out (exec (.readGpio16 0 2) bus16)) :=
  ⟨next_of_answers (by decide), next_of_answers (by decide)⟩

/-- Each of the counted outcomes occurs, under the two premises. -/
theorem witness_EventCountsPerCommand :
    bus8.cfg.precheckBeforeCs = true ∧ bus8.prev.toNat < 2 ^ bus8.cfg.dataLines.length ∧
    (let s := withSpi 0 [] bus8
     exec (.writeSpi 0 1) s = .next (out (exec (.writeSpi 0 1) s)) ∧
      (out (exec (.writeSpi 0 1) s)).responses = s.responses ++ [.ok]) ∧
    exec (.writeGpio8Wr 0 1) skipOff = .next (out (exec (.writeGpio8Wr 0 1) skipOff)) ∧
    exec (.writeGpio16Wr 0 2) bus16 = .next (out (exec (.writeGpio16Wr 0 2) bus16)) ∧
    exec (.readGpio8 0 1) bus8 = .next (out (exec (.readGpio8 0 1) bus8)) ∧
    exec (.readGpio16 0 2) bus16 = .next (out (exec (.readGpio16 0 2) bus16)) ∧
    exec (.readSpi 0 1) noBus = .next (out (exec (.readSpi 0 1) noBus)) ∧
    (out (exec (.readSpi 0 1) noBus)).responses = noBus.responses ++ [.err .deviceUnavailable] :=
  ⟨rfl, by decide, ⟨next_of_answers (by decide), by decide⟩, next_of_answers (by decide), next_of_answers (by decide),
    next_of_answers (by decide), next_of_answers (by decide), next_of_answers (by decide), by decide⟩

/-- A 16-bit bus, an 8-bit bus and an instance without lines; each strobe absent; an odd length. -/
theorem witness_GpioCommandsRefuseOtherBuses :
    (Admitted (gpioPins bus16) bus16 ∧ bus16.cfg.dataLines.length ≠ 8) ∧
    (Admitted (gpioPins bus8) bus8 ∧ bus8.cfg.dataLines.length ≠ 16) ∧
    (Admitted (gpioPins (busOf 0)) (busOf 0) ∧ (busOf 0).cfg.dataLines.length ≠ 8) ∧
    (let s := withCfg (fun c => { c with writeStrobeLine := none, readStrobeLine := none }) bus8
     Admitted (gpioPins s) s ∧ s.cfg.dataLines.length = 8 ∧ s.cfg.writeStrobeLine = none ∧
      s.cfg.readStrobeLine = none) ∧
    (let s := withCfg (fun c => { c with writeStrobeLine := none, readStrobeLine := none }) bus16
     Admitted (gpioPins s) s ∧ s.cfg.dataLines.length = 16 ∧ s.cfg.writeStrobeLine = none ∧
      s.cfg.readStrobeLine = none) ∧
    bus16.cfg.dataLines.length = 16 ∧ bus16.cfg.writeStrobeLine.isSome = true ∧
    bus16.cfg.readStrobeLine.isSome = true ∧ 1 % 2 = 1 := by decide

/-- Seven lines; two roles on one line; a sleep-capable chip-select and a sleep-capable data line. -/
theorem witness_InadmissibleCallsAreRefused :
    bus8.seq = .idle ∧ (Instr.writeSpi 0 1).opcode ≠ 0x05 ∧
    ((busOf 7).cfg.dataLines.length ≠ 8 ∧ (busOf 7).cfg.dataLines.length ≠ 16 ∧
      (busOf 7).cfg.dataLines.length ≠ 0) ∧
    (let c := { Config.default with readStrobeLine := some ⟨1, false⟩ }
     c.dataLines.length = 8 ∧ ¬ ((configPins c).map Pin.id).Nodup) ∧
    (let c := { Config.default with chipSelectLine := some ⟨0, true⟩ }
     c.dataLines.length = 8 ∧ ((configPins c).map Pin.id).Nodup ∧
      c.chipSelectLine = some ⟨0, true⟩ ∧ (⟨0, true⟩ : Pin).maySleep = true) ∧
    (let c := { Config.default with readStrobeLine := some ⟨2, true⟩ }
     c.dataLines.length = 8 ∧ ((configPins c).map Pin.id).Nodup ∧
      0x03 ≤ (Instr.writeGpio8Wr 0 1).opcode.toNat ∧ ∃ p ∈ configPins c, p.maySleep = true) ∧
    ({ bus8 with maySuspend := false } : State).maySuspend = false := by decide

/-- An instance for SPI alone, with no lines and no strobes, and GPIO instances without a bus handle and with one strobe
each; a request that ends one past the address space, and one whose last byte is not the host's. -/
theorem witness_RequestsOutsideHostMemoryAreRefused :
    (let s := withCfg (fun c => { c with writeStrobeLine := none, readStrobeLine := none }) (busOf 0)
     Admitted (spiPins s) s ∧ s.cfg.busHandle.isSome = true ∧ s.cfg.startByte = none ∧
      s.cfg.scratchBuffer = some 90 ∧ 16 % 8 = 0 ∧ 16 % groupSpan s.cfg = 0 ∧ outLen s.cfg 16 ≤ 90) ∧
    ((startByte 0).cfg.startByte.isSome = true ∧ 2 ≤ (startByte 0).cfg.stageSize) ∧
    (let s := withCfg (fun c => { c with busHandle := none, readStrobeLine := none }) bus8
     Admitted (gpioPins s) s ∧ s.cfg.dataLines.length = 8 ∧ s.cfg.writeStrobeLine.isSome = true) ∧
    (let s := withCfg (fun c => { c with busHandle := none, writeStrobeLine := none }) bus16
     Admitted (gpioPins s) s ∧ s.cfg.dataLines.length = 16 ∧ 2 % 2 = 0 ∧ s.cfg.readStrobeLine.isSome = true) ∧
    2 ^ bus16.cfg.aw < 0xFFFFFFFF + 2 ∧ 0xFFFFFFFE + 2 ≤ 2 ^ bus16.cfg.aw ∧
    (let s := { bus16 with foreign := [⟨0xFFFFFFFF, 1⟩] }
     ∃ r ∈ s.foreign, ∃ a, 0xFFFFFFFE ≤ a ∧ a < 0xFFFFFFFE + 2 ∧ r.base ≤ a ∧ a < r.base + r.size) :=
  ⟨by decide, by decide, by decide, by decide, by decide, by decide,
    ⟨⟨0xFFFFFFFF, 1⟩, by decide, 0xFFFFFFFF, by decide⟩⟩

theorem witness_ResponseWordsFollowTheTable :
    (Response.err .notImplemented).word0 ≠ 5 ∧ (Response.err (.hardwareTransferFailed 0x80000000)).word0 = 5 := by
  decide

/-- The six frames: a command that answers, and a pin that is none of its own. -/
theorem witness_FrameOfWriteSpi :
    exec (.writeSpi 0 1) bus8 = .next (out (exec (.writeSpi 0 1) bus8)) ∧
    ∀ cs, bus8.cfg.chipSelectLine = some cs → 1 ≠ cs.id :=
  ⟨next_of_answers (by decide), by rintro cs ⟨⟩; decide⟩

theorem witness_FrameOfReadSpi :
    (let s := withSpi 0 [] bus8
     exec (.readSpi 8 1) s = .next (out (exec (.readSpi 8 1) s)) ∧ s.cfg.startByte = none ∧
      (∀ cs, s.cfg.chipSelectLine = some cs → 1 ≠ cs.id) ∧ ¬ (8 ≤ 7 ∧ 7 < 8 + 1) ∧ ¬ (8 ≤ 9 ∧ 9 < 8 + 1)) :=
  ⟨next_of_answers (by decide), rfl, by rintro cs ⟨⟩; decide, by decide, by decide⟩

theorem witness_FrameOfWriteSpiEmulate9 :
    (let s := withSpi 0 [] bus8
     SourceValues s.cfg ∧ exec (.writeSpiEmulate9 0 16) s = .next (out (exec (.writeSpiEmulate9 0 16) s)) ∧
      9 * (16 / 16) ≤ 9 ∧ ∀ cs, s.cfg.chipSelectLine = some cs → 1 ≠ cs.id) :=
  ⟨by decide, next_of_answers (by decide), by decide, by rintro cs ⟨⟩; decide⟩

theorem witness_FrameOfGpioWrites :
    exec (.writeGpio8Wr 0 0) bus8 = .next (out (exec (.writeGpio8Wr 0 0) bus8)) ∧
    exec (.writeGpio16Wr 0 2) bus16 = .next (out (exec (.writeGpio16Wr 0 2) bus16)) ∧
    (∀ cs, bus8.cfg.chipSelectLine = some cs → 2 ≠ cs.id) ∧ (∀ wr, bus8.cfg.writeStrobeLine = some wr → 2 ≠ wr.id) ∧
    ∀ p ∈ bus8.cfg.dataLines, 2 ≠ p.id :=
  ⟨next_of_answers (by decide), next_of_answers (by decide), by rintro cs ⟨⟩; decide, by rintro wr ⟨⟩; decide,
    by decide⟩

theorem witness_FrameOfGpioReads :
    exec (.readGpio8 8 1) bus8 = .next (out (exec (.readGpio8 8 1) bus8)) ∧
    exec (.readGpio16 8 2) bus16 = .next (out (exec (.readGpio16 8 2) bus16)) ∧
    (∀ cs, bus8.cfg.chipSelectLine = some cs → 1 ≠ cs.id) ∧ (∀ rd, bus8.cfg.readStrobeLine = some rd → 1 ≠ rd.id) ∧
    ¬ (8 ≤ 7 ∧ 7 < 8 + 1) ∧ ¬ (8 ≤ 9 ∧ 9 < 8 + 1) :=
  ⟨next_of_answers (by decide), next_of_answers (by decide), by rintro cs ⟨⟩; decide, by rintro rd ⟨⟩; decide,
    by decide, by decide⟩

theorem witness_FrameOfLatchedWrite :
    exec (.writeGpio16WrLatched 0 1) bus8 = .next (out (exec (.writeGpio16WrLatched 0 1) bus8)) :=
  next_of_answers (by decide)

end Sys2Proof.Tests
end

/-! Proofs of the family on scope: what one step does with the host's queue, and the state after reset. -/

section
namespace Sys2Proof.Proofs

open Sys2Proof.Machine Sys2Proof.Safety

/-! ### The step on an empty queue and on a descriptor that decodes -/

/-- R40 (log 1): with nothing to issue the block stays as it is. -/
theorem step_of_queue_nil {s : State} (hq : s.queue = []) : step s = .next s := by
  simp [step, nextIssue, hq]

/-- R9: the next descriptor is taken, then the command it decodes to runs. -/
theorem step_of_decode {s : State} {d : Descriptor} {rest : List Descriptor} {i : Instr}
    (hq : s.queue = d :: rest) (hd : decode s.cfg.aw d = .ok i) :
    step s = exec i { s with queue := rest } := by
  simp [step, nextIssue, hq, hd]

/-- Settles O5: the two branches of the step. -/
theorem stepRunsTheDecodedCommand : Obligations.StepRunsTheDecodedCommand :=
  ⟨fun _ _ _ _ => step_of_decode, fun _ => step_of_queue_nil⟩

/-! ### What an answered descriptor leaves behind -/

/-- R41, of the commands: an answered command appends one response, leaves the host's queue and ends idle. -/
theorem exec_responds_once {i : Instr} {s t : State} (h : exec i s = .next t) :
    (∃ r, t.responses = s.responses ++ [r]) ∧ t.queue = s.queue ∧ t.seq = .idle := by
  obtain ⟨evs, r, hsum⟩ := exec_summary h
  exact ⟨⟨r, hsum.responses⟩, hsum.queue, hsum.seq⟩

/-- Settles O8: by the cases of a step with a descriptor in the queue, which runs a command or answers a reserved
descriptor with an error. -/
theorem oneResponseForEachDescriptor : Obligations.OneResponseForEachDescriptor := by
  intro s t d rest hq h
  obtain ⟨hnil, -⟩ | ⟨d', rest', i, hq', -, hexec⟩ | ⟨d', rest', hq', -, -, rfl⟩ := step_cases h
  · cases hq.symm.trans hnil
  · cases hq.symm.trans hq'
    exact exec_responds_once hexec
  · cases hq.symm.trans hq'
    exact ⟨⟨.err .notImplemented, raise_responses ..⟩, raise_queue .., raise_seq ..⟩

/-! ### Reset -/

/-- The latches after reset are in canonical form: three distinct pins at level 1, in rising order (log 5). -/
theorem latch_wf_reset : Latch.wf State.reset.latch := by decide

/-- R18, R35, R36, R41: what holds between commands holds after reset. -/
theorem inv_reset : Inv State.reset :=
  have hmem : Memory.wf State.reset.mem := ⟨.nil, fun _ hc => absurd hc List.not_mem_nil⟩
  have hprev : State.reset.prev.toNat < 2 ^ State.reset.cfg.dataLines.length := by decide
  ⟨hmem, latch_wf_reset, hprev, List.length_replicate, List.length_replicate, rfl⟩

/-- Nothing has been emitted at reset, so every event so far is legal. -/
theorem traceOk_reset : TraceOk State.reset := fun _ he => absurd he List.not_mem_nil

/-- R7: the configuration of the reset state has the parameters at the values the source gives. -/
theorem sourceValues_reset : SourceValues State.reset.cfg := by decide

/-- Settles O10, from the two invariants and the parameters at reset. -/
theorem resetMeetsTheInvariants : Obligations.ResetMeetsTheInvariants :=
  ⟨inv_reset, traceOk_reset, sourceValues_reset⟩

end Sys2Proof.Proofs
end

/-! Proofs of the family on state: admission, what a step cannot change, and what each command stores and leaves
alone. -/

section
namespace Sys2Proof.Proofs

open Sys2Proof.Machine Sys2Proof.Safety

/-! ### Admission, case by case -/

/-- The pins a command may use: chip-select for an SPI command, every configured pin for a GPIO command (R88). -/
def usedPins (i : Instr) (s : State) : List Pin := if 0x03 ≤ i.opcode.toNat then gpioPins s else spiPins s

theorem gpioWrite_of_admission {w : Nat} {op : BitVec 8} {addr len : Nat} {ws : List Word} {s : State} {r : Refusal}
    (h : admission (gpioPins s) s = some r) : gpioWrite w op addr len ws s = .refused r := by
  simp [gpioWrite, h]

theorem gpioRead_of_admission {w : Nat} {op : BitVec 8} {addr len : Nat} {toBytes : Word → List Byte} {s : State}
    {r : Refusal} (h : admission (gpioPins s) s = some r) : gpioRead w op addr len toBytes s = .refused r := by
  simp [gpioRead, h]

/-- Every command but the always-failing one is refused where it is not admitted. -/
theorem exec_of_admission {i : Instr} {s : State} {r : Refusal} (hi : i.opcode ≠ 0x05)
    (h : admission (usedPins i s) s = some r) : exec i s = .refused r := by
  cases i with
  | writeSpi addr len => simp [exec, execWriteSpi, show admission (spiPins s) s = some r from h]
  | readSpi addr len => simp [exec, execReadSpi, show admission (spiPins s) s = some r from h]
  | writeSpiEmulate9 addr len => simp [exec, execWriteSpiEmulate9, show admission (spiPins s) s = some r from h]
  | writeGpio8Wr addr len => exact gpioWrite_of_admission h
  | writeGpio16Wr addr len => exact gpioWrite_of_admission h
  | writeGpio16WrLatched addr len => exact absurd rfl hi
  | readGpio8 addr len => exact gpioRead_of_admission h
  | readGpio16 addr len => exact gpioRead_of_admission h

theorem admission_of_busy {used : List Pin} {s : State} (h : s.seq = .busy) :
    admission used s = some .issueWhileBusy := by
  simp [admission, h]

theorem admission_of_lineCount {used : List Pin} {s : State} (hs : s.seq = .idle) (hl : lineCountOk s.cfg = false) :
    admission used s = some .dataLineCount := by
  simp [admission, hs, hl]

theorem admission_of_pins {used : List Pin} {s : State} (hs : s.seq = .idle) (hl : lineCountOk s.cfg = true)
    (hp : pinsDistinct s.cfg = false) : admission used s = some .pinsNotDistinct := by
  simp [admission, hs, hl, hp]

theorem admission_of_context {used : List Pin} {s : State} (hs : s.seq = .idle) (hl : lineCountOk s.cfg = true)
    (hp : pinsDistinct s.cfg = true) (hc : contextAdmits used s = false) :
    admission used s = some .suspensionForbidden := by
  simp [admission, hs, hl, hp, hc]

/-- A used pin that may sleep is what a context without suspension forbids (R88). -/
theorem contextAdmits_of_sleepy {i : Instr} {s : State} (hm : s.maySuspend = false)
    (h : (∃ cs, s.cfg.chipSelectLine = some cs ∧ cs.maySleep = true) ∨
      (0x03 ≤ i.opcode.toNat ∧ ∃ p ∈ configPins s.cfg, p.maySleep = true)) :
    contextAdmits (usedPins i s) s = false := by
  have hused : ∃ p ∈ usedPins i s, p.maySleep = true := by
    unfold usedPins
    split
    · obtain ⟨cs, hcs, hsl⟩ | ⟨-, hp⟩ := h
      · exact ⟨cs, mem_configPins_cs hcs, hsl⟩
      · exact hp
    · obtain ⟨cs, hcs, hsl⟩ | ⟨hop, -⟩ := h
      · exact ⟨cs, by simp [spiPins, hcs], hsl⟩
      · contradiction
  simpa [contextAdmits, hm] using hused

/-- Settles O50: each clause is one refusal of the admission. -/
theorem inadmissibleCallsAreRefused : Obligations.InadmissibleCallsAreRefused := by
  intro i s hs hi
  refine ⟨fun hl => ?_, fun hl => ⟨fun hp => ?_, fun hp hm hsleep => ?_⟩⟩
  · have hl' : lineCountOk s.cfg = false := by simpa [lineCountOk, and_assoc] using hl
    exact exec_of_admission hi (admission_of_lineCount hs hl')
  · exact exec_of_admission hi (admission_of_pins hs (lineCountOk_iff.2 hl) (by simpa [pinsDistinct] using hp))
  · exact exec_of_admission hi (admission_of_context hs (lineCountOk_iff.2 hl) (by simpa [pinsDistinct] using hp)
      (contextAdmits_of_sleepy hm hsleep))

/-- Settles O7: admission looks at the sequencer first, and so does the always-failing command. -/
theorem issueWhileBusyIsRefused : Obligations.IssueWhileBusyIsRefused := by
  intro i s h
  cases i with
  | writeGpio16WrLatched addr len => simp [exec, execWriteGpio16WrLatched, alwaysFails, h]
  | _ => exact exec_of_admission (by simp [Instr.opcode]) (admission_of_busy h)

/-- Settles O9: the fields of the reset state as it is written out. -/
theorem resetClearsPrevAndIdles : Obligations.ResetClearsPrevAndIdles := ⟨rfl, rfl, rfl, rfl, rfl, rfl⟩

/-! ### What a step cannot change -/

/-- Settles O13: an issue and a command keep the three fields, and so does the answer to a reserved descriptor. -/
theorem configurationIsImmutable : Obligations.ConfigurationIsImmutable := by
  intro s t h
  obtain ⟨-, rfl⟩ | ⟨d, rest, i, -, -, hexec⟩ | ⟨d, rest, -, -, -, rfl⟩ := step_cases h
  · exact ⟨rfl, rfl, rfl⟩
  · obtain ⟨evs, r, hsum⟩ := exec_summary hexec
    exact ⟨hsum.cfg, hsum.foreign, hsum.maySuspend⟩
  · exact ⟨rfl, rfl, rfl⟩

/-- Settles O14: a command's events are those of its summary; the other steps have none. -/
theorem latchesFollowTheTrace : Obligations.LatchesFollowTheTrace := by
  intro s t h
  obtain ⟨-, rfl⟩ | ⟨d, rest, i, -, -, hexec⟩ | ⟨d, rest, -, -, -, rfl⟩ := step_cases h
  · exact ⟨[], (List.append_nil _).symm, rfl⟩
  · obtain ⟨evs, r, hsum⟩ := exec_summary hexec
    exact ⟨evs, hsum.trace, hsum.latch⟩
  · exact ⟨[], (List.append_nil _).symm, rfl⟩

/-! ### Latches off the pins a command writes -/

@[simp] theorem writesPin_pw {pin : Nat} {p : Pin} {b : Bool} : writesPin pin (pw p b) = (p.id == pin) := rfl

/-- The guard writes chip-select alone. -/
theorem level_replay_guarded {cfg : Cfg} {mid : List Event} {pin : Nat} {l : List (Nat × Bool)}
    (hcs : ∀ cs, cfg.chipSelectLine = some cs → pin ≠ cs.id) (hmid : ∀ e ∈ mid, writesPin pin e = false) :
    level (replay l (guarded cfg mid)) pin = level l pin := by
  refine level_replay_of_not_written (fun e he => ?_) l
  cases hc : cfg.chipSelectLine with
  | none => exact hmid e (by simpa [guarded, hc] using he)
  | some cs =>
    have hne : cs.id ≠ pin := (hcs cs hc).symm
    simp only [guarded, hc, List.mem_cons, List.mem_append, List.not_mem_nil, or_false] at he
    obtain rfl | he | rfl := he
    · simpa using hne
    · exact hmid e he
    · simpa using hne

/-- The events of a failed precondition check leave every latch but chip-select's. -/
theorem level_replay_precheckEvents {cfg : Cfg} {pin : Nat} {l : List (Nat × Bool)}
    (hcs : ∀ cs, cfg.chipSelectLine = some cs → pin ≠ cs.id) :
    level (replay l (precheckEvents cfg)) pin = level l pin := by
  unfold precheckEvents
  split
  · rfl
  · exact level_replay_guarded hcs (by simp)

/-- Write cycles write the strobe and the data lines (R121). -/
theorem burstEvents_not_writesPin {cfg : Cfg} {wr : Pin} {prev : Word} {ws : List Word} {pin : Nat}
    (hwr : pin ≠ wr.id) (hlines : ∀ p ∈ cfg.dataLines, pin ≠ p.id) :
    ∀ e ∈ burstEvents cfg wr prev ws, writesPin pin e = false := by
  intro e he
  obtain ⟨b, rfl⟩ | ⟨p, b, hp, rfl⟩ := mem_burstEvents he
  · simpa using hwr.symm
  · simpa using (hlines p hp).symm

/-- Read cycles write the strobe (R131). -/
theorem readCycleEvents_not_writesPin {rd : Pin} {s : State} {n pin : Nat} (hrd : pin ≠ rd.id) :
    ∀ e ∈ (List.range n).flatMap (readCycleEvents rd s), writesPin pin e = false := by
  intro e he
  obtain ⟨j, -, hj⟩ := List.mem_flatMap.1 he
  obtain ⟨b, rfl⟩ | rfl | ⟨p, b, -, rfl⟩ := mem_readCycleEvents hj
  · simpa using hrd.symm
  · rfl
  · rfl

/-! ### Memory after a store -/

/-- Bytes stored in a request leave every byte outside it (R46). -/
theorem memByte_of_storeCells {s t : State} {addr len a : Nat} {bytes : List Byte}
    (hmem : t.mem = storeCells s.mem addr bytes) (hlen : bytes.length ≤ len) (ha : ¬ (addr ≤ a ∧ a < addr + len)) :
    memByte t a = memByte s a := by
  rw [memByte, hmem, read_storeCells, if_neg (by omega)]
  rfl

theorem memByte_of_mem {s t : State} (hmem : t.mem = s.mem) (a : Nat) : memByte t a = memByte s a := by
  rw [memByte, hmem]
  rfl

/-! ### What the SPI commands leave -/

/-- What every SPI command leaves, beside the buffers of its own: `PREV`, the pin answers and every latch but
chip-select's; it uses at most one transfer answer and `n` draws. -/
structure SpiFrame (n : Nat) (s t : State) : Prop where
  transfer : AtMostOneTransfer n s t
  prev : t.prev = s.prev
  pinAnswers : t.pinAnswers = s.pinAnswers
  level : ∀ pin, (∀ cs, s.cfg.chipSelectLine = some cs → pin ≠ cs.id) → level t.latch pin = level s.latch pin

/-- A command that stops at a failed check, as `answered` or after the packing, emits the events of that check alone. -/
theorem spiFrame_of_precheckEvents {n : Nat} {s t : State} (hspi : t.spiAnswers = s.spiAnswers)
    (hdraws : t.draws = s.draws) (hprev : t.prev = s.prev) (hpin : t.pinAnswers = s.pinAnswers)
    (hlatch : t.latch = replay s.latch (precheckEvents s.cfg)) : SpiFrame n s t where
  transfer := .inl ⟨hspi, hdraws⟩
  prev := hprev
  pinAnswers := hpin
  level := fun _ hcs => hlatch ▸ level_replay_precheckEvents hcs

theorem spiFrame_answered (n : Nat) (i : Instr) (e : IoError) (s : State) :
    SpiFrame n s (answered i (.err e) (precheckEvents s.cfg) s) :=
  spiFrame_of_precheckEvents rfl rfl rfl rfl rfl

/-- A command that runs one transfer inside the guard. -/
theorem spiFrame_of_transfer {n : Nat} {s t : State} {spec : SpiSpec} (hspi : t.spiAnswers = s.spiAnswers.tail)
    (hdraws : s.draws < t.draws ∧ t.draws ≤ s.draws + n) (hprev : t.prev = s.prev)
    (hpin : t.pinAnswers = s.pinAnswers) (hlatch : t.latch = replay s.latch (guarded s.cfg [spiEvent spec s])) :
    SpiFrame n s t where
  transfer := .inr ⟨hspi, hdraws⟩
  prev := hprev
  pinAnswers := hpin
  level := fun _ hcs => hlatch ▸ level_replay_guarded hcs (by simp [spiEvent, writesPin])

theorem writeSpi_frame {addr len : Nat} {s t : State} (h : exec (.writeSpi addr len) s = .next t) :
    SpiFrame 1 s t ∧ t.mem = s.mem ∧ t.scratch = s.scratch ∧ t.acc = s.acc ∧ t.stage = s.stage := by
  obtain ⟨-, ⟨-, rfl⟩ | ⟨-, -, -, rfl⟩⟩ := execWriteSpi_cases h
  · exact ⟨spiFrame_answered .., rfl, rfl, rfl, rfl⟩
  · exact ⟨spiFrame_of_transfer rfl ⟨Nat.lt_succ_self _, Nat.le_refl _⟩ rfl rfl rfl, rfl, rfl, rfl, rfl⟩

/-- The bytes a read leaves in its request: the received ones, or drawn ones after a failure (R102, R110). -/
def filledBytes (len : Nat) (status : BitVec 32) (rx : List Byte) (draws : Nat) : List Byte :=
  if status = 0 then rx else drawnBytes draws len

/-- R102: a failed read draws once more. -/
def filledDraws (status : BitVec 32) (draws : Nat) : Nat := if status = 0 then draws else draws + 1

theorem fillRead_stores (addr len : Nat) (status : BitVec 32) (rx : List Byte) (s : State) :
    fillRead addr len status rx s = { s with
      mem := storeCells s.mem addr (filledBytes len status rx s.draws), draws := filledDraws status s.draws } := by
  unfold fillRead filledBytes filledDraws
  split <;> rfl

theorem filledBytes_length {len : Nat} {status : BitVec 32} {rx : List Byte} {draws : Nat} (h : rx.length = len) :
    (filledBytes len status rx draws).length = len := by
  unfold filledBytes
  split
  · exact h
  · simp [drawnBytes]

theorem filledDraws_bounds (status : BitVec 32) (draws : Nat) :
    draws ≤ filledDraws status draws ∧ filledDraws status draws ≤ draws + 1 := by
  unfold filledDraws
  split <;> omega

/-- `STAGE` when a read is staged (R110): built afresh where a start byte is configured. -/
def stagedBytes (c : Cfg) (len : Nat) (old : List Byte) : List Byte :=
  match c.startByte with
  | none => old
  | some b => stageFor c b len

theorem stageRead_stages (len : Nat) (s : State) :
    stageRead len s = { s with stage := stagedBytes s.cfg len s.stage } := by
  cases hb : s.cfg.startByte <;> simp [stageRead, stagedBytes, hb]

theorem stagedBytes_of_none {c : Cfg} {len : Nat} {old : List Byte} (h : c.startByte = none) :
    stagedBytes c len old = old := by
  simp [stagedBytes, h]

/-- `STAGE` keeps the size R35 gives it. -/
theorem stagedBytes_length {c : Cfg} {len : Nat} {old : List Byte} (h : old.length = c.stageSize) :
    (stagedBytes c len old).length = c.stageSize := by
  unfold stagedBytes
  split
  · exact h
  · exact stageFor_length ..

theorem readSpi_frame {addr len : Nat} {s t : State} (h : exec (.readSpi addr len) s = .next t) :
    SpiFrame 2 s t ∧ (∃ bytes, bytes.length ≤ len ∧ t.mem = storeCells s.mem addr bytes) ∧
    t.scratch = s.scratch ∧ t.acc = s.acc ∧
    (t.stage = s.stage ∨ t.stage = stagedBytes s.cfg len s.stage) := by
  obtain ⟨-, ⟨-, rfl⟩ | ⟨-, -, rfl⟩ | ⟨-, -, -, -, rfl⟩⟩ := execReadSpi_cases h
  · exact ⟨spiFrame_answered .., ⟨[], Nat.zero_le _, rfl⟩, rfl, rfl, .inl rfl⟩
  · exact ⟨spiFrame_answered .., ⟨[], Nat.zero_le _, rfl⟩, rfl, rfl, .inl rfl⟩
  · have hdraws := filledDraws_bounds (nextStatus s) (s.draws + 1)
    rw [fillRead_stores, stageRead_stages]
    exact ⟨spiFrame_of_transfer rfl ⟨hdraws.1, hdraws.2⟩ rfl rfl rfl,
      ⟨_, (filledBytes_length (nextRx_length s len)).le, rfl⟩, rfl, rfl, .inr rfl⟩

theorem emulate9_frame {addr len : Nat} {s t : State} (h : exec (.writeSpiEmulate9 addr len) s = .next t) :
    SpiFrame 1 s t ∧ t.mem = s.mem ∧ t.stage = s.stage ∧
    (t.scratch = s.scratch ∨ t.scratch = (packed addr len s).scratch) := by
  obtain ⟨-, ⟨-, rfl⟩ | ⟨cap, -, ⟨-, rfl⟩ | ⟨-, -, -, -, ⟨-, rfl⟩ | ⟨-, -, rfl⟩⟩⟩⟩ := execWriteSpiEmulate9_cases h
  · exact ⟨spiFrame_answered .., rfl, rfl, .inl rfl⟩
  · exact ⟨spiFrame_answered .., rfl, rfl, .inl rfl⟩
  · rw [packed_eq]
    exact ⟨spiFrame_of_precheckEvents rfl rfl rfl rfl rfl, rfl, rfl, .inr rfl⟩
  · rw [packed_eq]
    exact ⟨spiFrame_of_transfer rfl ⟨Nat.lt_succ_self _, Nat.le_refl _⟩ rfl rfl rfl, rfl, rfl, .inr rfl⟩

theorem packed_scratch_length (addr len : Nat) (s : State) : (packed addr len s).scratch.length = s.scratch.length :=
  packGroups_scratch_length ..

/-- `SCRATCH` keeps its size (R36). -/
theorem emulate9_scratch_length {addr len : Nat} {s t : State} (h : exec (.writeSpiEmulate9 addr len) s = .next t) :
    t.scratch.length = s.scratch.length := by
  obtain ⟨-, -, -, hkept | hpacked⟩ := emulate9_frame h
  · rw [hkept]
  · rw [hpacked, packed_scratch_length]

/-- What packing leaves in `SCRATCH` (R117), as `packGroups_scratch` says it of the groups alone. -/
theorem packed_scratch_getElem? {addr len : Nat} {s : State} (hbytes : s.cfg.groupBytes = 9) {k : Nat}
    (hk : k < s.scratch.length) :
    (packed addr len s).scratch[k]? = if k < 9 * groupCount s.cfg len then
      (groupOutput s.cfg.groupWords (groupWord addr (k / 9) s))[k % 9]? else s.scratch[k]? :=
  packGroups_scratch addr (groupCount s.cfg len) (issue 0x02 addr len s) hbytes k hk

/-- Packing leaves the bytes of `SCRATCH` past the nine of each group (R117). -/
theorem packed_scratch_above {addr len : Nat} {s : State} (hv : SourceValues s.cfg) {k : Nat}
    (hk : 9 * (len / 16) ≤ k) : (packed addr len s).scratch[k]? = s.scratch[k]? := by
  have hcount : groupCount s.cfg len = len / 16 := by rw [groupCount, groupSpan_eq hv]
  obtain ⟨-, -, -, -, -, hbytes, -⟩ := hv
  by_cases hlt : k < s.scratch.length
  · rw [packed_scratch_getElem? hbytes hlt, hcount, if_neg (by omega)]
  · have hlen := packed_scratch_length addr len s
    rw [List.getElem?_eq_none (by omega), List.getElem?_eq_none (by omega)]

/-! ### What the GPIO commands leave -/

/-- What every GPIO command leaves: the wire, the buffers, the transfer answers, and every latch but those of
chip-select, its strobe and the data lines it drives. -/
structure GpioFrame (strobe : Option Pin) (lines : List Pin) (s t : State) : Prop where
  wire : t.wire = s.wire
  scratch : t.scratch = s.scratch
  acc : t.acc = s.acc
  stage : t.stage = s.stage
  spiAnswers : t.spiAnswers = s.spiAnswers
  level : ∀ pin, (∀ cs, s.cfg.chipSelectLine = some cs → pin ≠ cs.id) → (∀ p, strobe = some p → pin ≠ p.id) →
    (∀ p ∈ lines, pin ≠ p.id) → level t.latch pin = level s.latch pin

theorem gpioWrite_frame {w : Nat} {op : BitVec 8} {addr len : Nat} {ws : List Word} {s t : State}
    (h : gpioWrite w op addr len ws s = .next t) :
    GpioFrame s.cfg.writeStrobeLine s.cfg.dataLines s t ∧ s.cfg.dataLines.length = w ∧ t.mem = s.mem ∧
    t.pinAnswers = s.pinAnswers ∧ t.draws = s.draws ∧ t.prev = lastWord s.prev ws := by
  obtain ⟨wr, -, hw, hs, -, -, rfl⟩ := gpioWrite_cases h
  refine ⟨⟨rfl, rfl, rfl, rfl, rfl, fun pin hcs hwr hlines => ?_⟩, hw, rfl, rfl, rfl, rfl⟩
  exact level_replay_guarded hcs (burstEvents_not_writesPin (hwr wr hs) hlines)

theorem flatMap_length_const {toBytes : Word → List Byte} {k : Nat} (hk : ∀ w, (toBytes w).length = k)
    (ws : List Word) : (ws.flatMap toBytes).length = ws.length * k := by
  simp [List.length_flatMap, hk]

/-- A read stores `w / 8` bytes for each word, so exactly the bytes of its request. -/
theorem gpioRead_frame {w : Nat} {op : BitVec 8} {addr len : Nat} {toBytes : Word → List Byte} {s t : State}
    (hbytes : ∀ v, (toBytes v).length = w / 8) (h : gpioRead w op addr len toBytes s = .next t) :
    GpioFrame s.cfg.readStrobeLine [] s t ∧ t.prev = s.prev ∧
    (∃ bytes, bytes.length ≤ len ∧ t.mem = storeCells s.mem addr bytes) ∧
    t.pinAnswers = s.pinAnswers.drop (len / (w / 8) * w) ∧ t.draws = s.draws + len / (w / 8) * w := by
  obtain ⟨rd, -, -, hs, -, -, rfl⟩ := gpioRead_cases h
  refine ⟨⟨rfl, rfl, rfl, rfl, rfl, fun pin hcs hrd _ => ?_⟩, rfl, ⟨_, ?_, rfl⟩, rfl, rfl⟩
  · exact level_replay_guarded hcs (readCycleEvents_not_writesPin (hrd rd hs))
  · rw [flatMap_length_const hbytes, List.length_map, List.length_range]
    exact Nat.div_mul_le_self ..

theorem bytesOfWord_length (o : WordOrder) (w : Word) : (bytesOfWord o w).length = 2 := by
  cases o <;> rfl

end Sys2Proof.Proofs
end

/-! Proofs of the family on state: the frames of the commands, and the invariant of a run. -/

section
namespace Sys2Proof.Proofs

open Sys2Proof.Machine Sys2Proof.Safety

/-! ### The frames -/

/-- Settles O53: the frame every SPI command has, and no buffer touched. -/
theorem frameOfWriteSpi : Obligations.FrameOfWriteSpi := by
  intro addr len s t h
  obtain ⟨evs, r, hsum⟩ := exec_summary h
  obtain ⟨hspi, hmem, hscratch, hacc, hstage⟩ := writeSpi_frame h
  exact ⟨hsum.recorded, hspi.transfer, hsum.cfg, hspi.prev, hscratch, hacc, hstage, hsum.foreign, hsum.maySuspend,
    hsum.queue, hspi.pinAnswers, hspi.level, memByte_of_mem hmem⟩

/-- Settles O54: the frame every SPI command has, with `STAGE` as it is staged and bytes stored in the request. -/
theorem frameOfReadSpi : Obligations.FrameOfReadSpi := by
  intro addr len s t h
  obtain ⟨evs, r, hsum⟩ := exec_summary h
  obtain ⟨hspi, ⟨bytes, hlen, hmem⟩, hscratch, hacc, hstage⟩ := readSpi_frame h
  have hstage_none : s.cfg.startByte = none → t.stage = s.stage := fun hb =>
    hstage.elim id fun hread => hread.trans (stagedBytes_of_none hb)
  exact ⟨hsum.recorded, hspi.transfer, hsum.cfg, hspi.prev, hscratch, hacc, hstage_none, hsum.foreign,
    hsum.maySuspend, hsum.queue, hspi.pinAnswers, hspi.level, fun a ha => memByte_of_storeCells hmem hlen ha⟩

/-- Settles O55: the frame every SPI command has, with `SCRATCH` as the packing leaves it. -/
theorem frameOfWriteSpiEmulate9 : Obligations.FrameOfWriteSpiEmulate9 := by
  intro addr len s t hv h
  obtain ⟨evs, r, hsum⟩ := exec_summary h
  obtain ⟨hspi, hmem, hstage, hscratch⟩ := emulate9_frame h
  have habove : ∀ k, 9 * (len / 16) ≤ k → t.scratch[k]? = s.scratch[k]? := by
    intro k hk
    obtain hkept | hpacked := hscratch
    · rw [hkept]
    · rw [hpacked, packed_scratch_above hv hk]
  exact ⟨hsum.recorded, hspi.transfer, hsum.cfg, hspi.prev, hstage, emulate9_scratch_length h, habove,
    hsum.foreign, hsum.maySuspend, hsum.queue, hspi.pinAnswers, hspi.level, memByte_of_mem hmem⟩

/-- The two GPIO writes are one command of two widths, which sends no word where `LEN` is 0 (R128, R129). -/
theorem exec_gpioWrite {addr len : Nat} {i : Instr} {s : State}
    (hi : i = .writeGpio8Wr addr len ∨ i = .writeGpio16Wr addr len) :
    ∃ w op ws, exec i s = gpioWrite w op addr len ws s ∧ (len = 0 → ws = []) := by
  obtain rfl | rfl := hi
  · exact ⟨8, 0x03, _, rfl, fun h => by subst h; rfl⟩
  · exact ⟨16, 0x04, _, rfl, fun h => by subst h; rfl⟩

/-- Settles O56: the frame every GPIO command has, on the write strobe and the data lines. -/
theorem frameOfGpioWrites : Obligations.FrameOfGpioWrites := by
  intro addr len i s t hi h
  obtain ⟨evs, r, hsum⟩ := exec_summary h
  obtain ⟨w, op, ws, heq, hempty⟩ := exec_gpioWrite (s := s) hi
  obtain ⟨hgpio, -, hmem, hpin, hdraws, hprev⟩ := gpioWrite_frame (heq ▸ h)
  have hprev_zero : len = 0 → t.prev = s.prev := fun hl => by rw [hprev, hempty hl, lastWord_nil]
  exact ⟨hsum.recorded, hgpio.wire, hsum.cfg, hgpio.scratch, hgpio.acc, hgpio.stage, hsum.foreign, hsum.maySuspend,
    hsum.queue, hpin, hgpio.spiAnswers, hdraws, hprev_zero, hgpio.level, memByte_of_mem hmem⟩

/-- What the two GPIO reads have in common, with the number `n` of samples each takes (R136, R137). -/
theorem exec_gpioRead_frame {addr len : Nat} {i : Instr} {s t : State}
    (hi : i = .readGpio8 addr len ∨ i = .readGpio16 addr len) (h : exec i s = .next t) :
    GpioFrame s.cfg.readStrobeLine [] s t ∧ t.prev = s.prev ∧
    (∃ bytes, bytes.length ≤ len ∧ t.mem = storeCells s.mem addr bytes) ∧
    ∃ n, (i = .readGpio8 addr len ∧ n = 8 * len ∨ i = .readGpio16 addr len ∧ n = 16 * (len / 2)) ∧
      t.pinAnswers = s.pinAnswers.drop n ∧ t.draws = s.draws + n := by
  obtain rfl | rfl := hi
  · obtain ⟨hgpio, hprev, hmem, hpin, hdraws⟩ := gpioRead_frame (w := 8) (fun _ => rfl) h
    exact ⟨hgpio, hprev, hmem, len / (8 / 8) * 8, .inl ⟨rfl, by omega⟩, hpin, hdraws⟩
  · obtain ⟨hgpio, hprev, hmem, hpin, hdraws⟩ := gpioRead_frame (w := 16) (bytesOfWord_length s.cfg.wordOrder) h
    exact ⟨hgpio, hprev, hmem, len / (16 / 8) * 16, .inr ⟨rfl, by omega⟩, hpin, hdraws⟩

/-- Settles O57: the frame every GPIO command has, on the read strobe, and the samples of each width. -/
theorem frameOfGpioReads : Obligations.FrameOfGpioReads := by
  intro addr len i s t hi h
  obtain ⟨evs, r, hsum⟩ := exec_summary h
  obtain ⟨hgpio, hprev, ⟨bytes, hlen, hmem⟩, n, hn, hpin, hdraws⟩ := exec_gpioRead_frame hi h
  have hsamples8 : i = .readGpio8 addr len → n = 8 * len := by
    rintro rfl
    simpa using hn
  have hsamples16 : i = .readGpio16 addr len → n = 16 * (len / 2) := by
    rintro rfl
    simpa using hn
  exact ⟨hsum.recorded, hgpio.wire, fun h8 => hsamples8 h8 ▸ ⟨hpin, hdraws⟩, fun h16 => hsamples16 h16 ▸ ⟨hpin, hdraws⟩,
    hsum.cfg, hprev, hgpio.scratch, hgpio.acc, hgpio.stage, hsum.foreign, hsum.maySuspend, hsum.queue,
    hgpio.spiAnswers, fun pin hcs hrd => hgpio.level pin hcs hrd (by simp),
    fun a ha => memByte_of_storeCells hmem hlen ha⟩

/-- The always-failing command records an error and nothing else (R130). -/
theorem execWriteGpio16WrLatched_cases {addr len : Nat} {s t : State}
    (h : exec (.writeGpio16WrLatched addr len) s = .next t) :
    s.seq = .idle ∧ t = raise .notImplemented (issue 0x05 addr len s) := alwaysFails_cases h

/-- Settles O58: an issue and a response touch no other field. -/
theorem frameOfLatchedWrite : Obligations.FrameOfLatchedWrite := by
  intro addr len s t h
  obtain ⟨evs, r, hsum⟩ := exec_summary h
  obtain ⟨-, rfl⟩ := execWriteGpio16WrLatched_cases h
  exact ⟨hsum.recorded, rfl, rfl, rfl, rfl, rfl, rfl, rfl, rfl, rfl, rfl, rfl, rfl, rfl, rfl, fun _ => rfl⟩

/-! ### The invariant -/

/-- The part of the invariant each command has to be looked at for: memory, `PREV` and the two buffers. -/
def StoresOk (s t : State) : Prop :=
  Memory.wf t.mem ∧ t.prev.toNat < 2 ^ s.cfg.dataLines.length ∧ t.scratch.length = s.scratch.length ∧
  t.stage.length = s.cfg.stageSize

/-- What is the same for every command: the configuration, the sequencer and the latches. -/
theorem inv_of_storesOk {s t : State} {i : Instr} {evs : List Event} {r : Response} (hinv : Inv s)
    (hsum : Summary i s t evs r) (hok : StoresOk s t) : Inv t := by
  obtain ⟨-, hlatch, -, hcap, -, -⟩ := hinv
  obtain ⟨hmem, hprev, hscratch, hstage⟩ := hok
  have hlatch' : Latch.wf t.latch := hsum.latch ▸ latch_wf_replay hlatch evs
  rw [← hsum.cfg] at hprev hcap hstage
  exact ⟨hmem, hlatch', hprev, hscratch.trans hcap, hstage, hsum.seq⟩

/-- The last word sent is within the bus width when every word, and `PREV` before, is. -/
theorem lastWord_lt {n : Nat} {ws : List Word} (hws : ∀ w ∈ ws, w.toNat < n) {prev : Word} (hprev : prev.toNat < n) :
    (lastWord prev ws).toNat < n := by
  induction ws generalizing prev with
  | nil => exact hprev
  | cons w ws ih =>
    rw [lastWord_cons]
    exact ih (fun v hv => hws v (.tail _ hv)) (hws w (.head _))

/-- A GPIO write of words within its width. -/
theorem storesOk_gpioWrite {w : Nat} {op : BitVec 8} {addr len : Nat} {ws : List Word} {s t : State} (hinv : Inv s)
    (hws : ∀ v ∈ ws, v.toNat < 2 ^ w) (h : gpioWrite w op addr len ws s = .next t) : StoresOk s t := by
  obtain ⟨hmem, -, hprev, -, hstage, -⟩ := hinv
  obtain ⟨hgpio, rfl, hmem', -, -, hprev'⟩ := gpioWrite_frame h
  exact ⟨hmem' ▸ hmem, hprev' ▸ lastWord_lt hws hprev, by rw [hgpio.scratch], by rw [hgpio.stage, hstage]⟩

/-- A GPIO read stores bytes and nothing else. -/
theorem storesOk_gpioRead {addr len : Nat} {i : Instr} {s t : State} (hinv : Inv s)
    (hi : i = .readGpio8 addr len ∨ i = .readGpio16 addr len) (h : exec i s = .next t) : StoresOk s t := by
  obtain ⟨hmem, -, hprev, -, hstage, -⟩ := hinv
  obtain ⟨hgpio, hprev', ⟨bytes, -, hmem'⟩, -⟩ := exec_gpioRead_frame hi h
  exact ⟨hmem' ▸ storeCells_wf hmem addr bytes, hprev' ▸ hprev, by rw [hgpio.scratch], by rw [hgpio.stage, hstage]⟩

theorem toNat_wordOfByte_lt (b : Byte) : (wordOfByte b).toNat < 2 ^ 8 := by
  have hb := b.isLt
  simp only [wordOfByte, BitVec.toNat_setWidth]
  omega

theorem exec_storesOk {i : Instr} {s t : State} (hinv : Inv s) (h : exec i s = .next t) : StoresOk s t := by
  have ⟨hmem, _, hprev, _, hstage, _⟩ := hinv
  cases i with
  | writeSpi addr len =>
    obtain ⟨hspi, hmem', hscratch, -, hstage'⟩ := writeSpi_frame h
    exact ⟨hmem' ▸ hmem, hspi.prev ▸ hprev, by rw [hscratch], by rw [hstage', hstage]⟩
  | readSpi addr len =>
    obtain ⟨hspi, ⟨bytes, -, hmem'⟩, hscratch, -, hstage'⟩ := readSpi_frame h
    have hsize : t.stage.length = s.cfg.stageSize :=
      hstage'.elim (fun hkept => hkept ▸ hstage) fun hstaged => hstaged ▸ stagedBytes_length hstage
    exact ⟨hmem' ▸ storeCells_wf hmem addr bytes, hspi.prev ▸ hprev, by rw [hscratch], hsize⟩
  | writeSpiEmulate9 addr len =>
    obtain ⟨hspi, hmem', hstage', -⟩ := emulate9_frame h
    exact ⟨hmem' ▸ hmem, hspi.prev ▸ hprev, emulate9_scratch_length h, by rw [hstage', hstage]⟩
  | writeGpio8Wr addr len =>
    refine storesOk_gpioWrite (w := 8) hinv (fun v hv => ?_) h
    obtain ⟨b, -, rfl⟩ := List.mem_map.1 hv
    exact toNat_wordOfByte_lt b
  | writeGpio16Wr addr len => exact storesOk_gpioWrite (w := 16) hinv (fun v _ => v.isLt) h
  | writeGpio16WrLatched addr len =>
    obtain ⟨-, rfl⟩ := execWriteGpio16WrLatched_cases h
    exact ⟨hmem, hprev, rfl, hstage⟩
  | readGpio8 addr len => exact storesOk_gpioRead hinv (.inl rfl) h
  | readGpio16 addr len => exact storesOk_gpioRead hinv (.inr rfl) h

/-- Settles O11: taking a descriptor and answering a reserved one touch nothing the invariant speaks of but the
sequencer, and a command keeps it by its stores and its summary. -/
theorem everyStepKeepsTheInvariant : Obligations.EveryStepKeepsTheInvariant := by
  intro s t hinv h
  obtain ⟨-, rfl⟩ | ⟨d, rest, i, -, -, hexec⟩ | ⟨d, rest, -, -, -, rfl⟩ := step_cases h
  · exact hinv
  · have hissue : Inv { s with queue := rest } := hinv
    obtain ⟨evs, r, hsum⟩ := exec_summary hexec
    exact inv_of_storesOk hissue hsum (exec_storesOk hissue hexec)
  · obtain ⟨hmem, hlatch, hprev, hscratch, hstage, -⟩ := hinv
    exact ⟨hmem, hlatch, hprev, hscratch, hstage, rfl⟩

end Sys2Proof.Proofs
end

/-! Proofs of the family on state: what a command does not observe of earlier ones, and who uses `PREV`. -/

section
namespace Sys2Proof.Proofs

open Sys2Proof.Machine Sys2Proof.Safety

/-- The always-failing command, issued to an idle block (R130). -/
theorem execWriteGpio16WrLatched_fails {addr len : Nat} {s : State} (hs : s.seq = .idle) :
    exec (.writeGpio16WrLatched addr len) s = .next (raise .notImplemented (issue 0x05 addr len s)) := by
  simp [exec, execWriteGpio16WrLatched, alwaysFails, hs]

/-! ### What a read sends, and the packed write sent or not -/

/-- What a staged read transmits depends on the configuration alone (R35). -/
theorem readTx_stageRead (len : Nat) (s : State) :
    readTx len (stageRead len s) = s.cfg.startByte.map fun b => (stageFor s.cfg b len).take len := by
  cases hb : s.cfg.startByte <;> simp [readTx, stageRead, hb]

section Emulate9

variable {addr len cap : Nat} {s : State} (ha : Admitted (spiPins s) s) (hs : s.cfg.scratchBuffer = some cap)
  (hl : len % 8 = 0) (hg : len % groupSpan s.cfg = 0) (hc : outLen s.cfg len ≤ cap) (hr : RequestOk addr len s)

include ha hs hl hg hc hr

/-- Packed groups that no bus handle can send (R117, R107). -/
theorem execWriteSpiEmulate9_absent (hb : s.cfg.busHandle = none) :
    exec (.writeSpiEmulate9 addr len) s =
      .next (raise .deviceUnavailable (emits (precheckEvents s.cfg) (packed addr len s))) := by
  rw [execWriteSpiEmulate9_packs ha hs hl hg hc hr, spiWriteCore_absent (by simpa using hb), precheckFails_eq,
    packed_cfg]
  rfl

/-- Packed groups sent (R117). -/
theorem execWriteSpiEmulate9_sends (hb : s.cfg.busHandle.isSome = true) (hp : positiveStatus s = none) :
    exec (.writeSpiEmulate9 addr len) s = .next (respond (resultOfStatus (nextStatus s))
      (transferred (writeSpec s.cfg ((packed addr len s).scratch.take (outLen s.cfg len)) none)
        (packed addr len s))) := by
  have hp' : positiveStatus (packed addr len s) = none := by rw [packed_eq]; exact hp
  have hstatus : nextStatus (packed addr len s) = nextStatus s := by rw [packed_eq]; rfl
  rw [execWriteSpiEmulate9_packs ha hs hl hg hc hr, spiWriteCore_eq (by simpa using hb) hp', packed_cfg, hstatus]

end Emulate9

/-! ### What a command does not observe of earlier ones -/

/-- What earlier commands leave behind that no command may depend on: the operand registers, the buffers, the latches
and the records (R35, R36, R37, R42). -/
structure Leftovers where
  op : BitVec 8
  addr : Nat
  len : Nat
  acc : BitVec 64
  stage : List Byte
  scratch : List Byte
  latch : List (Nat × Bool)
  trace : List Event
  wire : List WirePulse
  responses : List Response

/-- A state with other leftovers. -/
def withLeftovers (x : Leftovers) (s : State) : State :=
  { s with
    op := x.op, addr := x.addr, len := x.len, acc := x.acc, stage := x.stage, scratch := x.scratch
    latch := x.latch, trace := x.trace, wire := x.wire, responses := x.responses }

/-- Two runs of a command, from `s` and from `s` with other leftovers, show the same events, pulses and response, and
leave the same memory and `PREV`. -/
def SameOutcome (x : Leftovers) (s t t' : State) : Prop :=
  ∃ r evs w, t.responses = s.responses ++ [r] ∧ t'.responses = x.responses ++ [r] ∧
    t.trace = s.trace ++ evs ∧ t'.trace = x.trace ++ evs ∧ t.wire = s.wire ++ w ∧ t'.wire = x.wire ++ w ∧
    t'.mem = t.mem ∧ t'.prev = t.prev

/-- The command does the same from `s` with other leftovers. -/
def RunsAlike (i : Instr) (x : Leftovers) (s t : State) : Prop :=
  ∃ t', exec i (withLeftovers x s) = .next t' ∧ SameOutcome x s t t'

/-- A command that sends nothing over the wire. -/
theorem sameOutcome_of_no_pulse {x : Leftovers} {s t t' : State} (r : Response) (evs : List Event)
    (hr : t.responses = s.responses ++ [r]) (hr' : t'.responses = x.responses ++ [r])
    (he : t.trace = s.trace ++ evs) (he' : t'.trace = x.trace ++ evs) (hw : t.wire = s.wire) (hw' : t'.wire = x.wire)
    (hmem : t'.mem = t.mem) (hprev : t'.prev = t.prev) : SameOutcome x s t t' :=
  ⟨r, evs, [], hr, hr', he, he', by simp [hw], by simp [hw'], hmem, hprev⟩

theorem sameOutcome_answered (x : Leftovers) (i : Instr) (r : Response) (evs : List Event) (s : State) :
    SameOutcome x s (answered i r evs s) (answered i r evs (withLeftovers x s)) :=
  sameOutcome_of_no_pulse r evs rfl rfl rfl rfl rfl rfl rfl rfl

theorem writeSpi_runsAlike {addr len : Nat} {s t : State} (x : Leftovers)
    (h : exec (.writeSpi addr len) s = .next t) : RunsAlike (.writeSpi addr len) x s t := by
  obtain ⟨ha, ⟨hb, rfl⟩ | ⟨hb, hr, hp, rfl⟩⟩ := execWriteSpi_cases h
  · exact ⟨_, execWriteSpi_absent (s := withLeftovers x s) ha hb, sameOutcome_answered ..⟩
  · exact ⟨_, execWriteSpi_sends (s := withLeftovers x s) ha hb hr hp,
      _, _, _, rfl, rfl, rfl, rfl, rfl, rfl, rfl, rfl⟩

theorem readSpi_runsAlike {addr len : Nat} {s t : State} (x : Leftovers)
    (h : exec (.readSpi addr len) s = .next t) : RunsAlike (.readSpi addr len) x s t := by
  obtain ⟨ha, ⟨hb, rfl⟩ | ⟨hb, ho, rfl⟩ | ⟨hb, ho, hr, hp, rfl⟩⟩ := execReadSpi_cases h
  · exact ⟨_, execReadSpi_absent (s := withLeftovers x s) ha hb, sameOutcome_answered ..⟩
  · exact ⟨_, execReadSpi_overrun (s := withLeftovers x s) ha hb ho, sameOutcome_answered ..⟩
  · refine ⟨_, execReadSpi_fills (s := withLeftovers x s) ha hb ho hr hp, ?_⟩
    simp only [readTx_stageRead]
    simp only [stageRead_stages, fillRead_stores]
    exact ⟨_, _, _, rfl, rfl, rfl, rfl, rfl, rfl, rfl, rfl⟩

/-- The packed bytes that are sent do not depend on what `SCRATCH` held before (R36). -/
theorem packed_scratch_take_withLeftovers {addr len : Nat} {s : State} {x : Leftovers}
    (hbytes : s.cfg.groupBytes = 9) (hx : x.scratch.length = s.scratch.length)
    (hc : outLen s.cfg len ≤ s.scratch.length) :
    (packed addr len (withLeftovers x s)).scratch.take (outLen s.cfg len) =
      (packed addr len s).scratch.take (outLen s.cfg len) := by
  refine List.ext_getElem? fun k => ?_
  rw [List.getElem?_take, List.getElem?_take]
  split
  · next hk =>
    have hgroups : k < 9 * groupCount s.cfg len := by rwa [outLen, hbytes] at hk
    have hlt : k < s.scratch.length := by omega
    rw [packed_scratch_getElem? (s := withLeftovers x s) hbytes (hx ▸ hlt), packed_scratch_getElem? hbytes hlt,
      if_pos hgroups]
    exact if_pos hgroups
  · rfl

theorem writeSpiEmulate9_runsAlike {addr len : Nat} {s t : State} (x : Leftovers) (hbytes : s.cfg.groupBytes = 9)
    (hcap : s.scratch.length = s.cfg.scratchBuffer.getD 0) (hx : x.scratch.length = s.scratch.length)
    (h : exec (.writeSpiEmulate9 addr len) s = .next t) : RunsAlike (.writeSpiEmulate9 addr len) x s t := by
  obtain ⟨ha, ⟨hs, rfl⟩ | ⟨cap, hs, ⟨hl, rfl⟩ | ⟨hl, hg, hc, hr, ⟨hb, rfl⟩ | ⟨hb, hp, rfl⟩⟩⟩⟩ :=
    execWriteSpiEmulate9_cases h
  · exact ⟨_, execWriteSpiEmulate9_missing (s := withLeftovers x s) ha hs, sameOutcome_answered ..⟩
  · exact ⟨_, execWriteSpiEmulate9_invalid (s := withLeftovers x s) ha hs hl, sameOutcome_answered ..⟩
  · refine ⟨_, execWriteSpiEmulate9_absent (s := withLeftovers x s) ha hs hl hg hc hr hb, ?_⟩
    rw [packed_eq addr len s, packed_eq addr len (withLeftovers x s)]
    exact sameOutcome_of_no_pulse _ _ rfl rfl rfl rfl rfl rfl rfl rfl
  · have hroom : outLen s.cfg len ≤ s.scratch.length := by rwa [hcap, hs]
    have hsent := packed_scratch_take_withLeftovers (addr := addr) hbytes hx hroom
    refine ⟨_, execWriteSpiEmulate9_sends (s := withLeftovers x s) ha hs hl hg hc hr hb hp, ?_⟩
    rw [show (withLeftovers x s).cfg = s.cfg from rfl, hsent]
    generalize (packed addr len s).scratch.take (outLen s.cfg len) = data
    rw [packed_eq addr len s, packed_eq addr len (withLeftovers x s)]
    exact ⟨_, _, _, rfl, rfl, rfl, rfl, rfl, rfl, rfl, rfl⟩

theorem gpioWrite_runsAlike {w : Nat} {op : BitVec 8} {addr len : Nat} {ws : List Word} {s t : State} (x : Leftovers)
    (h : gpioWrite w op addr len ws s = .next t) :
    ∃ t', gpioWrite w op addr len ws (withLeftovers x s) = .next t' ∧ SameOutcome x s t t' := by
  obtain ⟨wr, ha, hw, hs, hl, hr, rfl⟩ := gpioWrite_cases h
  exact ⟨_, gpioWrite_eq (s := withLeftovers x s) ha hw hs hl hr,
    sameOutcome_of_no_pulse _ _ rfl rfl rfl rfl rfl rfl rfl rfl⟩

theorem gpioRead_runsAlike {w : Nat} {op : BitVec 8} {addr len : Nat} {toBytes : Word → List Byte} {s t : State}
    (x : Leftovers) (h : gpioRead w op addr len toBytes s = .next t) :
    ∃ t', gpioRead w op addr len toBytes (withLeftovers x s) = .next t' ∧ SameOutcome x s t t' := by
  obtain ⟨rd, ha, hw, hs, hl, hr, rfl⟩ := gpioRead_cases h
  exact ⟨_, gpioRead_eq (s := withLeftovers x s) ha hw hs hl hr,
    sameOutcome_of_no_pulse _ _ rfl rfl rfl rfl rfl rfl rfl rfl⟩

/-- R37, R42: every command, in a state of the invariant with nine bytes to a packing group. -/
theorem exec_runsAlike {i : Instr} {s t : State} (x : Leftovers) (hbytes : s.cfg.groupBytes = 9)
    (hcap : s.scratch.length = s.cfg.scratchBuffer.getD 0) (hx : x.scratch.length = s.scratch.length)
    (h : exec i s = .next t) : RunsAlike i x s t := by
  cases i with
  | writeSpi addr len => exact writeSpi_runsAlike x h
  | readSpi addr len => exact readSpi_runsAlike x h
  | writeSpiEmulate9 addr len => exact writeSpiEmulate9_runsAlike x hbytes hcap hx h
  | writeGpio8Wr addr len => exact gpioWrite_runsAlike x h
  | writeGpio16Wr addr len => exact gpioWrite_runsAlike x h
  | writeGpio16WrLatched addr len =>
    obtain ⟨hs, rfl⟩ := execWriteGpio16WrLatched_cases h
    exact ⟨_, execWriteGpio16WrLatched_fails (s := withLeftovers x s) hs,
      sameOutcome_of_no_pulse _ [] rfl rfl (List.append_nil _).symm (List.append_nil _).symm rfl rfl rfl rfl⟩
  | readGpio8 addr len => exact gpioRead_runsAlike x h
  | readGpio16 addr len => exact gpioRead_runsAlike x h

/-- Settles O24: the replaced fields are one `Leftovers`; the premises enter by the size of `SCRATCH`. -/
theorem earlierOutcomesAreNotObserved : Obligations.EarlierOutcomesAreNotObserved := by
  intro i s t o a n acc stage scratch latch tr wi rs hv hinv hx h
  obtain ⟨-, -, -, -, -, hbytes, -⟩ := hv
  obtain ⟨-, -, -, hcap, -, -⟩ := hinv
  obtain ⟨t', hexec, r, evs, w, hsame⟩ :=
    exec_runsAlike ⟨o, a, n, acc, stage, scratch, latch, tr, wi, rs⟩ hbytes hcap hx h
  exact ⟨t', r, evs, w, hexec, hsame⟩

/-! ### Who reads and writes `PREV` -/

/-- The 8-bit words of a request are its bytes (R128). -/
theorem writeGpio8Wr_prev {addr len : Nat} {s t : State} (h : exec (.writeGpio8Wr addr len) s = .next t) :
    t.prev = lastWord s.prev ((List.range len).map fun k => (memByte s (addr + k)).setWidth 16) := by
  obtain ⟨-, -, -, -, -, hprev⟩ := gpioWrite_frame h
  rw [hprev, memRead, List.map_map]
  rfl

theorem writeGpio16Wr_prev {addr len : Nat} {s t : State} (h : exec (.writeGpio16Wr addr len) s = .next t) :
    t.prev = lastWord s.prev ((List.range (len / 2)).map fun k => memRead16 s (addr + 2 * k)) := by
  obtain ⟨-, -, -, -, -, hprev⟩ := gpioWrite_frame h
  exact hprev

/-- Packing neither reads nor writes `PREV` (R117). -/
theorem packGroups_withPrev (addr n : Nat) (s : State) (p : Word) :
    packGroups addr n { s with prev := p } = { packGroups addr n s with prev := p } := by
  induction n with
  | zero => rfl
  | succ n ih => rw [packGroups, ih]; rfl

theorem packed_withPrev (addr len : Nat) (s : State) (p : Word) :
    packed addr len { s with prev := p } = { packed addr len s with prev := p } :=
  packGroups_withPrev addr (groupCount s.cfg len) (issue 0x02 addr len s) p

/-- The command leaves `PREV` and, with another `PREV`, does the same (R19). -/
def IgnoresPrev (i : Instr) (s t : State) : Prop :=
  t.prev = s.prev ∧ ∀ p : Word, exec i { s with prev := p } = .next { t with prev := p }

theorem writeSpi_ignoresPrev {addr len : Nat} {s t : State} (h : exec (.writeSpi addr len) s = .next t) :
    IgnoresPrev (.writeSpi addr len) s t := by
  obtain ⟨ha, ⟨hb, rfl⟩ | ⟨hb, hr, hp, rfl⟩⟩ := execWriteSpi_cases h
  · exact ⟨rfl, fun p => execWriteSpi_absent (s := { s with prev := p }) ha hb⟩
  · exact ⟨rfl, fun p => execWriteSpi_sends (s := { s with prev := p }) ha hb hr hp⟩

theorem readSpi_ignoresPrev {addr len : Nat} {s t : State} (h : exec (.readSpi addr len) s = .next t) :
    IgnoresPrev (.readSpi addr len) s t := by
  refine ⟨(readSpi_frame h).1.prev, fun p => ?_⟩
  obtain ⟨ha, ⟨hb, rfl⟩ | ⟨hb, ho, rfl⟩ | ⟨hb, ho, hr, hp, rfl⟩⟩ := execReadSpi_cases h
  · exact execReadSpi_absent (s := { s with prev := p }) ha hb
  · exact execReadSpi_overrun (s := { s with prev := p }) ha hb ho
  · rw [execReadSpi_fills (s := { s with prev := p }) ha hb ho hr hp]
    simp only [stageRead_stages, fillRead_stores]
    rfl

theorem writeSpiEmulate9_ignoresPrev {addr len : Nat} {s t : State}
    (h : exec (.writeSpiEmulate9 addr len) s = .next t) : IgnoresPrev (.writeSpiEmulate9 addr len) s t := by
  refine ⟨(emulate9_frame h).1.prev, fun p => ?_⟩
  obtain ⟨ha, ⟨hs, rfl⟩ | ⟨cap, hs, ⟨hl, rfl⟩ | ⟨hl, hg, hc, hr, ⟨hb, rfl⟩ | ⟨hb, hp, rfl⟩⟩⟩⟩ :=
    execWriteSpiEmulate9_cases h
  · exact execWriteSpiEmulate9_missing (s := { s with prev := p }) ha hs
  · exact execWriteSpiEmulate9_invalid (s := { s with prev := p }) ha hs hl
  · rw [execWriteSpiEmulate9_absent (s := { s with prev := p }) ha hs hl hg hc hr hb, packed_withPrev]
    rfl
  · rw [execWriteSpiEmulate9_sends (s := { s with prev := p }) ha hs hl hg hc hr hb hp, packed_withPrev]
    rfl

theorem gpioRead_withPrev {w : Nat} {op : BitVec 8} {addr len : Nat} {toBytes : Word → List Byte} {s t : State}
    (h : gpioRead w op addr len toBytes s = .next t) (p : Word) :
    gpioRead w op addr len toBytes { s with prev := p } = .next { t with prev := p } := by
  obtain ⟨rd, ha, hw, hs, hl, hr, rfl⟩ := gpioRead_cases h
  exact gpioRead_eq (s := { s with prev := p }) ha hw hs hl hr

theorem exec_ignoresPrev {i : Instr} {s t : State}
    (hi : ∀ addr len, i ≠ .writeGpio8Wr addr len ∧ i ≠ .writeGpio16Wr addr len) (h : exec i s = .next t) :
    IgnoresPrev i s t := by
  cases i with
  | writeSpi addr len => exact writeSpi_ignoresPrev h
  | readSpi addr len => exact readSpi_ignoresPrev h
  | writeSpiEmulate9 addr len => exact writeSpiEmulate9_ignoresPrev h
  | writeGpio8Wr addr len => exact absurd rfl (hi addr len).1
  | writeGpio16Wr addr len => exact absurd rfl (hi addr len).2
  | writeGpio16WrLatched addr len =>
    obtain ⟨hs, rfl⟩ := execWriteGpio16WrLatched_cases h
    exact ⟨rfl, fun p => execWriteGpio16WrLatched_fails (s := { s with prev := p }) hs⟩
  | readGpio8 addr len => exact ⟨(exec_gpioRead_frame (.inl rfl) h).2.1, gpioRead_withPrev h⟩
  | readGpio16 addr len => exact ⟨(exec_gpioRead_frame (.inr rfl) h).2.1, gpioRead_withPrev h⟩

/-- Settles O25: the last word of the two GPIO writes, and the other commands one by one. -/
theorem onlyGpioWritesUsePrev : Obligations.OnlyGpioWritesUsePrev :=
  ⟨rfl, fun _ _ _ _ => writeGpio8Wr_prev, fun _ _ _ _ => writeGpio16Wr_prev, fun _ _ _ => exec_ignoresPrev⟩

end Sys2Proof.Proofs
end

/-! Proofs of the family on memory: bytes and words in a buffer, and what the commands store and read. -/

section
namespace Sys2Proof.Proofs

open Sys2Proof.Machine Sys2Proof.Safety

/-! ### A buffer after a store -/

/-- Byte `i` of a stored list is read back at `addr + i`. -/
theorem read_storeCells_add (m : List Host.Cell) (addr : Nat) {bytes : List Byte} {i : Nat} (hi : i < bytes.length) :
    Cells.read Memory.unlisted (storeCells m addr bytes) (addr + i) = bytes.getD i 0 := by
  rw [read_storeCells, if_pos ⟨Nat.le_add_right .., Nat.add_lt_add_left hi _⟩, Nat.add_sub_cancel_left]

/-- The two bytes of a stored word, the one at the lower address first. -/
theorem memByte_memWrite_pair (a : Nat) (lower higher : Byte) (s : State) :
    memByte (memWrite a [lower, higher] s) a = lower ∧ memByte (memWrite a [lower, higher] s) (a + 1) = higher :=
  ⟨read_storeCells_add s.mem a (i := 0) (by simp), read_storeCells_add s.mem a (i := 1) (by simp)⟩

/-- Settles O21: the byte order picks the two bytes of a word, and a pair of bytes is stored in its order. -/
theorem wordsLieInTheConfiguredByteOrder : Obligations.WordsLieInTheConfiguredByteOrder := by
  intro s a w
  refine ⟨fun ho => ?_, fun ho => ?_⟩
  · simp only [memRead16, ho]
    exact ⟨rfl, memByte_memWrite_pair a _ _ s⟩
  · simp only [memRead16, ho]
    exact ⟨rfl, memByte_memWrite_pair a _ _ s⟩

/-! ### What commands store -/

/-- Settles O22: each command's frame says what it leaves in memory. -/
theorem onlyReadsStoreAndOnlyInTheRequest : Obligations.OnlyReadsStoreAndOnlyInTheRequest := by
  intro i s t h
  have hread : (∃ bytes, bytes.length ≤ i.len ∧ t.mem = storeCells s.mem i.addr bytes) →
      ∀ a, ¬ (i.addr ≤ a ∧ a < i.addr + i.len) → memByte t a = memByte s a := by
    rintro ⟨bytes, hlen, hmem⟩ a ha
    exact memByte_of_storeCells hmem hlen ha
  cases i with
  | writeSpi addr len =>
    obtain ⟨-, hmem, -⟩ := writeSpi_frame h
    exact ⟨fun _ => hmem, nofun⟩
  | readSpi addr len =>
    obtain ⟨-, hstored, -⟩ := readSpi_frame h
    exact ⟨nofun, fun _ => hread hstored⟩
  | writeSpiEmulate9 addr len =>
    obtain ⟨-, hmem, -⟩ := emulate9_frame h
    exact ⟨fun _ => hmem, nofun⟩
  | writeGpio8Wr addr len =>
    obtain ⟨-, -, hmem, -⟩ := gpioWrite_frame h
    exact ⟨fun _ => hmem, nofun⟩
  | writeGpio16Wr addr len =>
    obtain ⟨-, -, hmem, -⟩ := gpioWrite_frame h
    exact ⟨fun _ => hmem, nofun⟩
  | writeGpio16WrLatched addr len =>
    obtain ⟨-, rfl⟩ := execWriteGpio16WrLatched_cases h
    exact ⟨fun _ => rfl, nofun⟩
  | readGpio8 addr len =>
    obtain ⟨-, -, hstored, -⟩ := exec_gpioRead_frame (.inl rfl) h
    exact ⟨nofun, fun _ => hread hstored⟩
  | readGpio16 addr len =>
    obtain ⟨-, -, hstored, -⟩ := exec_gpioRead_frame (.inr rfl) h
    exact ⟨nofun, fun _ => hread hstored⟩

/-! ### Reads from another memory -/

/-- Two memories into which the same bytes were stored agree on them. -/
theorem memByte_eq_of_storeCells {t t' : State} {m m' : List Host.Cell} {addr a : Nat} {bytes : List Byte}
    (hmem : t.mem = storeCells m addr bytes) (hmem' : t'.mem = storeCells m' addr bytes)
    (ha : addr ≤ a ∧ a < addr + bytes.length) : memByte t' a = memByte t a := by
  rw [memByte, memByte, hmem, hmem', read_storeCells, read_storeCells, if_pos ha, if_pos ha]

/-- The command does the same from `s` with memory `m`, and fills its request with the same bytes where it succeeds. -/
def ReadsAlike (i : Instr) (m : List Host.Cell) (s t : State) : Prop :=
  ∃ t', exec i { s with mem := m } = .next t' ∧ t' = { t with mem := t'.mem } ∧
    (t.responses = s.responses ++ [.ok] → ∀ a, i.addr ≤ a → a < i.addr + i.len → memByte t' a = memByte t a)

/-- A command that fails before it stores anything. -/
theorem readsAlike_answered {i : Instr} {m : List Host.Cell} {s : State} {e : IoError}
    (h : exec i { s with mem := m } = .next (answered i (.err e) (precheckEvents s.cfg) { s with mem := m })) :
    ReadsAlike i m s (answered i (.err e) (precheckEvents s.cfg) s) :=
  ⟨_, h, rfl, fun hok => by simp [answered] at hok⟩

theorem readSpi_readsAlike {addr len : Nat} {s t : State} (m : List Host.Cell)
    (h : exec (.readSpi addr len) s = .next t) : ReadsAlike (.readSpi addr len) m s t := by
  obtain ⟨ha, ⟨hb, rfl⟩ | ⟨hb, ho, rfl⟩ | ⟨hb, ho, hr, hp, rfl⟩⟩ := execReadSpi_cases h
  · exact readsAlike_answered (execReadSpi_absent (s := { s with mem := m }) ha hb)
  · exact readsAlike_answered (execReadSpi_overrun (s := { s with mem := m }) ha hb ho)
  · refine ⟨_, execReadSpi_fills (s := { s with mem := m }) ha hb ho hr hp, ?_⟩
    simp only [stageRead_stages, fillRead_stores]
    refine ⟨rfl, fun _ a hlo hhi => memByte_eq_of_storeCells rfl rfl ⟨hlo, ?_⟩⟩
    rwa [filledBytes_length (nextRx_length s len)]

theorem gpioRead_readsAlike {i : Instr} {w : Nat} {toBytes : Word → List Byte} {s t : State} (m : List Host.Cell)
    (hexec : ∀ u : State, u.cfg = s.cfg → exec i u = gpioRead w i.opcode i.addr i.len toBytes u)
    (hbytes : ∀ v, (toBytes v).length = w / 8) (h : exec i s = .next t) : ReadsAlike i m s t := by
  obtain ⟨rd, ha, hw, hs, hl, hr, rfl⟩ := gpioRead_cases (hexec s rfl ▸ h)
  refine ⟨_, (hexec { s with mem := m } rfl).trans (gpioRead_eq (s := { s with mem := m }) ha hw hs hl hr), rfl,
    fun _ a hlo hhi => memByte_eq_of_storeCells rfl rfl ⟨hlo, ?_⟩⟩
  rwa [flatMap_length_const hbytes, List.length_map, List.length_range, Nat.div_mul_cancel (Nat.dvd_of_mod_eq_zero hl)]

/-- Settles O23: the three reads, of which the GPIO reads are one command of two widths. -/
theorem readsDoNotDependOnMemory : Obligations.ReadsDoNotDependOnMemory := by
  intro i s t m hi h
  cases i with
  | readSpi addr len => exact readSpi_readsAlike m h
  | readGpio8 addr len => exact gpioRead_readsAlike (w := 8) m (fun _ _ => rfl) (fun _ => rfl) h
  | readGpio16 addr len =>
    have hexec : ∀ u : State, u.cfg = s.cfg → exec (.readGpio16 addr len) u =
        gpioRead 16 0x07 addr len (bytesOfWord s.cfg.wordOrder) u := fun u hu => by rw [← hu]; rfl
    exact gpioRead_readsAlike m hexec (bytesOfWord_length _) h
  | _ => cases hi

end Sys2Proof.Proofs
end

/-! Proofs of the family on memory: the 16-bit words of a GPIO command's request, and the requests that are refused. -/

section
namespace Sys2Proof.Proofs

open Sys2Proof.Machine Sys2Proof.Safety

/-! ### The words of a request -/

/-- Settles O39: the words sent are the 16-bit words of the request. -/
theorem writeGpio16WrRunsOneCyclePerWord : Obligations.WriteGpio16WrRunsOneCyclePerWord :=
  fun _ _ _ _ ha hw hs hl hr => gpioWrite_eq ha hw hs hl hr

/-- Reading a word undoes writing it, in either byte order (R49). -/
theorem wordOfBytes_bytesOfWord (o : WordOrder) (w : Word) :
    wordOfBytes o ((bytesOfWord o w).getD 0 0) ((bytesOfWord o w).getD 1 0) = w := by
  have hsplit : w.extractLsb' 8 8 ++ w.extractLsb' 0 8 = w := by
    refine BitVec.eq_of_getLsbD_eq fun i hi => ?_
    rw [BitVec.getLsbD_append]
    split
    · next h => simp [h]
    · next h => simp [show i - 8 < 8 by omega, show 8 + (i - 8) = i by omega]
  cases o <;> exact hsplit

/-- Byte `i` of word `k` of a list laid out as bytes, `n` of them to a word. -/
theorem getD_flatMap {toBytes : Word → List Byte} {n : Nat} (hn : ∀ w, (toBytes w).length = n) {ws : List Word}
    {k i : Nat} {w : Word} (hw : ws[k]? = some w) (hi : i < n) :
    (ws.flatMap toBytes).getD (n * k + i) 0 = (toBytes w).getD i 0 := by
  induction ws generalizing k with
  | nil => simp at hw
  | cons v ws ih =>
    rw [List.flatMap_cons]
    cases k with
    | zero =>
      obtain rfl : v = w := by simpa using hw
      rw [Nat.mul_zero, Nat.zero_add, List.getD_append _ _ _ _ (by rwa [hn])]
    | succ k =>
      rw [List.getD_append_right _ _ _ _ (by rw [hn, Nat.mul_succ]; omega), hn, ← ih (by simpa using hw)]
      congr 1
      rw [Nat.mul_succ]
      omega

/-- Word `k` of a list of words stored in the configured byte order is read back at `addr + 2k` (R49). -/
theorem memRead16_of_storeCells {t : State} {m : List Host.Cell} {addr k : Nat} {ws : List Word} {w : Word}
    (hmem : t.mem = storeCells m addr (ws.flatMap (bytesOfWord t.cfg.wordOrder))) (hw : ws[k]? = some w) :
    memRead16 t (addr + 2 * k) = w := by
  have hk : k < ws.length := (List.getElem?_eq_some_iff.1 hw).1
  have hbyte : ∀ i, i < 2 → memByte t (addr + (2 * k + i)) = (bytesOfWord t.cfg.wordOrder w).getD i 0 := by
    intro i hi
    rw [memByte, hmem, read_storeCells_add _ _ (by rw [flatMap_length_const (bytesOfWord_length _)]; omega),
      getD_flatMap (bytesOfWord_length _) hw hi]
  rw [memRead16, Nat.add_assoc addr, hbyte 1 (by omega), show addr + 2 * k = addr + (2 * k + 0) from rfl,
    hbyte 0 (by omega), wordOfBytes_bytesOfWord]

/-- Bit `i` of the word of read cycle `j` is the level answered to the sample of line `i`, the highest line being
sampled first (R131). -/
theorem getLsbD_sampledWord {s : State} {n i : Nat} (hn : s.cfg.dataLines.length = n) (hi : i < n) (hi16 : i < 16)
    (j : Nat) : (sampledWord s j).getLsbD i = levelAt s (j * n + (n - 1 - i)) := by
  rw [sampledWord, getLsbD_wordOfBits _ _ hi16, hn]
  simp [List.getD, hi]

/-- Settles O46: the request holds the sampled words in the configured order, and reads back as them. -/
theorem readGpio16SamplesMsbFirst : Obligations.ReadGpio16SamplesMsbFirst := by
  intro addr len s rd ha hw hs hl hr
  have hexec := gpioRead_eq (op := 0x07) (toBytes := bytesOfWord s.cfg.wordOrder) ha hw hs hl hr
  rw [show 16 / 8 = 2 from rfl, Nat.mul_comm (len / 2) 16] at hexec
  refine ⟨_, fun a hout => ?_, fun k i hk hi => ?_, hexec⟩
  · refine memByte_of_storeCells (t := { s with mem := _ }) rfl ?_ hout
    rw [flatMap_length_const (bytesOfWord_length _), List.length_map, List.length_range]
    exact Nat.div_mul_le_self ..
  · have hword : ((List.range (len / 2)).map (sampledWord s))[k]? = some (sampledWord s k) := by simp [hk]
    rw [memRead16_of_storeCells (t := { s with mem := _ }) rfl hword, getLsbD_sampledWord hw hi hi, Nat.mul_comm k]

/-! ### Refused GPIO commands -/

theorem gpioWrite_of_refusal {w : Nat} {op : BitVec 8} {addr len : Nat} {ws : List Word} {s : State} {r : Refusal}
    (ha : Admitted (gpioPins s) s) (hr : gpioRefusal w s.cfg.writeStrobeLine addr len s = some r) :
    gpioWrite w op addr len ws s = .refused r := by
  simp [gpioWrite, admission_eq_none.2 ha, hr]

theorem gpioRead_of_refusal {w : Nat} {op : BitVec 8} {addr len : Nat} {toBytes : Word → List Byte} {s : State}
    {r : Refusal} (ha : Admitted (gpioPins s) s) (hr : gpioRefusal w s.cfg.readStrobeLine addr len s = some r) :
    gpioRead w op addr len toBytes s = .refused r := by
  simp [gpioRead, admission_eq_none.2 ha, hr]

section Refusal

variable {w addr len : Nat} {strobe : Option Pin} {s : State}

theorem gpioRefusal_of_width (hw : s.cfg.dataLines.length ≠ w) :
    gpioRefusal w strobe addr len s = some .busWidthMismatch := by
  simp [gpioRefusal, hw]

theorem gpioRefusal_of_strobe (hw : s.cfg.dataLines.length = w) (hs : strobe = none) :
    gpioRefusal w strobe addr len s = some .strobeAbsent := by
  simp [gpioRefusal, hw, hs]

theorem gpioRefusal_of_length (hw : s.cfg.dataLines.length = w) (hs : strobe.isSome = true)
    (hl : len % (w / 8) ≠ 0) : gpioRefusal w strobe addr len s = some .oddLength := by
  simp [gpioRefusal, hw, Option.isSome_iff_ne_none.1 hs, hl]

theorem gpioRefusal_of_request (hw : s.cfg.dataLines.length = w) (hs : strobe.isSome = true)
    (hl : len % (w / 8) = 0) : gpioRefusal w strobe addr len s = requestRefusal addr len s := by
  simp [gpioRefusal, hw, Option.isSome_iff_ne_none.1 hs, hl]

end Refusal

/-- Settles O49: each clause is one refusal of the GPIO commands. -/
theorem gpioCommandsRefuseOtherBuses : Obligations.GpioCommandsRefuseOtherBuses := by
  intro addr len s ha
  have hodd : len % 2 = 1 → len % (16 / 8) ≠ 0 := fun h => by omega
  refine ⟨fun hw => ⟨?_, ?_⟩, fun hw => ⟨?_, ?_⟩, fun hw => ⟨fun hs => ?_, fun hs => ?_⟩,
    fun hw => ⟨fun hs => ?_, fun hs => ?_, fun hs hl => ?_, fun hs hl => ?_⟩⟩
  · exact gpioWrite_of_refusal ha (gpioRefusal_of_width hw)
  · exact gpioRead_of_refusal ha (gpioRefusal_of_width hw)
  · exact gpioWrite_of_refusal ha (gpioRefusal_of_width hw)
  · exact gpioRead_of_refusal ha (gpioRefusal_of_width hw)
  · exact gpioWrite_of_refusal ha (gpioRefusal_of_strobe hw hs)
  · exact gpioRead_of_refusal ha (gpioRefusal_of_strobe hw hs)
  · exact gpioWrite_of_refusal ha (gpioRefusal_of_strobe hw hs)
  · exact gpioRead_of_refusal ha (gpioRefusal_of_strobe hw hs)
  · exact gpioWrite_of_refusal ha (gpioRefusal_of_length hw hs (hodd hl))
  · exact gpioRead_of_refusal ha (gpioRefusal_of_length hw hs (hodd hl))

/-! ### Refused requests -/

theorem requestRefusal_of_wraps {addr len : Nat} {s : State} (h : 2 ^ s.cfg.aw < addr + len) :
    requestRefusal addr len s = some .requestWraps := by
  simp [requestRefusal, h]

theorem requestRefusal_of_foreign {addr len : Nat} {s : State} (hfits : addr + len ≤ 2 ^ s.cfg.aw)
    (h : ∃ r ∈ s.foreign, ∃ a, addr ≤ a ∧ a < addr + len ∧ r.base ≤ a ∧ a < r.base + r.size) :
    requestRefusal addr len s = some .bufferNotOwned := by
  obtain ⟨r, hr, hmeets⟩ := h
  have hany : s.foreign.any (fun r => Region.meets r addr len) = true :=
    List.any_eq_true.2 ⟨r, hr, (Region.meets_iff r addr len).2 hmeets⟩
  rw [requestRefusal, if_neg (by omega), if_pos hany]

/-- A command that answers every refusal of its request with that refusal (R47). -/
theorem refusesRequest_of {i : Instr} {s : State}
    (h : ∀ r, requestRefusal i.addr i.len s = some r → exec i s = .refused r) : RefusesRequest i s :=
  ⟨fun hwraps => h _ (requestRefusal_of_wraps hwraps),
    fun hfits hforeign => h _ (requestRefusal_of_foreign hfits hforeign)⟩

section Requests

variable {addr len : Nat} {s : State}

theorem writeSpi_refusesRequest (ha : Admitted (spiPins s) s) (hb : s.cfg.busHandle.isSome = true) :
    RefusesRequest (.writeSpi addr len) s := by
  obtain ⟨handle, hb⟩ := Option.isSome_iff_exists.1 hb
  refine refusesRequest_of fun r (hr : requestRefusal addr len s = some r) => ?_
  simp only [exec, execWriteSpi, admission_eq_none.2 ha, hb, hr]

theorem readSpi_refusesRequest (ha : Admitted (spiPins s) s) (hb : s.cfg.busHandle.isSome = true)
    (ho : stageOverrun len s = false) : RefusesRequest (.readSpi addr len) s := by
  obtain ⟨handle, hb⟩ := Option.isSome_iff_exists.1 hb
  refine refusesRequest_of fun r (hr : requestRefusal addr len s = some r) => ?_
  simp only [exec, execReadSpi, admission_eq_none.2 ha, hb, ho, hr, Bool.false_eq_true, if_false]

theorem emulate9_refusesRequest {cap : Nat} (ha : Admitted (spiPins s) s) (hs : s.cfg.scratchBuffer = some cap)
    (hl : len % 8 = 0) (hg : len % groupSpan s.cfg = 0) (hc : outLen s.cfg len ≤ cap) :
    RefusesRequest (.writeSpiEmulate9 addr len) s := by
  refine refusesRequest_of fun r (hr : requestRefusal addr len s = some r) => ?_
  have href : emulate9Refusal cap addr len s = some r := by
    rw [emulate9Refusal, if_neg (by simpa using hg), if_neg (by omega), hr]
  simp [exec, execWriteSpiEmulate9, admission_eq_none.2 ha, hs, hl, href]

end Requests

/-- Settles O51: each command, past the checks that come first, answers the refusal of its request. -/
theorem requestsOutsideHostMemoryAreRefused : Obligations.RequestsOutsideHostMemoryAreRefused := by
  intro addr len s
  have hstage : (s.cfg.startByte.isSome = true → len ≤ s.cfg.stageSize) → stageOverrun len s = false := by
    intro hlen
    rw [← Bool.not_eq_true, stageOverrun_iff]
    exact fun ⟨hstart, hover⟩ => absurd (hlen hstart) (by omega)
  refine ⟨fun ha => ⟨writeSpi_refusesRequest ha, fun hb hlen => readSpi_refusesRequest ha hb (hstage hlen),
    fun cap => emulate9_refusesRequest ha⟩, fun ha => ⟨fun hw => ⟨fun hs => ?_, fun hs => ?_⟩,
    fun hw hl => ⟨fun hs => ?_, fun hs => ?_⟩⟩⟩
  · exact refusesRequest_of fun r hr => gpioWrite_of_refusal ha ((gpioRefusal_of_request hw hs (Nat.mod_one _)).trans hr)
  · exact refusesRequest_of fun r hr => gpioRead_of_refusal ha ((gpioRefusal_of_request hw hs (Nat.mod_one _)).trans hr)
  · exact refusesRequest_of fun r hr => gpioWrite_of_refusal ha ((gpioRefusal_of_request hw hs hl).trans hr)
  · exact refusesRequest_of fun r hr => gpioRead_of_refusal ha ((gpioRefusal_of_request hw hs hl).trans hr)

end Sys2Proof.Proofs
end

/-! Proofs of the family on memory: the packed frame of the 9-bit emulation, and the wire of a transfer. -/

section
namespace Sys2Proof.Proofs

open Sys2Proof.Machine Sys2Proof.Safety

/-! ### The packed frame -/

/-- The nine bits that are packed of a word: its flag above its payload (R112). -/
theorem getLsbD_flag_append_payload (w : Word) {i : Nat} (hi : i < 9) :
    (wordFlag w ++ wordPayload w).getLsbD i = w.getLsbD i := by
  rw [BitVec.getLsbD_append]
  by_cases h : i < 8
  · simp [h, wordPayload]
  · obtain rfl : i = 8 := by omega
    simp [wordFlag]

/-- The flag of word `j` in the accumulator (R77). -/
theorem packAcc_flag (w : Nat → Word) {j : Nat} (hj : j < 8) :
    (packAcc 8 w).getLsbD (63 - 9 * j) = (wordFlag (w j)).getLsbD 0 := by
  rw [packAcc_getLsbD w (9 * j) (by omega), Nat.mul_div_cancel_left j (by omega), Nat.mul_mod_right]
  simp [wordFlag]

/-- The payload of word `j` in the accumulator, of the seven that fit whole (R77). -/
theorem packAcc_payload (w : Nat → Word) {j : Nat} (hj : j < 7) :
    (packAcc 8 w).extractLsb' (55 - 9 * j) 8 = wordPayload (w j) := by
  refine BitVec.eq_of_getLsbD_eq fun i hi => ?_
  have hbit := packAcc_getLsbD w (9 * j + (8 - i)) (by omega)
  rw [show 63 - (9 * j + (8 - i)) = 55 - 9 * j + i by omega, show (9 * j + (8 - i)) / 9 = j by omega,
    show 8 - (9 * j + (8 - i)) % 9 = i by omega] at hbit
  simp [hi, hbit, wordPayload]

/-- Settles O36: the fields are bits of the accumulator, and the stream is the nine bytes bit by bit. -/
theorem packedFrameFollowsTheTable : Obligations.PackedFrameFollowsTheTable := by
  intro w
  refine ⟨groupOutput_length 8 w, fun j hj => ⟨packAcc_flag w (by omega), packAcc_payload w hj⟩,
    packAcc_flag w (j := 7) (by omega), fun i hi => ?_, rfl, fun n hn => ?_⟩
  · simp [groupOutput, List.getElem?_append, hi]
  · rw [groupOutput_bit w n hn, getLsbD_flag_append_payload _ (by omega)]

/-! ### The transfer of a command -/

/-- The event is a transfer. -/
def isTransfer : Event → Bool
  | .spi _ _ _ => true
  | _ => false

theorem guarded_injective {cfg : Cfg} {es fs : List Event} (h : guarded cfg es = guarded cfg fs) : es = fs := by
  cases hc : cfg.chipSelectLine <;> simpa [guarded, hc] using h

/-- The guard adds no transfer. -/
theorem not_isTransfer_of_mem_guarded {cfg : Cfg} {mid : List Event} (hmid : ∀ e ∈ mid, isTransfer e = false) :
    ∀ e ∈ guarded cfg mid, isTransfer e = false := by
  intro e he
  cases hc : cfg.chipSelectLine with
  | none => exact hmid e (by simpa [guarded, hc] using he)
  | some cs =>
    simp only [guarded, hc, List.mem_cons, List.mem_append, List.not_mem_nil, or_false] at he
    obtain rfl | he | rfl := he
    · rfl
    · exact hmid e he
    · rfl

theorem not_isTransfer_of_mem_precheckEvents {cfg : Cfg} : ∀ e ∈ precheckEvents cfg, isTransfer e = false := by
  unfold precheckEvents
  split
  · simp
  · exact not_isTransfer_of_mem_guarded (by simp)

/-- The command ran no transfer. -/
def NoTransfer (s t : State) : Prop := ∃ evs, t.trace = s.trace ++ evs ∧ ∀ e ∈ evs, isTransfer e = false

/-- The command ran one transfer inside the guard, with the answers the environment gives in `u` (R100). -/
def OneTransfer (s t : State) : Prop :=
  ∃ (spec : SpiSpec) (u : State), t.trace = s.trace ++ guarded s.cfg [spiEvent spec u] ∧
    t.wire = s.wire ++ wirePulses s.cfg spec (nextRx u spec.len) u.draws (nextShifted u spec.len)

theorem noTransfer_answered (i : Instr) (e : IoError) (s : State) :
    NoTransfer s (answered i (.err e) (precheckEvents s.cfg) s) :=
  ⟨_, rfl, not_isTransfer_of_mem_precheckEvents⟩

theorem gpioWrite_noTransfer {w : Nat} {op : BitVec 8} {addr len : Nat} {ws : List Word} {s t : State}
    (h : gpioWrite w op addr len ws s = .next t) : NoTransfer s t := by
  obtain ⟨wr, -, -, -, -, -, rfl⟩ := gpioWrite_cases h
  refine ⟨_, rfl, not_isTransfer_of_mem_guarded fun e he => ?_⟩
  obtain ⟨b, rfl⟩ | ⟨p, b, -, rfl⟩ := mem_burstEvents he <;> rfl

theorem gpioRead_noTransfer {w : Nat} {op : BitVec 8} {addr len : Nat} {toBytes : Word → List Byte} {s t : State}
    (h : gpioRead w op addr len toBytes s = .next t) : NoTransfer s t := by
  obtain ⟨rd, -, -, -, -, -, rfl⟩ := gpioRead_cases h
  refine ⟨_, rfl, not_isTransfer_of_mem_guarded fun e he => ?_⟩
  obtain ⟨j, -, hj⟩ := List.mem_flatMap.1 he
  obtain ⟨b, rfl⟩ | rfl | ⟨p, b, -, rfl⟩ := mem_readCycleEvents hj <;> rfl

/-- An answered command ran one transfer or none. -/
theorem exec_transfers {i : Instr} {s t : State} (h : exec i s = .next t) : OneTransfer s t ∨ NoTransfer s t := by
  cases i with
  | writeSpi addr len =>
    obtain ⟨-, ⟨-, rfl⟩ | ⟨-, -, -, rfl⟩⟩ := execWriteSpi_cases h
    · exact .inr (noTransfer_answered ..)
    · exact .inl ⟨_, issue 0x00 addr len s, rfl, rfl⟩
  | readSpi addr len =>
    obtain ⟨-, ⟨-, rfl⟩ | ⟨-, -, rfl⟩ | ⟨-, -, -, -, rfl⟩⟩ := execReadSpi_cases h
    · exact .inr (noTransfer_answered ..)
    · exact .inr (noTransfer_answered ..)
    · rw [fillRead_stores, stageRead_stages]
      exact .inl ⟨_, issue 0x01 addr len s, rfl, rfl⟩
  | writeSpiEmulate9 addr len =>
    obtain ⟨-, ⟨-, rfl⟩ | ⟨cap, -, ⟨-, rfl⟩ | ⟨-, -, -, -, ⟨-, rfl⟩ | ⟨-, -, rfl⟩⟩⟩⟩ := execWriteSpiEmulate9_cases h
    · exact .inr (noTransfer_answered ..)
    · exact .inr (noTransfer_answered ..)
    · rw [packed_eq]
      exact .inr ⟨_, rfl, not_isTransfer_of_mem_precheckEvents⟩
    · rw [packed_eq]
      exact .inl ⟨_, issue 0x02 addr len s, rfl, rfl⟩
  | writeGpio8Wr addr len => exact .inr (gpioWrite_noTransfer h)
  | writeGpio16Wr addr len => exact .inr (gpioWrite_noTransfer h)
  | writeGpio16WrLatched addr len =>
    obtain ⟨-, rfl⟩ := execWriteGpio16WrLatched_cases h
    exact .inr ⟨[], (List.append_nil _).symm, by simp⟩
  | readGpio8 addr len => exact .inr (gpioRead_noTransfer h)
  | readGpio16 addr len => exact .inr (gpioRead_noTransfer h)

/-- A command whose events are one guarded transfer ran that transfer. -/
theorem oneTransfer_of_trace {i : Instr} {s t : State} {spec : SpiSpec} {st : BitVec 32} {rx : Option (List Byte)}
    (h : exec i s = .next t) (htrace : t.trace = s.trace ++ guarded s.cfg [.spi spec st rx]) :
    ∃ u : State, spiEvent spec u = .spi spec st rx ∧
      t.wire = s.wire ++ wirePulses s.cfg spec (nextRx u spec.len) u.draws (nextShifted u spec.len) := by
  obtain ⟨spec', u, htrace', hwire⟩ | ⟨evs, htrace', hnone⟩ := exec_transfers h
  · have hguard := List.append_cancel_left (htrace'.symm.trans htrace)
    have hevent : spiEvent spec' u = .spi spec st rx := List.singleton_injective (guarded_injective hguard)
    obtain rfl : spec' = spec := by injection hevent
    exact ⟨u, hevent, hwire⟩
  · obtain rfl := List.append_cancel_left (htrace'.symm.trans htrace)
    have hmem : Event.spi spec st rx ∈ guarded s.cfg [.spi spec st rx] := by
      cases hc : s.cfg.chipSelectLine <;> simp [guarded, hc]
    exact absurd (hnone _ hmem) (by simp [isTransfer])

/-! ### The wire -/

/-- R100, R102: a transfer shifts no more bytes than its length. -/
theorem nextShifted_le (s : State) (len : Nat) : nextShifted s len ≤ len := by
  unfold nextShifted
  split
  · exact Nat.le_refl len
  · exact Nat.le_of_lt_succ (Nat.mod_lt _ (Nat.succ_pos len))

theorem nextShifted_of_ok {s : State} (h : nextStatus s = 0) (len : Nat) : nextShifted s len = len := if_pos h

/-- Most significant bit first, eight bits a byte (R52, R104). -/
theorem wireBit_eq {cfg : Cfg} (hv : SourceValues cfg) (k : Nat) : wireBit cfg k = 7 - k % 8 := by
  obtain ⟨-, -, -, -, -, -, -, -, horder, hbits⟩ := hv
  simp [wireBit, horder, hbits]

/-- Pulse `k` at the parameters of R7: mode 0, the transfer's rate, and bit `7 - k mod 8` of byte `k / 8` (R104, R105). -/
theorem wirePulse_fields {cfg : Cfg} (hv : SourceValues cfg) (spec : SpiSpec) (rx : List Byte) (draw k : Nat) :
    (wirePulse cfg spec rx draw k).mode = ⟨false, false⟩ ∧
    (wirePulse cfg spec rx draw k).hz = spec.hz.getD cfg.spiWriteHz ∧
    (∀ tx, spec.tx = some tx → (wirePulse cfg spec rx draw k).mosi = (tx.getD (k / 8) 0).getLsbD (7 - k % 8)) ∧
    (wirePulse cfg spec rx draw k).miso =
      (if spec.rxWanted then some rx else none).map fun bytes => (bytes.getD (k / 8) 0).getLsbD (7 - k % 8) := by
  have hbit := wireBit_eq hv k
  obtain ⟨-, -, -, -, -, -, -, hmode, -, hbits⟩ := hv
  refine ⟨hmode, rfl, fun tx htx => by simp only [wirePulse, htx, hbit, hbits], ?_⟩
  simp only [wirePulse, hbit, hbits]
  cases spec.rxWanted <;> rfl

/-- Eight pulses for each byte (R104). -/
theorem wirePulses_length {cfg : Cfg} (hv : SourceValues cfg) (spec : SpiSpec) (rx : List Byte) (draw n : Nat) :
    (wirePulses cfg spec rx draw n).length = 8 * n := by
  obtain ⟨-, -, -, -, -, -, -, -, -, hbits⟩ := hv
  rw [wirePulses, List.length_map, List.length_range, hbits]

theorem wirePulse_of_getElem? {cfg : Cfg} {spec : SpiSpec} {rx : List Byte} {draw n k : Nat} {p : WirePulse}
    (h : (wirePulses cfg spec rx draw n)[k]? = some p) : wirePulse cfg spec rx draw k = p := by
  obtain ⟨hk, hp⟩ := List.getElem?_eq_some_iff.1 h
  simpa [wirePulses] using hp

/-- Settles O32: the command's pulses are those of its transfer, one for each bit of the bytes shifted. -/
theorem theWireShiftsBytesMsbFirst : Obligations.TheWireShiftsBytesMsbFirst := by
  intro i s t spec st rx hv h htrace
  obtain ⟨u, hevent, hwire⟩ := oneTransfer_of_trace h htrace
  simp only [spiEvent, Event.spi.injEq, true_and] at hevent
  obtain ⟨rfl, rfl⟩ := hevent
  refine ⟨_, nextShifted u spec.len, hwire, wirePulses_length hv .., nextShifted_le u spec.len,
    fun hok => nextShifted_of_ok hok _, fun k p hk => ?_⟩
  obtain rfl := wirePulse_of_getElem? hk
  exact wirePulse_fields hv ..

end Sys2Proof.Proofs
end

/-! Proofs of the family on encoding: the decoder against the encoder, reserved descriptors, and the words of a
response. -/

section
namespace Sys2Proof.Proofs

open Sys2Proof.Machine

/-! ### The opcode table -/

/-- R70: the command of an opcode is the one that has it, with the operands as they stand. -/
theorem commandOf_eq_some_iff {op : BitVec 8} {addr len : Nat} {i : Instr} :
    commandOf op addr len = some i ↔ i.opcode = op ∧ i.addr = addr ∧ i.len = len := by
  constructor
  · intro h
    unfold commandOf at h
    split at h
    case h_9 => cases h
    all_goals
      next hop =>
        obtain rfl := Option.some.inj h
        exact ⟨BitVec.eq_of_toNat_eq hop.symm, rfl, rfl⟩
  · rintro ⟨rfl, rfl, rfl⟩
    cases i <;> rfl

/-- R71: the opcodes without a command are those above 7. -/
theorem commandOf_eq_none_iff {op : BitVec 8} {addr len : Nat} : commandOf op addr len = none ↔ 7 < op.toNat := by
  unfold commandOf
  split
  case h_9 => exact iff_of_true rfl (by grind)
  all_goals exact iff_of_false nofun (by omega)

/-! ### What a descriptor decodes to -/

theorem decode_eq_ok_iff {aw : Nat} {d : Descriptor} {i : Instr} :
    decode aw d = .ok i ↔ d.rsv = 0 ∧ commandOf d.op d.addr d.len = some i ∧ i.wellFormed aw = true := by
  constructor
  · intro h
    unfold decode at h
    split at h
    · cases h
    · next hrsv =>
      split at h
      · cases h
      · next j hc =>
        split at h
        · next hw =>
          cases h
          exact ⟨not_not.1 hrsv, hc, hw⟩
        · cases h
  · rintro ⟨hrsv, hc, hw⟩
    simp [decode, hrsv, hc, hw]

theorem decode_eq_reserved_iff {aw : Nat} {d : Descriptor} :
    decode aw d = .error .reserved ↔ d.rsv ≠ 0 ∨ 7 < d.op.toNat := by
  rw [← commandOf_eq_none_iff (addr := d.addr) (len := d.len)]
  unfold decode
  split
  · next hrsv => exact iff_of_true rfl (.inl hrsv)
  · next hrsv =>
    rw [or_iff_right hrsv]
    cases commandOf d.op d.addr d.len with
    | none => exact iff_of_true rfl rfl
    | some j => exact iff_of_false (by simp only; split <;> nofun) nofun

theorem wellFormed_iff {aw : Nat} {i : Instr} : i.wellFormed aw = true ↔ i.addr < 2 ^ aw ∧ i.len < 2 ^ aw := by
  simp [Instr.wellFormed]

/-- R68: where `RSV` is 0, word 0 is `OP`. -/
theorem word0_of_rsv_eq_zero {d : Descriptor} (h : d.rsv = 0) : d.op.setWidth 32 = d.word0 := by
  have hhigh : d.word0.toNat / 2 ^ 8 % 2 ^ 24 = 0 := by
    simpa [Descriptor.rsv, Nat.shiftRight_eq_div_pow] using congrArg BitVec.toNat h
  apply BitVec.eq_of_toNat_eq
  simp only [Descriptor.op, BitVec.toNat_setWidth, BitVec.extractLsb'_toNat, Nat.shiftRight_zero]
  omega

/-! ### The round trips -/

/-- A descriptor whose operands fit their words is read back from its number (log 3). -/
theorem ofBits_toBits {aw : Nat} {d : Descriptor} (haddr : d.addr < 2 ^ aw) (hlen : d.len < 2 ^ aw) :
    Descriptor.ofBits aw (d.toBits aw) = d := by
  obtain ⟨word0, addr, len⟩ := d
  have hupper : (word0.toNat + 2 ^ 32 * (addr + 2 ^ aw * len)) / 2 ^ 32 = addr + 2 ^ aw * len := by
    rw [Nat.add_mul_div_left _ _ (by decide), Nat.div_eq_of_lt word0.isLt, Nat.zero_add]
  have hword : BitVec.ofNat 32 (word0.toNat + 2 ^ 32 * (addr + 2 ^ aw * len)) = word0 :=
    BitVec.eq_of_toNat_eq (by rw [BitVec.toNat_ofNat, Nat.add_mul_mod_self_left, Nat.mod_eq_of_lt word0.isLt])
  simp only [Descriptor.ofBits, Descriptor.toBits, Descriptor.mk.injEq]
  refine ⟨hword, ?_, ?_⟩
  · rw [hupper, Nat.add_mul_mod_self_left, Nat.mod_eq_of_lt haddr]
  · rw [pow_add, ← Nat.div_div_eq_div_mul, hupper, Nat.add_mul_div_left _ _ (Nat.two_pow_pos aw),
      Nat.div_eq_of_lt haddr, Nat.zero_add, Nat.mod_eq_of_lt hlen]

/-- Every command has the opcode it is encoded with, so its descriptor decodes to it. -/
theorem decode_encode {aw : Nat} {i : Instr} (hw : i.wellFormed aw = true) : decode aw (encode i) = .ok i :=
  Laws.encoding_of_commandOf (commandOf_eq_some_iff.2 ⟨rfl, rfl, rfl⟩) aw hw

/-- Settles O3: the number gives the descriptor back, and the descriptor the command. -/
theorem decodeOfEncodeIsTheCommand : Obligations.DecodeOfEncodeIsTheCommand := by
  intro aw i hw
  obtain ⟨haddr, hlen⟩ := wellFormed_iff.1 hw
  rw [decodeBits, encodeBits, ofBits_toBits haddr hlen, decode_encode hw]

/-- Settles O4: a descriptor that decodes has `RSV` 0 and, in `OP`, the opcode of its command. -/
theorem encodeOfDecodeIsTheDescriptor : Obligations.EncodeOfDecodeIsTheDescriptor := by
  intro aw d i h
  obtain ⟨hrsv, hc, hw⟩ := decode_eq_ok_iff.1 h
  obtain ⟨hop, haddr, hlen⟩ := commandOf_eq_some_iff.1 hc
  have hword : i.opcode.setWidth 32 = d.word0 := hop ▸ word0_of_rsv_eq_zero hrsv
  exact ⟨by rw [encode, hword, haddr, hlen], hw⟩

/-- Settles O2: an opcode that is not reserved has a command, which its operands make well-formed. -/
theorem decodingIsTotalAndExact : Obligations.DecodingIsTotalAndExact := by
  intro aw word0 addr len haddr hlen
  split
  case isTrue hres => exact decode_eq_reserved_iff.2 hres
  case isFalse hres =>
    obtain ⟨hrsv, hop⟩ := not_or.1 hres
    obtain ⟨i, hc⟩ := Option.ne_none_iff_exists'.1 (mt (commandOf_eq_none_iff (addr := addr) (len := len)).1 hop)
    obtain ⟨hopcode, rfl, rfl⟩ := commandOf_eq_some_iff.1 hc
    exact ⟨i, decode_eq_ok_iff.2 ⟨not_not.1 hrsv, hc, wellFormed_iff.2 ⟨haddr, hlen⟩⟩, hopcode, rfl, rfl⟩

/-- Settles O1: the words of the table, evaluated. -/
theorem decodesTheTableWords : Obligations.DecodesTheTableWords := by
  unfold Obligations.DecodesTheTableWords
  decide

/-! ### The answer to a reserved descriptor -/

/-- R73: an idle block takes a reserved descriptor and raises `NotImplemented`. -/
theorem step_of_reserved {s : State} {d : Descriptor} {rest : List Descriptor} (hs : s.seq = .idle)
    (hq : s.queue = d :: rest) (hd : decode s.cfg.aw d = .error .reserved) :
    step s = .next (raise .notImplemented (issue d.op d.addr d.len { s with queue := rest })) := by
  simp [step, nextIssue, hq, hd, undecoded, alwaysFails, hs]

/-- Settles O6: a descriptor the decoder calls reserved is raised on; the sequencer goes Busy and Idle again. -/
theorem reservedDescriptorIsAnsweredNotImplemented : Obligations.ReservedDescriptorIsAnsweredNotImplemented := by
  intro s d rest hs hq hres
  rw [step_of_reserved hs hq (decode_eq_reserved_iff.2 hres)]
  simp [raise, respond, issue, hs, Descriptor.op]

/-! ### The words of a response -/

theorem response_word0_toNat (r : Response) : r.word0.toNat = r.code.toNat :=
  BitVec.toNat_setWidth_of_le (by decide)

/-- R69: the status is 0 in every response but that of a failed transfer, whose code is 5. -/
theorem code_le_and_status (r : Response) : r.code.toNat ≤ 5 ∧ (r.code ≠ 5 → r.status = 0) := by
  obtain _ | _ | _ | _ | _ | st := r
  case err.hardwareTransferFailed => exact ⟨le_rfl, fun h => absurd rfl h⟩
  all_goals exact ⟨by decide, fun _ => rfl⟩

/-- Settles O52: word 0 is the code and word 1 the status, read off the table of errors. -/
theorem responseWordsFollowTheTable : Obligations.ResponseWordsFollowTheTable := by
  refine ⟨⟨rfl, rfl⟩, fun r => ?_, rfl, rfl, rfl, rfl, fun st => ⟨rfl, rfl⟩⟩
  obtain ⟨hcode, hstatus⟩ := code_le_and_status r
  refine ⟨(response_word0_toNat r).trans_le hcode, fun h5 => hstatus fun hc => h5 ?_⟩
  rw [Response.word0, hc]
  rfl

end Sys2Proof.Proofs
end

/-! Proofs of the family on pin control: what one pin access does, and that every step keeps the trace legal. -/

section
namespace Sys2Proof.Proofs

open Sys2Proof.Machine Sys2Proof.Safety

/-! ### A legal trace -/

/-- What holds of every event of a body and of chip-select's own writes holds of the guarded body (R89). -/
theorem forall_mem_guarded {cfg : Cfg} {mid : List Event} {P : Event → Prop}
    (hcs : ∀ cs b, cfg.chipSelectLine = some cs → P (pw cs b)) (hmid : ∀ e ∈ mid, P e) :
    ∀ e ∈ guarded cfg mid, P e := by
  cases hc : cfg.chipSelectLine with
  | none => simpa [guarded, hc] using hmid
  | some cs =>
    have hends : ∀ b, P (pw cs b) := fun b => hcs cs b hc
    simpa [guarded, hc, or_imp, forall_and, hends] using hmid

/-- Every write of a configured pin by its own path is legal (R82, R83). -/
theorem eventOk_pw {cfg : Cfg} {p : Pin} (hp : p ∈ configPins cfg) (b : Bool) : EventOk cfg (pw p b) :=
  ⟨p, hp, rfl, rfl⟩

/-- The events of an answered command are legal: the guard writes the configured chip-select, and its body's events are
legal by the summary. -/
theorem eventsOk_of_summary {i : Instr} {s t : State} {evs : List Event} {r : Response}
    (h : Summary i s t evs r) : ∀ e ∈ evs, EventOk s.cfg e := by
  obtain rfl | ⟨mid, rfl, hmid⟩ := h.events
  · simp
  · exact forall_mem_guarded (fun cs b hc => eventOk_pw (mem_configPins_cs hc) b) fun e he => (hmid e he).1

/-- A trace extended by legal events under the same configuration stays legal. -/
theorem traceOk_append {s t : State} {evs : List Event} (hs : TraceOk s) (hcfg : t.cfg = s.cfg)
    (htrace : t.trace = s.trace ++ evs) (hevs : ∀ e ∈ evs, EventOk s.cfg e) : TraceOk t := by
  unfold TraceOk
  rw [hcfg, htrace]
  exact List.forall_mem_append.2 ⟨hs, hevs⟩

/-- Settles O12: a command appends the legal events of its summary; the other steps emit none. -/
theorem everyStepKeepsTheTraceLegal : Obligations.EveryStepKeepsTheTraceLegal := by
  intro s t hs h
  obtain ⟨-, rfl⟩ | ⟨d, rest, i, -, -, hexec⟩ | ⟨d, rest, -, -, -, rfl⟩ := step_cases h
  · exact hs
  · obtain ⟨evs, r, hsum⟩ := exec_summary hexec
    have htaken : TraceOk { s with queue := rest } := hs
    exact traceOk_append htaken hsum.cfg hsum.trace (eventsOk_of_summary hsum)
  · exact hs

/-! ### One pin access -/

/-- R85: the latch of the pin written holds the level, every other latch what it held. -/
theorem level_pinWrite (p : Pin) (b : Bool) (s : State) (q : Nat) :
    level (pinWrite p b s).latch q = if q = p.id then b else level s.latch q :=
  level_latchAfter_pw s.latch p b q

/-- Settles O19: the write sets the trace and the latches alone, and the latches as `level_pinWrite` says. -/
theorem pinWriteDrivesOneLine : Obligations.PinWriteDrivesOneLine :=
  fun p b s => ⟨pinWrite_trace p b s, level_pinWrite p b s, rfl⟩

/-- R86 (log 11): a level fixed in advance is the next one answered. -/
theorem levelAt_zero_of_pinAnswers {s : State} {b : Bool} {rest : List Bool} (h : s.pinAnswers = b :: rest) :
    levelAt s 0 = b := by
  simp [levelAt, h]

/-- Settles O20: the level read and the one in the event are the next answer. -/
theorem pinReadReturnsTheAnsweredLevel : Obligations.PinReadReturnsTheAnsweredLevel :=
  fun _ s => ⟨levelAt s 0, rfl, fun _ _ => levelAt_zero_of_pinAnswers⟩

end Sys2Proof.Proofs
end

/-! Proofs of the family on chip-select: where a command's events leave it, and what the guard encloses. -/

section
namespace Sys2Proof.Proofs

open Sys2Proof.Machine Sys2Proof.Safety

/-- The guard with chip-select `cs` is one write of it before the body's events and one after (R89). -/
theorem guarded_of_chipSelect {cfg : Cfg} {cs : Pin} (h : cfg.chipSelectLine = some cs) (mid : List Event) :
    guarded cfg mid = pw cs false :: (mid ++ [pw cs true]) := by
  rw [guarded, h]

/-- Whatever the guard encloses, chip-select ends at level 1 (R96). -/
theorem level_replay_guarded_chipSelect {cfg : Cfg} {cs : Pin} (h : cfg.chipSelectLine = some cs) (mid : List Event)
    (l : List (Nat × Bool)) : level (replay l (guarded cfg mid)) cs.id = true := by
  simp [guarded_of_chipSelect h]

/-- Settles O15: a command's events are none or a guarded body, and no event of a body is on chip-select. -/
theorem chipSelectIsAssertedExactlyOnce : Obligations.ChipSelectIsAssertedExactlyOnce := by
  intro i s t cs hcs hexec
  obtain ⟨evs, r, hsum⟩ := exec_summary hexec
  refine ⟨evs, hsum.trace, ?_⟩
  obtain rfl | ⟨mid, rfl, hmid⟩ := hsum.events
  · exact .inl rfl
  · exact .inr ⟨mid, guarded_of_chipSelect hcs mid, fun e he => (hmid e he).2 cs hcs⟩

/-- Settles O16: a trace that grew, grew by a guarded body, and the latches follow it. -/
theorem chipSelectIsLeftHigh : Obligations.ChipSelectIsLeftHigh := by
  intro i s t cs hcs hexec hgrown
  obtain ⟨evs, r, hsum⟩ := exec_summary hexec
  obtain rfl | ⟨mid, rfl, -⟩ := hsum.events
  · exact absurd (hsum.trace.trans (List.append_nil _)) hgrown
  · rw [hsum.latch]
    exact level_replay_guarded_chipSelect hcs mid s.latch

/-- Settles O17: the one response a command adds is the one its summary speaks of, and with it the events. -/
theorem preconditionErrorsTouchNoBus : Obligations.PreconditionErrorsTouchNoBus := by
  intro i s t r hexec hresp hr
  obtain ⟨evs, r', hsum⟩ := exec_summary hexec
  obtain rfl : r' = r := List.singleton_injective (List.append_cancel_left (hsum.responses.symm.trans hresp))
  rw [hsum.trace, hsum.precheck hr]

/-- Settles O18: the guard branches on the configuration's chip-select alone, and keeps the result of a body that
ended. -/
theorem guardEnclosesItsBody : Obligations.GuardEnclosesItsBody := by
  refine fun body s => ⟨fun hcs => withChipSelect_none hcs body, fun cs r t hcs hbody => ?_⟩
  rw [withChipSelect_some hcs, ← pinWrite_eq, hbody]
  rfl

end Sys2Proof.Proofs
end

/-! Proofs of the family on the SPI transport: the status of a transfer, what `writeSpi` and `readSpi` send and store,
and the fault of a positive status. -/

section
namespace Sys2Proof.Proofs

open Sys2Proof.Machine Sys2Proof.Safety

/-! ### The status of a transfer -/

theorem resultOfStatus_of_neg {status : BitVec 32} (h : status.toInt < 0) :
    resultOfStatus status = .err (.hardwareTransferFailed status) :=
  if_neg fun h0 => by simp [h0] at h

section FixedStatus

variable {s : State} {a : SpiAnswer} {rest : List SpiAnswer} (hw : s.cfg.statusW = 32) (hs : s.spiAnswers = a :: rest)

include hw hs

/-- R100: the next status is the one the environment has fixed. -/
theorem nextStatus_of_spiAnswers : nextStatus s = a.status := by
  simp only [nextStatus, hs, statusOf_of_statusW hw]

/-- R101: a fixed status is positive or not by its sign. -/
theorem positiveStatus_eq_none_of_spiAnswers : positiveStatus s = none ↔ a.status.toInt ≤ 0 := by
  simp [positiveStatus, hs, statusOf_of_statusW hw, BitVec.slt]

end FixedStatus

/-- Settles O27: the drawn status is bounded, and a fixed one is read as it stands. -/
theorem statusIsTranslatedToAResult : Obligations.StatusIsTranslatedToAResult :=
  ⟨fun _ hp => ⟨nextStatus_le hp, fun h0 => if_pos h0, resultOfStatus_of_neg⟩,
    fun _ _ _ hw hs => ⟨nextStatus_of_spiAnswers hw hs, positiveStatus_eq_none_of_spiAnswers hw hs⟩⟩

/-! ### writeSpi -/

/-- R108: a buffer is pre-mapped exactly where it is the registered one and that has a bus address. -/
theorem premappedAddr_eq_some_iff {cfg : Cfg} {addr b : Nat} :
    premappedAddr cfg (some addr) = some b ↔
      ∃ dma, cfg.dmaCapableBuffer = some dma ∧ addr = dma.cpuAddr ∧ dma.busAddr = some b := by
  cases hd : cfg.dmaCapableBuffer <;> simp [premappedAddr, hd]

/-- R107: the transfer of a write is as long as its data. -/
theorem writeSpec_eq {cfg : Cfg} {data : List Byte} {bufAddr : Option Nat} {n : Nat} (h : data.length = n) :
    writeSpec cfg data bufAddr =
      { len := n, tx := some data, rxWanted := false, hz := none
        premapped := (premappedAddr cfg bufAddr).isSome, txBusAddr := premappedAddr cfg bufAddr } := by
  rw [← h]
  rfl

/-- Settles O28: the one transfer of the request's bytes, its bus address decided by `premappedAddr`. -/
theorem writeSpiSendsTheRequest : Obligations.WriteSpiSendsTheRequest := by
  refine fun addr len s ha => ⟨execWriteSpi_absent ha, fun hb hr hp => ?_⟩
  have hexec := execWriteSpi_sends ha hb hr hp
  rw [writeSpec_eq (memRead_length s addr len)] at hexec
  exact ⟨_, _, fun _ => premappedAddr_eq_some_iff, hexec⟩

/-! ### readSpi -/

/-- R110: the length check passes without a start byte and within the staging buffer. -/
theorem stageOverrun_eq_false_iff {len : Nat} {s : State} :
    stageOverrun len s = false ↔ (s.cfg.startByte.isSome = true → len ≤ s.cfg.stageSize) := by
  rw [← Bool.not_eq_true, stageOverrun_iff, not_and, Nat.not_lt]

/-- Settles O29: the handle is looked at first, and `STAGE` has the 32 bytes of R7. -/
theorem readSpiChecksHandleThenLength : Obligations.ReadSpiChecksHandleThenLength := by
  intro addr len s hv ha
  obtain ⟨-, hsize, -⟩ := hv
  exact ⟨execReadSpi_absent ha, fun hb hstart hlen =>
    execReadSpi_overrun ha hb (stageOverrun_iff.2 ⟨hstart, hsize.symm ▸ hlen⟩)⟩

/-- `STAGE` at the parameters of R7: the start byte with its two low bits set, then zeros (R110). -/
theorem stageFor_eq {cfg : Cfg} (hv : SourceValues cfg) (b : Byte) (len : Nat) :
    stageFor cfg b len = if 0 < len then (b ||| 0x03) :: List.replicate 31 0 else List.replicate 32 0 := by
  obtain ⟨-, hsize, hor, -⟩ := hv
  rw [stageFor, hsize, hor]
  rfl

/-- The bytes sent are the start byte and zeros; a read of no byte sends none of them (log 25). -/
theorem take_stageFor {cfg : Cfg} (hv : SourceValues cfg) (b : Byte) (len : Nat) :
    (stageFor cfg b len).take len = ((b ||| 0x03) :: List.replicate 31 0).take len := by
  rw [stageFor_eq hv]
  split
  · rfl
  · next h => simp [Nat.eq_zero_of_not_pos h]

/-- The transfer of a read at the parameters of R7 (R106, R110). -/
theorem readSpec_stageRead_eq {s : State} (hv : SourceValues s.cfg) (len : Nat) :
    readSpec s.cfg (readTx len (stageRead len s)) len =
      { len := len, tx := s.cfg.startByte.map fun b => ((b ||| 0x03) :: List.replicate 31 0).take len
        rxWanted := true, hz := some 2000000, premapped := false, txBusAddr := none } := by
  have htx := readTx_stageRead len s
  simp only [take_stageFor hv] at htx
  obtain ⟨-, -, -, hhz, -⟩ := hv
  rw [htx, readSpec, hhz]

/-- On success the request holds the received bytes (R110). -/
theorem read_storeCells_filledBytes {s : State} (hok : nextStatus s = 0) (m : List Host.Cell) (addr draws : Nat)
    {len k : Nat} (hk : k < len) :
    Cells.read Memory.unlisted (storeCells m addr (filledBytes len (nextStatus s) (nextRx s len) draws)) (addr + k) =
      rxByte s k := by
  rw [filledBytes, if_pos hok, read_storeCells_add m addr (by simpa using hk)]
  simp [nextRx, List.getD, hk]

/-- One draw for the transfer, and one for the bytes of a failed one (R102). -/
theorem filledDraws_succ (status : BitVec 32) (draws : Nat) :
    filledDraws status (draws + 1) = draws + if status = 0 then 1 else 2 := by
  unfold filledDraws
  split <;> rfl

/-- Settles O30: the bytes the read fills its request with are stored there and nowhere else. -/
theorem readSpiFillsTheRequest : Obligations.ReadSpiFillsTheRequest := by
  intro addr len s hv ha hb hlen hr hp
  have ⟨_, hsize, _⟩ := hv
  have ho : stageOverrun len s = false := stageOverrun_eq_false_iff.2 (hsize.symm ▸ hlen)
  have hexec := execReadSpi_fills ha hb ho hr hp
  have hspec := readSpec_stageRead_eq (s := issue 0x01 addr len s) hv len
  rw [issue_cfg] at hspec
  rw [hspec, fillRead_stores, stageRead_stages] at hexec
  rw [← filledDraws_succ]
  refine ⟨_, _, stagedBytes s.cfg len s.stage, fun a hout => ?_, fun hok k hk => ?_, stagedBytes_of_none,
    fun b hstart => ?_, hexec⟩
  · exact memByte_of_storeCells (t := { s with mem := _ }) rfl (filledBytes_length (nextRx_length s len)).le hout
  · exact read_storeCells_filledBytes hok s.mem addr (s.draws + 1) hk
  · rw [stagedBytes, hstart, ← stageFor_eq hv]

/-! ### A positive status -/

section Positive

variable {addr len : Nat} {s : State} {st : BitVec 32} (ha : Admitted (spiPins s) s)
  (hb : s.cfg.busHandle.isSome = true) (hr : RequestOk addr len s) (hp : positiveStatus s = some st)

include ha hb hr hp

theorem execWriteSpi_positive : exec (.writeSpi addr len) s = .fault (.positiveSpiStatus st) := by
  obtain ⟨handle, hh⟩ := Option.isSome_iff_exists.1 hb
  simp only [exec, execWriteSpi, admission_eq_none.2 ha, requestRefusal_eq_none.2 hr, hh]
  exact spiWriteCore_positive hb hp

theorem execReadSpi_positive (ho : stageOverrun len s = false) :
    exec (.readSpi addr len) s = .fault (.positiveSpiStatus st) := by
  obtain ⟨handle, hh⟩ := Option.isSome_iff_exists.1 hb
  simp only [exec, execReadSpi, admission_eq_none.2 ha, hh, ho, requestRefusal_eq_none.2 hr, Bool.false_eq_true,
    if_false]
  exact readSpi_guarded_positive hp

theorem execWriteSpiEmulate9_positive {cap : Nat} (hs : s.cfg.scratchBuffer = some cap) (hl : len % 8 = 0)
    (hg : len % groupSpan s.cfg = 0) (hc : outLen s.cfg len ≤ cap) :
    exec (.writeSpiEmulate9 addr len) s = .fault (.positiveSpiStatus st) := by
  have hp' : positiveStatus (packed addr len s) = some st := by rw [packed_eq]; exact hp
  rw [execWriteSpiEmulate9_packs ha hs hl hg hc hr, spiWriteCore_positive (by simpa using hb) hp']

end Positive

/-- Settles O31: each command, past its checks, awaits the transfer that answers the positive status. -/
theorem positiveStatusIsAFault : Obligations.PositiveStatusIsAFault := by
  intro addr len s st hv ha hb hr hp
  have ⟨_, hsize, _⟩ := hv
  refine ⟨execWriteSpi_positive ha hb hr hp, fun hlen => ?_, fun cap hs hl hc => ?_⟩
  · exact execReadSpi_positive ha hb hr hp (stageOverrun_eq_false_iff.2 (hsize.symm ▸ hlen))
  · exact execWriteSpiEmulate9_positive ha hb hr hp hs (by omega) ((groupSpan_eq hv).symm ▸ hl)
      ((outLen_eq hv len).symm ▸ hc)

end Sys2Proof.Proofs
end

/-! Proofs of the family on the SPI transport: the packed write of the 9-bit emulation. -/

section
namespace Sys2Proof.Proofs

open Sys2Proof.Machine Sys2Proof.Safety

/-! ### The groups of a request -/

/-- Sixteen bytes of the request make a group (R113). -/
theorem groupCount_eq {cfg : Cfg} (hv : SourceValues cfg) (len : Nat) : groupCount cfg len = len / 16 := by
  rw [groupCount, groupSpan_eq hv]

/-- Word `j` of group `g` in the request (R113). -/
theorem groupWord_eq {s : State} (hv : SourceValues s.cfg) (addr g j : Nat) :
    groupWord addr g s j = memRead16 s (addr + 16 * g + 2 * j) := by
  rw [groupWord, groupSpan_eq hv]

/-! ### The packed bytes -/

/-- The output of the packing: the first nine bytes of `SCRATCH` for each group (R116). -/
def packedBytes (addr len : Nat) (s : State) : List Byte := (packed addr len s).scratch.take (9 * (len / 16))

theorem packedBytes_length {addr len : Nat} {s : State} (hfit : 9 * (len / 16) ≤ s.scratch.length) :
    (packedBytes addr len s).length = 9 * (len / 16) := by
  rw [packedBytes, List.length_take_of_le (by rwa [packed_scratch_length])]

/-- `SCRATCH` after the packing: the output, then its old bytes (R117). -/
theorem packed_scratch_eq {addr len : Nat} {s : State} (hv : SourceValues s.cfg)
    (hfit : 9 * (len / 16) ≤ s.scratch.length) :
    (packed addr len s).scratch = packedBytes addr len s ++ s.scratch.drop (packedBytes addr len s).length := by
  have hrest : (packed addr len s).scratch.drop (9 * (len / 16)) = s.scratch.drop (9 * (len / 16)) :=
    List.ext_getElem? fun k => by
      rw [List.getElem?_drop, List.getElem?_drop, packed_scratch_above hv (Nat.le_add_right ..)]
  rw [packedBytes_length hfit, ← hrest, packedBytes, List.take_append_drop]

/-- The nine bytes of group `g` in the output (R114, R117). -/
theorem packedBytes_getElem? {addr len g i : Nat} {s : State} (hv : SourceValues s.cfg)
    (hfit : 9 * (len / 16) ≤ s.scratch.length) (hg : g < len / 16) (hi : i < 9) :
    (packedBytes addr len s)[9 * g + i]? = (groupOutput 8 (groupWord addr g s))[i]? := by
  have hk : 9 * g + i < 9 * (len / 16) := by omega
  have hcount := groupCount_eq hv len
  obtain ⟨-, -, -, -, hwords, hbytes, -⟩ := hv
  rw [packedBytes, List.getElem?_take_of_lt hk, packed_scratch_getElem? hbytes (by omega), hcount, if_pos hk, hwords,
    show (9 * g + i) / 9 = g by omega, show (9 * g + i) % 9 = i by omega]

/-- R115: the bits of the output are the nine-bit words of the request, flag first. -/
theorem packedBytes_bit {addr len g n : Nat} {s : State} (hv : SourceValues s.cfg)
    (hfit : 9 * (len / 16) ≤ s.scratch.length) (hg : g < len / 16) (hn : n < 72) :
    ((packedBytes addr len s).getD (9 * g + n / 8) 0).getLsbD (7 - n % 8) =
      (memRead16 s (addr + 16 * g + 2 * (n / 9))).getLsbD (8 - n % 9) := by
  rw [← groupWord_eq hv, ← groupOutput_bit _ n hn, List.getD, packedBytes_getElem? hv hfit hg (by omega), List.getD]

/-! ### The accumulator -/

theorem packed_acc_of_len_zero {addr len : Nat} {s : State} (h : len = 0) : (packed addr len s).acc = s.acc := by
  rw [packed, groupCount, h, Nat.zero_div]
  rfl

/-- `ACC` holds the group packed last (R34, R117). -/
theorem packed_acc_eq {addr len g : Nat} {s : State} (h : groupCount s.cfg len = g + 1) :
    (packed addr len s).acc = packAcc s.cfg.groupWords (groupWord addr g s) := by
  rw [packed, h, packGroups, packGroup_acc, groupWord_packGroups, packGroups_cfg]
  rfl

/-- R115: the bits of `ACC` are the first 64 of the last group. -/
theorem packed_acc_bit {addr len n : Nat} {s : State} (hv : SourceValues s.cfg) (hl : len % 16 = 0) (hpos : 0 < len)
    (hn : n < 64) :
    (packed addr len s).acc.getLsbD (63 - n) =
      (memRead16 s (addr + (len - 16) + 2 * (n / 9))).getLsbD (8 - n % 9) := by
  have hlast : groupCount s.cfg len = (len / 16 - 1) + 1 := by
    rw [groupCount_eq hv]
    omega
  have ⟨_, _, _, _, hwords, _⟩ := hv
  rw [packed_acc_eq hlast, hwords, packAcc_getLsbD _ n hn, groupWord_eq hv,
    show 16 * (len / 16 - 1) = len - 16 by omega]

/-! ### The command -/

/-- The state after the packing: `ACC` and, in front of `SCRATCH`, the output (R117). -/
theorem packed_eq_packedBytes {addr len : Nat} {s : State} (hv : SourceValues s.cfg)
    (hfit : 9 * (len / 16) ≤ s.scratch.length) :
    packed addr len s = { issue 0x02 addr len s with
      acc := (packed addr len s).acc
      scratch := packedBytes addr len s ++ s.scratch.drop (packedBytes addr len s).length } := by
  rw [← packed_scratch_eq hv hfit]
  exact packed_eq ..

/-- Settles O37: the packing leaves `SCRATCH` and `ACC` as above, and its output is sent or, without a bus handle, not. -/
theorem emulate9SendsTheNineBitStream : Obligations.Emulate9SendsTheNineBitStream := by
  intro addr len cap s hv ha hs hcap hl hc hr
  have hfit : 9 * (len / 16) ≤ s.scratch.length := hcap.symm ▸ hc
  have hl8 : len % 8 = 0 := by omega
  have hg : len % groupSpan s.cfg = 0 := (groupSpan_eq hv).symm ▸ hl
  have hout := outLen_eq hv len
  have hc' : outLen s.cfg len ≤ cap := hout.symm ▸ hc
  have hlen := packedBytes_length (addr := addr) hfit
  have habsent (hb : s.cfg.busHandle = none) :=
    execWriteSpiEmulate9_absent ha hs hl8 hg hc' hr hb
  have hsends (hb : s.cfg.busHandle.isSome = true) (hp : positiveStatus s = none) :=
    execWriteSpiEmulate9_sends ha hs hl8 hg hc' hr hb hp
  rw [packed_eq_packedBytes hv hfit] at habsent
  rw [hout, ← packedBytes, writeSpec_eq hlen, packed_eq_packedBytes hv hfit] at hsends
  exact ⟨packedBytes addr len s, (packed addr len s).acc, _, hlen, fun _ _ => packedBytes_bit hv hfit,
    packed_acc_of_len_zero, fun _ => packed_acc_bit hv hl, habsent, hsends⟩

end Sys2Proof.Proofs
end

/-! Proofs of the family on the 9-bit emulation: the checks before the packing, and the bits of a word that are packed. -/

section
namespace Sys2Proof.Proofs

open Sys2Proof.Machine Sys2Proof.Safety

/-! ### The checks before the packing -/

/-- Settles O33: the first check that fails answers, through the chip-select precondition (R143). -/
theorem emulate9ChecksScratchThenLength : Obligations.Emulate9ChecksScratchThenLength := by
  intro addr len s ha
  refine ⟨execWriteSpiEmulate9_missing ha, fun hs hl => ?_⟩
  obtain ⟨cap, hcap⟩ := Option.isSome_iff_exists.1 hs
  exact execWriteSpiEmulate9_invalid ha hcap hl

/-- Past both checks, a request with no meaning is refused (R118, R119, R47). -/
theorem execWriteSpiEmulate9_refuses {addr len cap : Nat} {r : Refusal} {s : State} (ha : Admitted (spiPins s) s)
    (hs : s.cfg.scratchBuffer = some cap) (hl : len % 8 = 0) (hr : emulate9Refusal cap addr len s = some r) :
    exec (.writeSpiEmulate9 addr len) s = .refused r := by
  simp only [exec, execWriteSpiEmulate9, admission_eq_none.2 ha, hs, if_neg (not_not_intro hl), hr]

theorem emulate9Refusal_of_partialGroup {cap addr len : Nat} {s : State} (hg : len % groupSpan s.cfg ≠ 0) :
    emulate9Refusal cap addr len s = some .partialGroup := if_pos hg

theorem emulate9Refusal_of_scratchTooSmall {cap addr len : Nat} {s : State} (hg : len % groupSpan s.cfg = 0)
    (hc : cap < outLen s.cfg len) : emulate9Refusal cap addr len s = some .scratchTooSmall :=
  (if_neg (not_not_intro hg)).trans (if_pos hc)

/-- Settles O34: at the values of R7 a group spans 16 bytes of the request and 9 of the scratch buffer. -/
theorem emulate9RefusesPartialGroupsAndSmallScratch : Obligations.Emulate9RefusesPartialGroupsAndSmallScratch := by
  intro addr len cap s hv ha hs
  constructor
  · intro hl
    have hg : len % groupSpan s.cfg ≠ 0 := by
      rw [groupSpan_eq hv]
      omega
    exact execWriteSpiEmulate9_refuses ha hs (by omega) (emulate9Refusal_of_partialGroup hg)
  · intro hl hc
    have hg : len % groupSpan s.cfg = 0 := (groupSpan_eq hv).symm ▸ hl
    have hout : cap < outLen s.cfg len := (outLen_eq hv len).symm ▸ hc
    exact execWriteSpiEmulate9_refuses ha hs (by omega) (emulate9Refusal_of_scratchTooSmall hg hout)

/-! ### The bits of a word that are packed -/

theorem wordFlag_congr {v v' : Word} (h : v.setWidth 9 = v'.setWidth 9) : wordFlag v = wordFlag v' := by
  have hflag := congrArg (BitVec.extractLsb' 8 1) h
  rwa [BitVec.extractLsb'_setWidth_of_le (by omega), BitVec.extractLsb'_setWidth_of_le (by omega)] at hflag

theorem wordPayload_congr {v v' : Word} (h : v.setWidth 9 = v'.setWidth 9) : wordPayload v = wordPayload v' := by
  have hpayload := congrArg (BitVec.extractLsb' 0 8) h
  rwa [BitVec.extractLsb'_setWidth_of_le (by omega), BitVec.extractLsb'_setWidth_of_le (by omega)] at hpayload

theorem packWord_congr {w w' : Nat → Word} {j : Nat} (h : (w j).setWidth 9 = (w' j).setWidth 9) (acc : BitVec 64) :
    packWord w acc j = packWord w' acc j := by
  rw [packWord, packWord, wordFlag_congr h, wordPayload_congr h]

/-- The accumulator takes of each word its flag and payload alone (R114). -/
theorem packAcc_congr {n : Nat} {w w' : Nat → Word} (hn : 0 < n)
    (h : ∀ j, j < n → (w j).setWidth 9 = (w' j).setWidth 9) : packAcc n w = packAcc n w' := by
  have hwords : (List.range (n - 1)).foldl (packWord w) 0 = (List.range (n - 1)).foldl (packWord w') 0 :=
    List.foldl_ext _ _ _ fun acc j hj => packWord_congr (h j (by have := List.mem_range.1 hj; omega)) acc
  rw [packAcc, packAcc, hwords, wordFlag_congr (h (n - 1) (by omega))]

/-- So do the output bytes, which are the accumulator and the last payload (R114). -/
theorem groupOutput_congr {n : Nat} {w w' : Nat → Word} (hn : 0 < n)
    (h : ∀ j, j < n → (w j).setWidth 9 = (w' j).setWidth 9) : groupOutput n w = groupOutput n w' := by
  rw [groupOutput, groupOutput, packAcc_congr hn h, wordPayload_congr (h (n - 1) (by omega))]

/-- Settles O35: a word is packed by its flag and payload, and these are cut from its low nine bits. -/
theorem onlyTheLowNineBitsArePacked : Obligations.OnlyTheLowNineBitsArePacked := by
  refine ⟨fun w => ⟨?_, fun k hk => ?_⟩, fun w w' h => ⟨packAcc_congr (by omega) h, groupOutput_congr (by omega) h⟩⟩
  · simp [wordFlag]
  · simp [wordPayload, hk]

end Sys2Proof.Proofs
end

/-! Proofs of the family on GPIO writes: the events of a write cycle, and the level it leaves on each data line. -/

section
namespace Sys2Proof.Proofs

open Sys2Proof.Machine Sys2Proof.Safety

/-! ### The next state of a command -/

/-- The words of the 8-bit bus are the bytes of the request (R128). -/
theorem map_wordOfByte_memRead (s : State) (addr len : Nat) :
    (memRead s addr len).map wordOfByte = (List.range len).map fun k => (memByte s (addr + k)).setWidth 16 :=
  List.map_map

/-- Settles O38: the words sent are the bytes of the request. -/
theorem writeGpio8WrRunsOneCyclePerByte : Obligations.WriteGpio8WrRunsOneCyclePerByte := by
  intro addr len s wr ha hw hs hr
  rw [← map_wordOfByte_memRead]
  exact gpioWrite_eq ha hw hs (Nat.mod_one len) hr

/-- Settles O44: the command raises in an idle block, and no event is no change to trace and latches. -/
theorem latchedWriteAlwaysFails : Obligations.LatchedWriteAlwaysFails := by
  intro addr len s hs
  rw [execWriteGpio16WrLatched_fails hs, ← raise_emits_issue, emits_nil]
  rfl

/-! ### The events of a write cycle -/

/-- One event for each line that is touched (R121). -/
theorem length_lineEvents (lines : List Pin) (w : Word) (touched : Nat → Bool) :
    (lineEvents lines w touched).length = ((List.range lines.length).filter touched).length := by
  rw [lineEvents, List.length_map, List.range_eq_range', ← List.zipIdx_map_snd 0 lines, List.filter_map,
    List.length_map]
  rfl

/-- A word within the bus width has no bit above it. -/
theorem getLsbD_eq_false_of_lt {n i : Nat} {v : Word} (hv : v.toNat < 2 ^ n) (hi : n ≤ i) : v.getLsbD i = false :=
  Nat.testBit_lt_two_pow (hv.trans_le (Nat.pow_le_pow_right Nat.two_pos hi))

/-- Words within the bus width differ on its lines alone, so the bits that differ can be counted there (R125). -/
theorem diffBits_eq {n : Nat} {w prev : Word} (hn : n ≤ 16) (hw : w.toNat < 2 ^ n) (hprev : prev.toNat < 2 ^ n) :
    diffBits w prev = ((List.range n).filter fun i => w.getLsbD i != prev.getLsbD i).length := by
  obtain ⟨k, hk⟩ := Nat.exists_eq_add_of_le hn
  have hsplit : List.range 16 = List.range n ++ (List.range k).map (n + ·) := by rw [hk, List.range_add]
  rw [diffBits, hsplit, List.filter_append, List.filter_map]
  simp [Function.comp_def, getLsbD_eq_false_of_lt hw, getLsbD_eq_false_of_lt hprev]

/-- Settles O40: the middle of the cycle is `dataEvents`, a delay write or the writes of the touched lines. -/
theorem writeCycleEventsAreCounted : Obligations.WriteCycleEventsAreCounted := by
  intro wr s w hlines hw hprev
  refine ⟨dataEvents s.cfg wr s.prev w, by rw [writeWord_eq]; rfl, fun hon hsame => ?_, fun hon hdiff => ?_,
    fun hoff => ?_⟩
  · simp [dataEvents, hon, hsame]
  · have hdata : dataEvents s.cfg wr s.prev w =
        lineEvents s.cfg.dataLines w fun i => w.getLsbD i != s.prev.getLsbD i := by
      simp [dataEvents, hon, hdiff]
    rw [hdata]
    refine ⟨?_, fun e => by simp [mem_lineEvents]⟩
    rw [length_lineEvents, diffBits_eq (by omega) hw hprev]
  · simp [dataEvents, hoff, length_lineEvents]

/-! ### The level of a data line after a write cycle -/

/-- A pin that is written, and only ever with the level `b`, ends at `b` (R37). -/
theorem level_replay_of_writes {p : Pin} {b : Bool} {evs : List Event}
    (hall : ∀ e ∈ evs, writesPin p.id e = true → e = pw p b) (hmem : pw p b ∈ evs) (l : List (Nat × Bool)) :
    level (replay l evs) p.id = b := by
  induction evs generalizing l with
  | nil => cases hmem
  | cons e es ih =>
    have hall' : ∀ e ∈ es, writesPin p.id e = true → e = pw p b := fun e he => hall e (.tail _ he)
    by_cases hlater : pw p b ∈ es
    · exact ih hall' hlater _
    · have hlast : ∀ e ∈ es, writesPin p.id e = false := fun e he =>
        Bool.eq_false_iff.2 fun hwrite => hlater (hall' e he hwrite ▸ he)
      obtain rfl : pw p b = e := (List.mem_cons.1 hmem).resolve_right hlater
      rw [replay_cons, level_replay_of_not_written hlast, level_latchAfter_pw, if_pos rfl]

/-- The writes of one word leave each touched line at the word's bit and every other line alone (R121). -/
theorem level_replay_lineEvents {lines : List Pin} {i : Nat} {p : Pin} (hd : (lines.map Pin.id).Nodup)
    (hp : lines[i]? = some p) (w : Word) (touched : Nat → Bool) (l : List (Nat × Bool)) :
    level (replay l (lineEvents lines w touched)) p.id = if touched i then w.getLsbD i else level l p.id := by
  have hline : ∀ e ∈ lineEvents lines w touched, writesPin p.id e = true →
      touched i = true ∧ e = pw p (w.getLsbD i) := by
    intro e he hwrite
    obtain ⟨j, q, hq, htouched, rfl⟩ := mem_lineEvents.1 he
    have hid : (lines.map Pin.id)[j]? = (lines.map Pin.id)[i]? := by simpa [hp, hq] using hwrite
    obtain rfl : j = i := (List.getElem?_inj (by simpa using (List.getElem?_eq_some_iff.1 hq).1) hd).1 hid
    obtain rfl : p = q := Option.some.inj (hp.symm.trans hq)
    exact ⟨htouched, rfl⟩
  split
  · next htouched =>
    exact level_replay_of_writes (fun e he hwrite => (hline e he hwrite).2)
      (mem_lineEvents.2 ⟨i, p, hp, htouched, rfl⟩) l
  · next htouched =>
    exact level_replay_of_not_written (fun e he => Bool.eq_false_iff.2 fun hwrite =>
      htouched (hline e he hwrite).1) l

/-- The lines a write cycle drives: with the optimisation, those whose bit differs from the word before (R121, R122). -/
def drivesLine (cfg : Cfg) (prev w : Word) (i : Nat) : Bool :=
  match cfg.skipOpt with
  | .enabled => w.getLsbD i != prev.getLsbD i
  | .disabled => true

/-- A line the cycle leaves alone has the same bit in both words. -/
theorem getLsbD_eq_of_not_drivesLine {cfg : Cfg} {prev w : Word} {i : Nat} (h : drivesLine cfg prev w i ≠ true) :
    cfg.skipOpt = .enabled ∧ w.getLsbD i = prev.getLsbD i := by
  unfold drivesLine at h
  split at h
  · next hon => exact ⟨hon, by simpa using h⟩
  · exact absurd rfl h

/-- Every data line carries the bit of a word, as `Coherent` says it of `PREV` (R126). -/
def CarriesWord (lines : List Pin) (l : List (Nat × Bool)) (w : Word) : Prop :=
  ∀ i p, lines[i]? = some p → level l p.id = w.getLsbD i

theorem coherent_iff {s : State} : Coherent s ↔ CarriesWord s.cfg.dataLines s.latch s.prev := Iff.rfl

theorem getLsbD_lineWord {lines : List Pin} {i : Nat} {p : Pin} (hlen : lines.length ≤ 16) (hp : lines[i]? = some p)
    (l : List (Nat × Bool)) : (lineWord lines l).getLsbD i = level l p.id := by
  have hi := (List.getElem?_eq_some_iff.1 hp).1
  rw [lineWord, getLsbD_wordOfBits _ _ (by omega)]
  simp [List.getD, hp]

/-- Lines that carry a word within the bus width show it (R126). -/
theorem CarriesWord.lineWord_eq {lines : List Pin} {l : List (Nat × Bool)} {w : Word} (h : CarriesWord lines l w)
    (hlen : lines.length ≤ 16) (hw : w.toNat < 2 ^ lines.length) : lineWord lines l = w := by
  refine BitVec.eq_of_getLsbD_eq fun i hi => ?_
  cases hp : lines[i]? with
  | some p => rw [getLsbD_lineWord hlen hp, h i p hp]
  | none =>
    rw [lineWord, getLsbD_wordOfBits _ _ hi, getLsbD_eq_false_of_lt hw (List.getElem?_eq_none_iff.1 hp)]
    simp [List.getD, hp]

/-- Events that write no data line leave the word on the lines. -/
theorem CarriesWord.replay_of_not_written {lines : List Pin} {l : List (Nat × Bool)} {w : Word} {evs : List Event}
    (h : CarriesWord lines l w) (hevs : ∀ p ∈ lines, ∀ e ∈ evs, writesPin p.id e = false) :
    CarriesWord lines (replay l evs) w := fun i p hp =>
  (level_replay_of_not_written (hevs p (List.mem_of_getElem? hp)) l).trans (h i p hp)

section Cycle

variable {cfg : Cfg} {wr : Pin} (hd : ((configPins cfg).map Pin.id).Nodup) (hs : cfg.writeStrobeLine = some wr)

include hd hs

/-- A write cycle leaves each line it drives at the word's bit and every other line alone (R121, R126). -/
theorem level_replay_cycleEvents {i : Nat} {p : Pin} (hp : cfg.dataLines[i]? = some p) (prev w : Word)
    (l : List (Nat × Bool)) :
    level (replay l (cycleEvents cfg wr prev w)) p.id =
      if drivesLine cfg prev w i then w.getLsbD i else level l p.id := by
  obtain ⟨-, -, -, hstrobe, -, hnodup⟩ := pins_apart hd
  have hne : p.id ≠ wr.id := hstrobe wr hs p (List.mem_of_getElem? hp)
  simp only [cycleEvents, replay_cons, replay_append, replay_nil, level_latchAfter_pw, if_neg hne]
  unfold dataEvents drivesLine
  cases cfg.skipOpt with
  | enabled =>
    by_cases hw : w = prev
    · simp [hw, hne]
    · simp [hw, level_replay_lineEvents hnodup hp, hne]
  | disabled => simp [level_replay_lineEvents hnodup hp]

/-- After a write cycle the lines carry its word, if they carried the word before or every line is driven (R126). -/
theorem carriesWord_replay_cycleEvents {prev : Word} {l : List (Nat × Bool)}
    (h : CarriesWord cfg.dataLines l prev ∨ cfg.skipOpt = .disabled) (w : Word) :
    CarriesWord cfg.dataLines (replay l (cycleEvents cfg wr prev w)) w := by
  intro i p hp
  rw [level_replay_cycleEvents hd hs hp]
  split
  · rfl
  · next hkept =>
    obtain ⟨hon, hbit⟩ := getLsbD_eq_of_not_drivesLine hkept
    have hcarries := h.resolve_right (by simp [hon])
    rw [hcarries i p hp, hbit]

end Cycle

/-- Settles O41: the cycle's effect on each line, put together to the word on the lines. -/
theorem chipLatchesTheWordWhenCoherent : Obligations.ChipLatchesTheWordWhenCoherent := by
  intro wr s w hs hd hlen hw
  rw [writeWord_eq]
  refine ⟨fun h => ?_, fun hon i p hp => ?_⟩
  · have hcarries := carriesWord_replay_cycleEvents hd hs h w
    exact ⟨hcarries.lineWord_eq hlen hw, hcarries⟩
  · rw [getLsbD_lineWord hlen hp]
    simpa [drivesLine, hon] using level_replay_cycleEvents hd hs hp s.prev w s.latch

end Sys2Proof.Proofs
end

/-! Proofs of the family on GPIO writes: the words the display latches during a command. -/

section
namespace Sys2Proof.Proofs

open Sys2Proof.Machine Sys2Proof.Safety

/-! ### The words latched during some events -/

/-- A rise of the strobe latches what the lines carry after it (R126). -/
theorem chipWords_cons_rise (lines : List Pin) (wr : Nat) (path : Path) (l : List (Nat × Bool)) (es : List Event) :
    chipWords lines wr l (.pw wr true path :: es) =
      lineWord lines (latchAfter l (.pw wr true path)) :: chipWords lines wr (latchAfter l (.pw wr true path)) es := by
  simp [chipWords]

/-- Every other event latches nothing. -/
theorem chipWords_cons_of_ne {lines : List Pin} {wr : Nat} {e : Event} (h : ∀ path, e ≠ .pw wr true path)
    (l : List (Nat × Bool)) (es : List Event) :
    chipWords lines wr l (e :: es) = chipWords lines wr (latchAfter l e) es := by
  cases e with
  | pw p b path =>
    cases b with
    | false => rfl
    | true => exact if_neg fun hp : p = wr => h path (hp ▸ rfl)
  | _ => rfl

theorem chipWords_append (lines : List Pin) (wr : Nat) (l : List (Nat × Bool)) (es fs : List Event) :
    chipWords lines wr l (es ++ fs) = chipWords lines wr l es ++ chipWords lines wr (replay l es) fs := by
  induction es generalizing l with
  | nil => rfl
  | cons e es ih =>
    rw [List.cons_append, replay_cons]
    by_cases h : ∃ path, e = .pw wr true path
    · obtain ⟨path, rfl⟩ := h
      rw [chipWords_cons_rise, chipWords_cons_rise, ih, List.cons_append]
    · rw [chipWords_cons_of_ne (not_exists.1 h), chipWords_cons_of_ne (not_exists.1 h), ih]

theorem chipWords_of_no_rise {lines : List Pin} {wr : Nat} {evs : List Event}
    (h : ∀ e ∈ evs, ∀ path, e ≠ .pw wr true path) (l : List (Nat × Bool)) : chipWords lines wr l evs = [] := by
  induction evs generalizing l with
  | nil => rfl
  | cons e es ih =>
    rw [chipWords_cons_of_ne (h e (.head _)), ih fun e he => h e (.tail _ he)]

/-- A write of another pin, or one that lowers the strobe, is no rise of the strobe. -/
theorem pw_ne_rise {p : Pin} {b : Bool} {wr : Nat} (h : p.id ≠ wr ∨ b = false) (path : Path) :
    pw p b ≠ .pw wr true path := by
  obtain h | rfl := h <;> simp [pw, *]

section Burst

variable {cfg : Cfg} {wr : Pin} (hd : ((configPins cfg).map Pin.id).Nodup) (hs : cfg.writeStrobeLine = some wr)

include hd hs

/-- One write cycle latches one word, the one its lines carry at its end (R126). -/
theorem chipWords_cycleEvents (prev w : Word) (l : List (Nat × Bool)) :
    chipWords cfg.dataLines wr.id l (cycleEvents cfg wr prev w) =
      [lineWord cfg.dataLines (replay l (cycleEvents cfg wr prev w))] := by
  obtain ⟨-, -, -, hstrobe, -, -⟩ := pins_apart hd
  have hdata : ∀ e ∈ pw wr false :: dataEvents cfg wr prev w, ∀ path, e ≠ .pw wr.id true path := by
    intro e he
    obtain rfl | he := List.mem_cons.1 he
    · exact pw_ne_rise (.inr rfl)
    · obtain rfl | ⟨p, b, hp, rfl⟩ := mem_dataEvents he
      · exact pw_ne_rise (.inr rfl)
      · exact pw_ne_rise (.inl (hstrobe wr hs p hp))
  rw [cycleEvents, ← List.cons_append, chipWords_append, chipWords_of_no_rise hdata, replay_append]
  exact chipWords_cons_rise ..

/-- After the cycles of some words the lines carry the last one, if they carried the word before the first, or if a word
was sent and every line is driven (R126). -/
theorem carriesWord_replay_burstEvents {prev : Word} {ws : List Word} {l : List (Nat × Bool)}
    (h : CarriesWord cfg.dataLines l prev ∨ cfg.skipOpt = .disabled ∧ ws ≠ []) :
    CarriesWord cfg.dataLines (replay l (burstEvents cfg wr prev ws)) (lastWord prev ws) := by
  induction ws generalizing prev l with
  | nil => exact h.resolve_right fun hsent => hsent.2 rfl
  | cons w ws ih =>
    rw [burstEvents, replay_append, lastWord_cons]
    exact ih (.inl (carriesWord_replay_cycleEvents hd hs (h.imp_right And.left) w))

/-- The cycles of some words latch these words, in order, if the lines carried the word before the first, or if every
line is driven (R126). -/
theorem chipWords_burstEvents (hlen : cfg.dataLines.length ≤ 16) {ws : List Word}
    (hws : ∀ w ∈ ws, w.toNat < 2 ^ cfg.dataLines.length) {prev : Word} {l : List (Nat × Bool)}
    (h : CarriesWord cfg.dataLines l prev ∨ cfg.skipOpt = .disabled) :
    chipWords cfg.dataLines wr.id l (burstEvents cfg wr prev ws) = ws := by
  induction ws generalizing prev l with
  | nil => rfl
  | cons w ws ih =>
    have hcarries := carriesWord_replay_cycleEvents hd hs h w
    rw [burstEvents, chipWords_append, chipWords_cycleEvents hd hs, hcarries.lineWord_eq hlen (hws w (.head _)),
      ih (fun v hv => hws v (.tail _ hv)) (.inl hcarries)]
    rfl

end Burst

/-! ### The guard -/

/-- The chip-select writes at one end of a guard (R89). -/
def csEvents (cfg : Cfg) (b : Bool) : List Event := cfg.chipSelectLine.toList.map (pw · b)

theorem guarded_eq_csEvents (cfg : Cfg) (mid : List Event) :
    guarded cfg mid = csEvents cfg false ++ (mid ++ csEvents cfg true) := by
  cases hc : cfg.chipSelectLine <;> simp [guarded, csEvents, hc]

theorem mem_csEvents {cfg : Cfg} {b : Bool} {e : Event} (h : e ∈ csEvents cfg b) :
    ∃ cs, cfg.chipSelectLine = some cs ∧ e = pw cs b := by
  obtain ⟨cs, hcs, rfl⟩ := List.mem_map.1 h
  exact ⟨cs, Option.mem_toList.1 hcs, rfl⟩

section Guard

variable {cfg : Cfg} {wr : Pin} (hd : ((configPins cfg).map Pin.id).Nodup) (hs : cfg.writeStrobeLine = some wr)

include hd

/-- The guard leaves the data lines alone (R33). -/
theorem CarriesWord.replay_csEvents {l : List (Nat × Bool)} {w : Word} (h : CarriesWord cfg.dataLines l w) (b : Bool) :
    CarriesWord cfg.dataLines (replay l (csEvents cfg b)) w := by
  obtain ⟨-, -, hdata, -, -, -⟩ := pins_apart hd
  refine h.replay_of_not_written fun p hp e he => ?_
  obtain ⟨cs, hcs, rfl⟩ := mem_csEvents he
  simpa using (hdata cs hcs p hp).symm

include hs

/-- The guard does not raise the strobe (R33). -/
theorem chipWords_csEvents (l : List (Nat × Bool)) (b : Bool) :
    chipWords cfg.dataLines wr.id l (csEvents cfg b) = [] := by
  obtain ⟨hstrobe, -, -, -, -, -⟩ := pins_apart hd
  refine chipWords_of_no_rise (fun e he => ?_) l
  obtain ⟨cs, hcs, rfl⟩ := mem_csEvents he
  exact pw_ne_rise (.inl (hstrobe cs wr hcs hs).symm)

end Guard

/-! ### The commands -/

/-- What `TheDisplayReceivesTheRequest` says of one command that sends the words `ws` of `len` bytes. -/
def Receives (wr : Pin) (len : Nat) (ws : List Word) (s t : State) : Prop :=
  ∃ evs, t.trace = s.trace ++ evs ∧ chipWords s.cfg.dataLines wr.id s.latch evs = ws ∧
    (Coherent s ∨ 0 < len → Coherent t)

/-- A GPIO write of bus width `w`, all of whose words are within it. -/
theorem gpioWrite_receives {w : Nat} {op : BitVec 8} {addr len : Nat} {ws : List Word} {s t : State} {wr : Pin}
    (hlines : w ≤ 16) (hws : ∀ v ∈ ws, v.toNat < 2 ^ w) (hcount : ws.length = len / (w / 8))
    (hc : Coherent s ∨ s.cfg.skipOpt = .disabled) (hs : s.cfg.writeStrobeLine = some wr)
    (h : gpioWrite w op addr len ws s = .next t) : Receives wr len ws s t := by
  obtain ⟨wr', ⟨-, -, hd, -⟩, rfl, hs', hl, -, rfl⟩ := gpioWrite_cases h
  obtain rfl : wr = wr' := Option.some.inj (hs.symm.trans hs')
  have hopen : ∀ {v}, CarriesWord s.cfg.dataLines s.latch v →
      CarriesWord s.cfg.dataLines (replay s.latch (csEvents s.cfg false)) v := fun h => h.replay_csEvents hd false
  have hne : 0 < len → ws ≠ [] := by
    rintro hpos rfl
    exact hpos.ne' (Nat.eq_zero_of_dvd_of_div_eq_zero (Nat.dvd_of_mod_eq_zero hl) hcount.symm)
  refine ⟨guarded s.cfg (burstEvents s.cfg wr s.prev ws), rfl, ?_, fun hsent => coherent_iff.2 ?_⟩
  · rw [guarded_eq_csEvents, chipWords_append, chipWords_append, chipWords_csEvents hd hs, chipWords_csEvents hd hs,
      chipWords_burstEvents hd hs hlines hws (hc.imp_left hopen), List.nil_append, List.append_nil]
  · have hburst := carriesWord_replay_burstEvents hd hs
      ((or_and_left.2 ⟨hc, hsent⟩).imp hopen (And.imp_right hne))
    have hclosed := hburst.replay_csEvents hd true
    rw [← replay_append, ← replay_append, ← guarded_eq_csEvents] at hclosed
    exact hclosed

/-- Settles O42: the words of either width are within it. -/
theorem theDisplayReceivesTheRequest : Obligations.TheDisplayReceivesTheRequest := by
  intro addr len s t wr hc hs
  refine ⟨fun h => ?_, fun h => ?_⟩
  · rw [← map_wordOfByte_memRead]
    refine gpioWrite_receives (w := 8) (by decide) (fun v hv => ?_) (by simp) hc hs h
    obtain ⟨b, -, rfl⟩ := List.mem_map.1 hv
    exact toNat_wordOfByte_lt b
  · exact gpioWrite_receives (w := 16) (by decide) (fun v _ => v.isLt) (by simp) hc hs h

end Sys2Proof.Proofs
end

/-! Proofs of the family on GPIO reads: the bytes a read stores, and the data lines it leaves. -/

section
namespace Sys2Proof.Proofs

open Sys2Proof.Machine Sys2Proof.Safety

/-! ### The bytes of a read -/

theorem getLsbD_byteOfWord (w : Word) {i : Nat} (hi : i < 8) : (byteOfWord w).getLsbD i = w.getLsbD i := by
  simp [byteOfWord, hi]

/-- The byte made of word `k` of a list, one byte to a word, is read back at `addr + k` (R136). -/
theorem read_storeCells_map (m : List Host.Cell) (addr : Nat) (f : Word → Byte) {ws : List Word} {k : Nat} {w : Word}
    (hw : ws[k]? = some w) : Cells.read 0 (storeCells m addr (ws.map f)) (addr + k) = f w := by
  have hk : k < (ws.map f).length := by simpa using (List.getElem?_eq_some_iff.1 hw).1
  exact (read_storeCells_add m addr hk).trans (by simp [List.getD, hw])

/-- Settles O45: the request holds the low byte of each sampled word, and an 8-bit bus samples no more. -/
theorem readGpio8SamplesMsbFirst : Obligations.ReadGpio8SamplesMsbFirst := by
  intro addr len s rd ha hw hs hr
  have hexec := gpioRead_eq (op := 0x06) (toBytes := fun w => [byteOfWord w]) ha hw hs (Nat.mod_one len) hr
  rw [Nat.div_self (by decide), Nat.div_one, Nat.mul_comm len 8, ← List.map_eq_flatMap] at hexec
  refine ⟨storeCells s.mem addr (((List.range len).map (sampledWord s)).map byteOfWord), fun a hout => ?_,
    fun k i hk hi => ?_, hexec⟩
  · exact memByte_of_storeCells (t := { s with mem := _ }) rfl (by simp) hout
  · have hword : ((List.range len).map (sampledWord s))[k]? = some (sampledWord s k) := by simp [hk]
    rw [read_storeCells_map _ _ _ hword, getLsbD_byteOfWord _ hi, getLsbD_sampledWord hw hi (by omega), Nat.mul_comm k]

/-! ### The data lines under a read -/

/-- The two GPIO reads are one command of two widths (R136, R137). -/
theorem exec_eq_gpioRead {i : Instr} (hi : ∃ addr len, i = .readGpio8 addr len ∨ i = .readGpio16 addr len)
    (s : State) : ∃ w toBytes, exec i s = gpioRead w i.opcode i.addr i.len toBytes s := by
  obtain ⟨addr, len, rfl | rfl⟩ := hi
  · exact ⟨8, _, rfl⟩
  · exact ⟨16, _, rfl⟩

/-- Guarded read cycles write chip-select and the read strobe, neither of which is a data line (R33, R131). -/
theorem guarded_readCycleEvents_not_writesPin {s : State} {rd p : Pin} {n : Nat}
    (hd : ((configPins s.cfg).map Pin.id).Nodup) (hs : s.cfg.readStrobeLine = some rd) (hp : p ∈ s.cfg.dataLines) :
    ∀ e ∈ guarded s.cfg ((List.range n).flatMap (readCycleEvents rd s)), writesPin p.id e = false := by
  obtain ⟨-, -, hcs, -, hrd, -⟩ := pins_apart hd
  refine forall_mem_guarded (fun cs b hc => ?_) (readCycleEvents_not_writesPin (hrd rd hs p hp))
  simpa using (hcs cs hc p hp).symm

/-- Settles O47: `PREV` is not among what a read changes, and a latch no event writes keeps its level. -/
theorem readsLeaveTheWriteSkipState : Obligations.ReadsLeaveTheWriteSkipState := by
  intro i s t hi h
  obtain ⟨w, toBytes, hexec⟩ := exec_eq_gpioRead hi s
  obtain ⟨rd, ⟨-, -, hd, -⟩, -, hs, -, -, rfl⟩ := gpioRead_cases (hexec ▸ h)
  have hquiet := fun p (hp : p ∈ s.cfg.dataLines) =>
    guarded_readCycleEvents_not_writesPin (n := i.len / (w / 8)) hd hs hp
  exact ⟨rfl, ⟨_, rfl, hquiet⟩, fun p hp => level_replay_of_not_written (hquiet p hp) s.latch⟩

end Sys2Proof.Proofs
end

/-! Proofs of the family on exceptions: the causes of the errors a command answers. -/

section
namespace Sys2Proof.Proofs

open Sys2Proof.Machine Sys2Proof.Safety

/-- What must hold of a command and the state it is issued in for the command to answer a response (R138). -/
def ErrorCause (i : Instr) (s : State) : Response → Prop
  | .ok => True
  | .err .deviceUnavailable => s.cfg.busHandle = none ∧ i.opcode.toNat ≤ 2
  | .err .invalidArgument =>
    (i.opcode = 0x01 ∧ s.cfg.startByte.isSome = true ∧ s.cfg.stageSize < i.len) ∨ (i.opcode = 0x02 ∧ i.len % 8 ≠ 0)
  | .err .missingScratchBuffer => i.opcode = 0x02 ∧ s.cfg.scratchBuffer = none
  | .err .notImplemented => i.opcode = 0x05
  | .err (.hardwareTransferFailed st) => i.opcode.toNat ≤ 2 ∧ st = nextStatus s ∧ st.toInt < 0

/-- The command added one response, and that has its cause. -/
def AnswersWithCause (i : Instr) (s t : State) : Prop :=
  ∃ r, t.responses = s.responses ++ [r] ∧ ErrorCause i s r

/-- An SPI command's translated status is `Ok` or a failure with the negative status drawn (R101). -/
theorem errorCause_resultOfStatus {i : Instr} {s : State} (hi : i.opcode.toNat ≤ 2) (hp : positiveStatus s = none) :
    ErrorCause i s (resultOfStatus (nextStatus s)) := by
  by_cases h0 : nextStatus s = 0
  · simp [resultOfStatus, h0, ErrorCause]
  · have hne : (nextStatus s).toInt ≠ 0 := fun h => h0 (BitVec.toInt_inj.1 h)
    have hneg : (nextStatus s).toInt < 0 := lt_of_le_of_ne (nextStatus_le hp) hne
    rw [resultOfStatus_of_neg hneg]
    exact ⟨hi, rfl, hneg⟩

theorem gpioWrite_answersWithCause {i : Instr} {w : Nat} {op : BitVec 8} {addr len : Nat} {ws : List Word}
    {s t : State} (h : gpioWrite w op addr len ws s = .next t) : AnswersWithCause i s t := by
  obtain ⟨wr, -, -, -, -, -, rfl⟩ := gpioWrite_cases h
  exact ⟨.ok, rfl, trivial⟩

theorem gpioRead_answersWithCause {i : Instr} {w : Nat} {op : BitVec 8} {addr len : Nat}
    {toBytes : Word → List Byte} {s t : State} (h : gpioRead w op addr len toBytes s = .next t) :
    AnswersWithCause i s t := by
  obtain ⟨rd, -, -, -, -, -, rfl⟩ := gpioRead_cases h
  exact ⟨.ok, rfl, trivial⟩

/-- Every response has its cause: the check that failed, the transfer that did, or the command that always fails. -/
theorem exec_answersWithCause {i : Instr} {s t : State} (h : exec i s = .next t) : AnswersWithCause i s t := by
  cases i with
  | writeSpi addr len =>
    obtain ⟨-, ⟨hb, rfl⟩ | ⟨-, -, hp, rfl⟩⟩ := execWriteSpi_cases h
    · exact ⟨.err .deviceUnavailable, rfl, hb, by simp [Instr.opcode]⟩
    · exact ⟨_, rfl, errorCause_resultOfStatus (by simp [Instr.opcode]) hp⟩
  | readSpi addr len =>
    obtain ⟨-, ⟨hb, rfl⟩ | ⟨-, ho, rfl⟩ | ⟨-, -, -, hp, rfl⟩⟩ := execReadSpi_cases h
    · exact ⟨.err .deviceUnavailable, rfl, hb, by simp [Instr.opcode]⟩
    · exact ⟨.err .invalidArgument, rfl, .inl ⟨rfl, stageOverrun_iff.1 ho⟩⟩
    · rw [fillRead_stores, stageRead_stages]
      exact ⟨_, rfl, errorCause_resultOfStatus (by simp [Instr.opcode]) hp⟩
  | writeSpiEmulate9 addr len =>
    obtain ⟨-, ⟨hs, rfl⟩ | ⟨cap, -, ⟨hl, rfl⟩ | ⟨-, -, -, -, ⟨hb, rfl⟩ | ⟨-, hp, rfl⟩⟩⟩⟩ := execWriteSpiEmulate9_cases h
    · exact ⟨.err .missingScratchBuffer, rfl, rfl, hs⟩
    · exact ⟨.err .invalidArgument, rfl, .inr ⟨rfl, hl⟩⟩
    · rw [packed_eq]
      exact ⟨.err .deviceUnavailable, rfl, hb, by simp [Instr.opcode]⟩
    · rw [packed_eq]
      exact ⟨_, rfl, errorCause_resultOfStatus (by simp [Instr.opcode]) hp⟩
  | writeGpio8Wr addr len => exact gpioWrite_answersWithCause h
  | writeGpio16Wr addr len => exact gpioWrite_answersWithCause h
  | writeGpio16WrLatched addr len =>
    obtain ⟨-, rfl⟩ := execWriteGpio16WrLatched_cases h
    exact ⟨.err .notImplemented, rfl, rfl⟩
  | readGpio8 addr len => exact gpioRead_answersWithCause h
  | readGpio16 addr len => exact gpioRead_answersWithCause h

/-- Settles O26: the one response a command adds has its cause, whichever error it is. -/
theorem errorsHaveTheirCauses : Obligations.ErrorsHaveTheirCauses := by
  intro i s t r hexec hresp
  obtain ⟨r', hresp', hcause⟩ := exec_answersWithCause hexec
  obtain rfl : r' = r := List.singleton_injective (List.append_cancel_left (hresp'.symm.trans hresp))
  refine ⟨?_, ?_, ?_, ?_, fun st => ?_⟩ <;> rintro rfl <;> exact hcause

end Sys2Proof.Proofs
end

/-! Proofs of the family on reset and hazards: the number of events of each command, and the write-skip hazard. -/

section
namespace Sys2Proof.Proofs

open Sys2Proof.Machine Sys2Proof.Safety

/-! ### The number of events -/

/-- The guard adds chip-select's two writes where there is a chip-select (R89). -/
theorem length_guarded (cfg : Cfg) (mid : List Event) :
    (guarded cfg mid).length = guardCost cfg + mid.length := by
  cases hc : cfg.chipSelectLine with
  | none => simp [guarded, guardCost, hc]
  | some cs => simp [guarded, guardCost, hc, Nat.add_comm 2]

theorem cycleCost_of_disabled {cfg : Cfg} (hoff : cfg.skipOpt = .disabled) (prev w : Word) :
    cycleCost cfg prev w = 2 + cfg.dataLines.length := by
  simp [cycleCost, hoff]

/-- Without the optimisation every word costs the same (R125). -/
theorem burstCost_of_disabled {cfg : Cfg} (hoff : cfg.skipOpt = .disabled) (prev : Word) (ws : List Word) :
    burstCost cfg prev ws = (2 + cfg.dataLines.length) * ws.length := by
  induction ws generalizing prev with
  | nil => rfl
  | cons w ws ih => rw [burstCost, cycleCost_of_disabled hoff, ih, List.length_cons, Nat.mul_succ, Nat.add_comm]

/-- A write cycle has the strobe's two writes and, between them, the delay write or one event for each line driven. -/
theorem length_cycleEvents {cfg : Cfg} {prev w : Word} (hlines : cfg.dataLines.length ≤ 16)
    (hw : w.toNat < 2 ^ cfg.dataLines.length) (hprev : prev.toNat < 2 ^ cfg.dataLines.length) (wr : Pin) :
    (cycleEvents cfg wr prev w).length = cycleCost cfg prev w := by
  have hdata : (cycleEvents cfg wr prev w).length = 2 + (dataEvents cfg wr prev w).length := by
    simp [cycleEvents, Nat.add_comm 2]
  rw [hdata]
  cases hskip : cfg.skipOpt with
  | disabled => simp [cycleCost, dataEvents, hskip, length_lineEvents]
  | enabled =>
    by_cases hsame : w = prev
    · simp [cycleCost, dataEvents, hskip, hsame]
    · simp [cycleCost, dataEvents, hskip, hsame, length_lineEvents, diffBits_eq hlines hw hprev]

/-- Words within the bus width, after a word within it (R125, R167). -/
theorem length_burstEvents {cfg : Cfg} (hlines : cfg.dataLines.length ≤ 16) {ws : List Word}
    (hws : ∀ w ∈ ws, w.toNat < 2 ^ cfg.dataLines.length) {prev : Word}
    (hprev : prev.toNat < 2 ^ cfg.dataLines.length) (wr : Pin) :
    (burstEvents cfg wr prev ws).length = burstCost cfg prev ws := by
  induction ws generalizing prev with
  | nil => rfl
  | cons w ws ih =>
    have hw := hws w (.head _)
    rw [burstEvents, List.length_append, length_cycleEvents hlines hw hprev, ih (fun v hv => hws v (.tail _ hv)) hw,
      burstCost]

/-- A read cycle has the strobe's two writes, the delay and one sample of each line (R131). -/
theorem length_readCycleEvents (rd : Pin) (s : State) (j : Nat) :
    (readCycleEvents rd s j).length = 3 + s.cfg.dataLines.length := by
  simp [readCycleEvents, Nat.add_comm 3]

/-! ### The number of events of a command -/

/-- The command added `n` events to its guard's. -/
def GuardedCost (n : Nat) (s t : State) : Prop := t.trace.length = s.trace.length + (guardCost s.cfg + n)

theorem guardedCost_of_trace {s t : State} {mid : List Event} (h : t.trace = s.trace ++ guarded s.cfg mid) :
    GuardedCost mid.length s t := by
  rw [GuardedCost, h, List.length_append, length_guarded]

/-- An SPI command ran its one transfer or answered an error. -/
theorem spi_transfers_or_fails {addr len : Nat} {i : Instr} {s t : State}
    (hi : i = .writeSpi addr len ∨ i = .readSpi addr len ∨ i = .writeSpiEmulate9 addr len) (h : exec i s = .next t) :
    OneTransfer s t ∨ ∃ e, t.responses = s.responses ++ [.err e] := by
  obtain rfl | rfl | rfl := hi
  · obtain ⟨-, ⟨-, rfl⟩ | ⟨-, -, -, rfl⟩⟩ := execWriteSpi_cases h
    · exact .inr ⟨_, rfl⟩
    · exact .inl ⟨_, issue 0x00 addr len s, rfl, rfl⟩
  · obtain ⟨-, ⟨-, rfl⟩ | ⟨-, -, rfl⟩ | ⟨-, -, -, -, rfl⟩⟩ := execReadSpi_cases h
    · exact .inr ⟨_, rfl⟩
    · exact .inr ⟨_, rfl⟩
    · rw [fillRead_stores, stageRead_stages]
      exact .inl ⟨_, issue 0x01 addr len s, rfl, rfl⟩
  · obtain ⟨-, ⟨-, rfl⟩ | ⟨cap, -, ⟨-, rfl⟩ | ⟨-, -, -, -, ⟨-, rfl⟩ | ⟨-, -, rfl⟩⟩⟩⟩ := execWriteSpiEmulate9_cases h
    · exact .inr ⟨_, rfl⟩
    · exact .inr ⟨_, rfl⟩
    · rw [packed_eq]
      exact .inr ⟨.deviceUnavailable, rfl⟩
    · rw [packed_eq]
      exact .inl ⟨_, issue 0x02 addr len s, rfl, rfl⟩

/-- An SPI command answered `Ok` has the one event of its transfer. -/
theorem spi_guardedCost {addr len : Nat} {i : Instr} {s t : State}
    (hi : i = .writeSpi addr len ∨ i = .readSpi addr len ∨ i = .writeSpiEmulate9 addr len) (h : exec i s = .next t)
    (hok : t.responses = s.responses ++ [.ok]) : GuardedCost 1 s t := by
  obtain ⟨spec, u, htrace, -⟩ | ⟨e, herr⟩ := spi_transfers_or_fails hi h
  · exact guardedCost_of_trace htrace
  · cases List.singleton_injective (List.append_cancel_left (herr.symm.trans hok))

/-- A GPIO write of bus width `w`, all of whose words are within it, from a `PREV` within it. -/
theorem gpioWrite_guardedCost {w : Nat} {op : BitVec 8} {addr len : Nat} {ws : List Word} {s t : State}
    (hlines : w ≤ 16) (hws : ∀ v ∈ ws, v.toNat < 2 ^ w) (hprev : s.prev.toNat < 2 ^ s.cfg.dataLines.length)
    (h : gpioWrite w op addr len ws s = .next t) :
    GuardedCost (burstCost s.cfg s.prev ws) s t ∧
    (s.cfg.skipOpt = .disabled → GuardedCost ((2 + w) * ws.length) s t) := by
  obtain ⟨wr, -, rfl, -, -, -, ht⟩ := gpioWrite_cases h
  have htrace : t.trace = s.trace ++ guarded s.cfg (burstEvents s.cfg wr s.prev ws) := ht ▸ rfl
  have hcost := guardedCost_of_trace htrace
  rw [length_burstEvents hlines hws hprev] at hcost
  exact ⟨hcost, fun hoff => burstCost_of_disabled hoff s.prev ws ▸ hcost⟩

/-- A GPIO read of bus width `w`. -/
theorem gpioRead_guardedCost {w : Nat} {op : BitVec 8} {addr len : Nat} {toBytes : Word → List Byte} {s t : State}
    (h : gpioRead w op addr len toBytes s = .next t) : GuardedCost ((3 + w) * (len / (w / 8))) s t := by
  obtain ⟨rd, -, rfl, -, -, -, rfl⟩ := gpioRead_cases h
  have hcycles (n : Nat) : ((List.range n).flatMap (readCycleEvents rd s)).length = (3 + s.cfg.dataLines.length) * n := by
    simp [List.length_flatMap, length_readCycleEvents, Nat.mul_comm]
  exact hcycles _ ▸ guardedCost_of_trace rfl

/-- A precondition error costs nothing where the checks stand before chip-select (R95). -/
theorem trace_of_precheckError {i : Instr} {r : Response} {s t : State} (hpre : s.cfg.precheckBeforeCs = true)
    (h : exec i s = .next t) (hresp : t.responses = s.responses ++ [r]) (hr : isPrecheckError r = true) :
    t.trace = s.trace := by
  rw [preconditionErrorsTouchNoBus i s t r h hresp hr, precheckEvents, if_pos hpre, ite_self, List.append_nil]

/-- Settles O48: the guard's events and, inside it, one transfer, the write cycles or the read cycles. -/
theorem eventCountsPerCommand : Obligations.EventCountsPerCommand := by
  intro addr len s t hpre hprev
  refine ⟨fun i hi h => spi_guardedCost hi h, fun h => ?_, fun h => ?_, fun h => ?_, fun h => gpioRead_guardedCost h,
    fun i r h hresp hr => by rw [trace_of_precheckError hpre h hresp hr]⟩
  · have hbytes : ∀ v ∈ (memRead s addr len).map wordOfByte, v.toNat < 2 ^ 8 := by
      intro v hv
      obtain ⟨b, -, rfl⟩ := List.mem_map.1 hv
      exact toNat_wordOfByte_lt b
    simpa [GuardedCost, map_wordOfByte_memRead] using gpioWrite_guardedCost (by decide) hbytes hprev h
  · simpa [GuardedCost, memReadWords] using gpioWrite_guardedCost (w := 16) (by decide) (fun v _ => v.isLt) hprev h
  · simpa [GuardedCost] using gpioRead_guardedCost h

/-! ### The write-skip hazard -/

/-- Program D's launch state: `PREV` is 0 although line 7, pin 10, is at level 1 (R157 violated), and the byte to send
is `01`. -/
def incoherentLaunch : State :=
  { State.reset with
    latch := [(0, true), (1, true), (2, true), (10, true)]
    mem := [(0x1000, 0x01)] }

/-- Program D's trace: the one line whose bit differs from `PREV` is driven, and line 7 is not. -/
def incoherentEvents : List Event :=
  [.pw 0 false .fast, .pw 1 false .fast, .pw 3 true .fast, .pw 1 true .fast, .pw 0 true .fast]

theorem exec_incoherentLaunch :
    exec (.writeGpio8Wr 0x1000 1) incoherentLaunch =
      .next { answered (.writeGpio8Wr 0x1000 1) .ok incoherentEvents incoherentLaunch with prev := 0x0001 } :=
  writeGpio8WrRunsOneCyclePerByte 0x1000 1 incoherentLaunch ⟨1, false⟩ (by decide) rfl rfl
    ⟨by decide, fun _ hr => absurd hr List.not_mem_nil⟩

/-- Settles O43: on Program D's launch state the chip latches line 7's old level with the byte. -/
theorem incoherentLinesCanLatchAWrongWord : Obligations.IncoherentLinesCanLatchAWrongWord :=
  ⟨incoherentLaunch, _, ⟨1, false⟩, incoherentEvents, rfl, rfl, rfl, rfl, exec_incoherentLaunch, rfl, by decide⟩

end Sys2Proof.Proofs
end
